-- ==== Sys2Proof/Word.lean ====
section
/-! DEFINITION. The two word types of the machine (`00_scope.md` R6, R10; `10_state.md` R30). -/

namespace Sys2Proof

/-- One byte of memory (R30). -/
abbrev Byte := BitVec 8

/-- `Word32`: every register value, pc value, address and instruction word (R10). -/
abbrev Word := BitVec 32

end Sys2Proof
end

