-- ==== Sys2Proof/Config.lean ====
section
/-! DEFINITION. What an implementation fixes: the constants of `00_scope.md` R6 and the parameters of R7, which
the spec leaves without a value and asks the model to take as an argument. -/

namespace Sys2Proof

/-- The fixed instruction width in bytes (R6, R70), kept as a named constant as the source asks (93 I2). -/
abbrev ilenBytes : Nat := 4

/-- The instruction width as the amount by which a handler advances the pc. -/
abbrev ilen : Word := 4#32

/-- What a step does with a word that has no handler (R7 `INVALID_POLICY`, 92 D3). -/
inductive InvalidPolicy where
  | fail
  | skip
  deriving DecidableEq, Repr

/-- The parameters of R7.  A claim quantifies over them (92 D7). -/
structure Params where
  /-- `TEXT_BASE` -/
  textBase : Word
  /-- `STATIC_BASE` -/
  staticBase : Word
  /-- `STACK_BASE` -/
  stackBase : Word
  /-- `MAX_CYCLES` -/
  maxCycles : Nat
  /-- `INVALID_POLICY` -/
  invalidPolicy : InvalidPolicy
  /-- `PRIVATE_LABEL_PREFIX`, read by the assembler alone (46 R293) -/
  localLabelMark : String
  deriving DecidableEq, Repr

end Sys2Proof
end

