-- ==== Sys2Proof/Decode.lean ====
section
/-! DEFINITION. The decoder of `30_encoding.md` (fields, immediates, dispatch by opcode, funct3 and funct7), the
opcode table it is checked against (R86), and after it the encoder of `45_encoder.md` (the six packers and the
operation codes of R259).  Decoding is total: a word is an instruction or, by name, `noHandler`. -/

namespace Sys2Proof

/-! ### Byte order (`20_memory.md` R50) -/

/-- Byte `j` of a word: `v[8j+7 : 8j]` (R50). -/
def byteOf (v : Word) (j : Nat) : Byte := v.extractLsb' (8 * j) 8

/-- The word whose bytes, the first at the lowest address, are `b0 b1 b2 b3`: little-endian (R50, 92 D4). -/
def wordOfBytes (b0 b1 b2 b3 : Byte) : Word := b3 ++ b2 ++ b1 ++ b0

/-! ### Fields (R73) -/

/-- `w[6:0]` -/
def opcodeF (w : Word) : BitVec 7 := w.extractLsb' 0 7
/-- `w[11:7]` -/
def rdF (w : Word) : Reg := (w.extractLsb' 7 5).toFin
/-- `w[14:12]` -/
def funct3F (w : Word) : BitVec 3 := w.extractLsb' 12 3
/-- `w[19:15]` -/
def rs1F (w : Word) : Reg := (w.extractLsb' 15 5).toFin
/-- `w[24:20]` -/
def rs2F (w : Word) : Reg := (w.extractLsb' 20 5).toFin
/-- `w[31:25]` -/
def funct7F (w : Word) : BitVec 7 := w.extractLsb' 25 7

/-! ### Immediate fields (R80 to R84), at the width they have before they are extended to a word -/

/-- `w[31:20]` (R75, R80) -/
def immIF (w : Word) : BitVec 12 := w.extractLsb' 20 12
/-- `{w[31:25], w[11:7]}` (R76, R81) -/
def immSF (w : Word) : BitVec 12 := w.extractLsb' 25 7 ++ w.extractLsb' 7 5
/-- `{w[31], w[7], w[30:25], w[11:8], 1'b0}` (R77, R82) -/
def immBF (w : Word) : BitVec 13 :=
  w.extractLsb' 31 1 ++ w.extractLsb' 7 1 ++ w.extractLsb' 25 6 ++ w.extractLsb' 8 4 ++ 0#1
/-- `w[31:12]` (R78, R83) -/
def immUF (w : Word) : BitVec 20 := w.extractLsb' 12 20
/-- `{w[31], w[19:12], w[20], w[30:21], 1'b0}` (R79, R83) -/
def immJF (w : Word) : BitVec 21 :=
  w.extractLsb' 31 1 ++ w.extractLsb' 12 8 ++ w.extractLsb' 20 1 ++ w.extractLsb' 21 10 ++ 0#1
/-- `w[24:20]` (R84) -/
def shamtF (w : Word) : BitVec 5 := w.extractLsb' 20 5

/-! ### Immediates as words (R80 to R83, R182) -/

/-- An immediate field sign-extended to a word (R182). -/
def signExt {n : Nat} (v : BitVec n) : Word := v.signExtend 32
/-- `{imm20, 12'b0}` (R83): an upper immediate fills bits 31..12. -/
def upper (imm : BitVec 20) : Word := imm ++ 0#12

/-- R80 -/
def immI (w : Word) : Word := signExt (immIF w)
/-- R81 -/
def immS (w : Word) : Word := signExt (immSF w)
/-- R82 -/
def immB (w : Word) : Word := signExt (immBF w)
/-- R83 -/
def immU (w : Word) : Word := upper (immUF w)
/-- R83 -/
def immJ (w : Word) : Word := signExt (immJF w)

/-! ### Dispatch (R85 to R89) -/

/-- BRANCH: funct3 chooses the condition (R88). -/
def decodeBranch (w : Word) : Option Instr :=
  match funct3F w with
  | 0b000#3 => some (.beq (rs1F w) (rs2F w) (immBF w))
  | 0b001#3 => some (.bne (rs1F w) (rs2F w) (immBF w))
  | 0b100#3 => some (.blt (rs1F w) (rs2F w) (immBF w))
  | 0b101#3 => some (.bge (rs1F w) (rs2F w) (immBF w))
  | 0b110#3 => some (.bltu (rs1F w) (rs2F w) (immBF w))
  | 0b111#3 => some (.bgeu (rs1F w) (rs2F w) (immBF w))
  | _ => none

/-- LOAD (R88). -/
def decodeLoad (w : Word) : Option Instr :=
  match funct3F w with
  | 0b000#3 => some (.lb (rdF w) (rs1F w) (immIF w))
  | 0b001#3 => some (.lh (rdF w) (rs1F w) (immIF w))
  | 0b010#3 => some (.lw (rdF w) (rs1F w) (immIF w))
  | 0b100#3 => some (.lbu (rdF w) (rs1F w) (immIF w))
  | 0b101#3 => some (.lhu (rdF w) (rs1F w) (immIF w))
  | _ => none

/-- STORE (R88). -/
def decodeStore (w : Word) : Option Instr :=
  match funct3F w with
  | 0b000#3 => some (.sb (rs1F w) (rs2F w) (immSF w))
  | 0b001#3 => some (.sh (rs1F w) (rs2F w) (immSF w))
  | 0b010#3 => some (.sw (rs1F w) (rs2F w) (immSF w))
  | _ => none

/-- OP-IMM: funct3, and funct7 for the shifts (R88, R84). -/
def decodeOpImm (w : Word) : Option Instr :=
  match funct3F w with
  | 0b000#3 => some (.addi (rdF w) (rs1F w) (immIF w))
  | 0b010#3 => some (.slti (rdF w) (rs1F w) (immIF w))
  | 0b011#3 => some (.sltiu (rdF w) (rs1F w) (immIF w))
  | 0b100#3 => some (.xori (rdF w) (rs1F w) (immIF w))
  | 0b110#3 => some (.ori (rdF w) (rs1F w) (immIF w))
  | 0b111#3 => some (.andi (rdF w) (rs1F w) (immIF w))
  | 0b001#3 => if funct7F w = 0b0000000#7 then some (.slli (rdF w) (rs1F w) (shamtF w)) else none
  | 0b101#3 =>
    if funct7F w = 0b0000000#7 then some (.srli (rdF w) (rs1F w) (shamtF w))
    else if funct7F w = 0b0100000#7 then some (.srai (rdF w) (rs1F w) (shamtF w))
    else none
  | _ => none

/-- OP: funct7 and funct3 (R89). -/
def decodeOp (w : Word) : Option Instr :=
  if funct7F w = 0b0000000#7 then
    match funct3F w with
    | 0b000#3 => some (.add (rdF w) (rs1F w) (rs2F w))
    | 0b001#3 => some (.sll (rdF w) (rs1F w) (rs2F w))
    | 0b010#3 => some (.slt (rdF w) (rs1F w) (rs2F w))
    | 0b011#3 => some (.sltu (rdF w) (rs1F w) (rs2F w))
    | 0b100#3 => some (.xor (rdF w) (rs1F w) (rs2F w))
    | 0b101#3 => some (.srl (rdF w) (rs1F w) (rs2F w))
    | 0b110#3 => some (.or (rdF w) (rs1F w) (rs2F w))
    | 0b111#3 => some (.and (rdF w) (rs1F w) (rs2F w))
    | _ => none
  else if funct7F w = 0b0100000#7 then
    match funct3F w with
    | 0b000#3 => some (.sub (rdF w) (rs1F w) (rs2F w))
    | 0b101#3 => some (.sra (rdF w) (rs1F w) (rs2F w))
    | _ => none
  else none

/-- The instruction a word selects, if it selects one: the major opcode map (R87). -/
def decodeWord (w : Word) : Option Instr :=
  match opcodeF w with
  | 0b0110111#7 => some (.lui (rdF w) (immUF w))
  | 0b0010111#7 => some (.auipc (rdF w) (immUF w))
  | 0b1101111#7 => some (.jal (rdF w) (immJF w))
  | 0b1100111#7 => if funct3F w = 0b000#3 then some (.jalr (rdF w) (rs1F w) (immIF w)) else none
  | 0b1100011#7 => decodeBranch w
  | 0b0000011#7 => decodeLoad w
  | 0b0100011#7 => decodeStore w
  | 0b0010011#7 => decodeOpImm w
  | 0b0110011#7 => decodeOp w
  | _ => none

/-- The decoder's answer (R94): the instruction with its operands, or the word that has no handler. -/
inductive DecodeResult where
  | handler (i : Instr)
  | noHandler (w : Word)
  deriving DecidableEq, Repr

/-- The decoder (R86, R94): total, and a function of the word alone (R71). -/
def decode (w : Word) : DecodeResult :=
  match decodeWord w with
  | some i => .handler i
  | none => .noHandler w

/-- The instruction the decoder reads from the four bytes of an instruction word, first byte at the lowest address. -/
def decodeBytes (b0 b1 b2 b3 : Byte) : DecodeResult := decode (wordOfBytes b0 b1 b2 b3)

/-- The instruction the decoder reads from an opcode-table word of `nbits` bits: its bytes laid out as the hardware
stores them, the bits above `nbits` 0, and given to the decoder. -/
def decodeTableWord (nbits w : Nat) : Option Instr :=
  let v : Word := BitVec.ofNat 32 (w % 2 ^ nbits)
  match decodeBytes (byteOf v 0) (byteOf v 1) (byteOf v 2) (byteOf v 3) with
  | .handler i => some i
  | .noHandler _ => none

/-! ### The opcode table (R86) -/

/-- The closed enumeration of the 37 names (R87, R94). -/
inductive Mnemonic where
  | lui | auipc | jal | jalr
  | beq | bne | blt | bge | bltu | bgeu
  | lb | lh | lw | lbu | lhu | sb | sh | sw
  | addi | slti | sltiu | xori | ori | andi | slli | srli | srai
  | add | sub | sll | slt | sltu | xor | srl | sra | or | and
  deriving DecidableEq, Repr

/-- The name of an instruction. -/
def Instr.mnemonic : Instr → Mnemonic
  | .lui _ _ => .lui
  | .auipc _ _ => .auipc
  | .jal _ _ => .jal
  | .jalr _ _ _ => .jalr
  | .beq _ _ _ => .beq
  | .bne _ _ _ => .bne
  | .blt _ _ _ => .blt
  | .bge _ _ _ => .bge
  | .bltu _ _ _ => .bltu
  | .bgeu _ _ _ => .bgeu
  | .lb _ _ _ => .lb
  | .lh _ _ _ => .lh
  | .lw _ _ _ => .lw
  | .lbu _ _ _ => .lbu
  | .lhu _ _ _ => .lhu
  | .sb _ _ _ => .sb
  | .sh _ _ _ => .sh
  | .sw _ _ _ => .sw
  | .addi _ _ _ => .addi
  | .slti _ _ _ => .slti
  | .sltiu _ _ _ => .sltiu
  | .xori _ _ _ => .xori
  | .ori _ _ _ => .ori
  | .andi _ _ _ => .andi
  | .slli _ _ _ => .slli
  | .srli _ _ _ => .srli
  | .srai _ _ _ => .srai
  | .add _ _ _ => .add
  | .sub _ _ _ => .sub
  | .sll _ _ _ => .sll
  | .slt _ _ _ => .slt
  | .sltu _ _ _ => .sltu
  | .xor _ _ _ => .xor
  | .srl _ _ _ => .srl
  | .sra _ _ _ => .sra
  | .or _ _ _ => .or
  | .and _ _ _ => .and

/-- A row of the opcode table: a word `w` selects it when `w & mask = pattern` (R86). -/
structure OpcodeRow where
  mnemonic : Mnemonic
  pattern : Word
  mask : Word
  deriving DecidableEq, Repr

/-- U and J rows: the opcode alone is matched. -/
def upperJumpRows : List OpcodeRow :=
  [⟨.lui, 0x00000037, 0x0000007F⟩, ⟨.auipc, 0x00000017, 0x0000007F⟩, ⟨.jal, 0x0000006F, 0x0000007F⟩]

/-- JALR, branch, load and store rows: opcode and funct3. -/
def controlMemoryRows : List OpcodeRow :=
  [⟨.jalr, 0x00000067, 0x0000707F⟩,
   ⟨.beq, 0x00000063, 0x0000707F⟩, ⟨.bne, 0x00001063, 0x0000707F⟩, ⟨.blt, 0x00004063, 0x0000707F⟩,
   ⟨.bge, 0x00005063, 0x0000707F⟩, ⟨.bltu, 0x00006063, 0x0000707F⟩, ⟨.bgeu, 0x00007063, 0x0000707F⟩,
   ⟨.lb, 0x00000003, 0x0000707F⟩, ⟨.lh, 0x00001003, 0x0000707F⟩, ⟨.lw, 0x00002003, 0x0000707F⟩,
   ⟨.lbu, 0x00004003, 0x0000707F⟩, ⟨.lhu, 0x00005003, 0x0000707F⟩,
   ⟨.sb, 0x00000023, 0x0000707F⟩, ⟨.sh, 0x00001023, 0x0000707F⟩, ⟨.sw, 0x00002023, 0x0000707F⟩]

/-- OP-IMM rows: opcode and funct3, and funct7 for the shifts. -/
def opImmRows : List OpcodeRow :=
  [⟨.addi, 0x00000013, 0x0000707F⟩, ⟨.slti, 0x00002013, 0x0000707F⟩, ⟨.sltiu, 0x00003013, 0x0000707F⟩,
   ⟨.xori, 0x00004013, 0x0000707F⟩, ⟨.ori, 0x00006013, 0x0000707F⟩, ⟨.andi, 0x00007013, 0x0000707F⟩,
   ⟨.slli, 0x00001013, 0xFE00707F⟩, ⟨.srli, 0x00005013, 0xFE00707F⟩, ⟨.srai, 0x40005013, 0xFE00707F⟩]

/-- OP rows: opcode, funct3 and funct7. -/
def opRows : List OpcodeRow :=
  [⟨.add, 0x00000033, 0xFE00707F⟩, ⟨.sub, 0x40000033, 0xFE00707F⟩, ⟨.sll, 0x00001033, 0xFE00707F⟩,
   ⟨.slt, 0x00002033, 0xFE00707F⟩, ⟨.sltu, 0x00003033, 0xFE00707F⟩, ⟨.xor, 0x00004033, 0xFE00707F⟩,
   ⟨.srl, 0x00005033, 0xFE00707F⟩, ⟨.sra, 0x40005033, 0xFE00707F⟩, ⟨.or, 0x00006033, 0xFE00707F⟩,
   ⟨.and, 0x00007033, 0xFE00707F⟩]

/-- `OPCODE_TABLE` (R86). -/
def opcodeTable : List OpcodeRow := upperJumpRows ++ controlMemoryRows ++ opImmRows ++ opRows

/-- A word selects a row (R86). -/
def OpcodeRow.selects (r : OpcodeRow) (w : Word) : Bool := w &&& r.mask == r.pattern

/-- The search of R86: the name of the row the word selects. -/
def selectRow (w : Word) : Option Mnemonic := (opcodeTable.find? (·.selects w)).map (·.mnemonic)

/-! ### The encoder: the format layouts (R74 to R79), filled as the packers R242 to R247 fill them -/

/-- A register number as its 5-bit field. -/
def regField (r : Reg) : BitVec 5 := BitVec.ofFin r

/-- R242 -/
def packR (opcode : BitVec 7) (funct3 : BitVec 3) (funct7 : BitVec 7) (rd rs1 rs2 : BitVec 5) : Word :=
  funct7 ++ rs2 ++ rs1 ++ funct3 ++ rd ++ opcode

/-- R243 -/
def packI (opcode : BitVec 7) (funct3 : BitVec 3) (rd rs1 : BitVec 5) (imm : BitVec 12) : Word :=
  imm ++ rs1 ++ funct3 ++ rd ++ opcode

/-- R244 -/
def packS (opcode : BitVec 7) (funct3 : BitVec 3) (rs1 rs2 : BitVec 5) (imm : BitVec 12) : Word :=
  imm.extractLsb' 5 7 ++ rs2 ++ rs1 ++ funct3 ++ imm.extractLsb' 0 5 ++ opcode

/-- R245 -/
def packB (opcode : BitVec 7) (funct3 : BitVec 3) (rs1 rs2 : BitVec 5) (off : BitVec 13) : Word :=
  off.extractLsb' 12 1 ++ off.extractLsb' 5 6 ++ rs2 ++ rs1 ++ funct3
    ++ off.extractLsb' 1 4 ++ off.extractLsb' 11 1 ++ opcode

/-- R246 -/
def packU (opcode : BitVec 7) (rd : BitVec 5) (imm : BitVec 20) : Word := imm ++ rd ++ opcode

/-- R247 -/
def packJ (opcode : BitVec 7) (rd : BitVec 5) (off : BitVec 21) : Word :=
  off.extractLsb' 20 1 ++ off.extractLsb' 1 10 ++ off.extractLsb' 11 1 ++ off.extractLsb' 12 8 ++ rd ++ opcode

/-! The operand forms of R253 to R258, one shared operation each -/

/-- OP (R253). -/
def encodeOp (funct3 : BitVec 3) (funct7 : BitVec 7) (rd rs1 rs2 : Reg) : Word :=
  packR 0x33 funct3 funct7 (regField rd) (regField rs1) (regField rs2)
/-- OP-IMM with imm12 (R254). -/
def encodeOpImm (funct3 : BitVec 3) (rd rs1 : Reg) (imm : BitVec 12) : Word :=
  packI 0x13 funct3 (regField rd) (regField rs1) imm
/-- OP-IMM shifts (R254). -/
def encodeShift (funct3 : BitVec 3) (funct7 : BitVec 7) (rd rs1 : Reg) (shamt : BitVec 5) : Word :=
  packR 0x13 funct3 funct7 (regField rd) (regField rs1) shamt
/-- BRANCH (R256). -/
def encodeBranch (funct3 : BitVec 3) (rs1 rs2 : Reg) (off : BitVec 13) : Word :=
  packB 0x63 funct3 (regField rs1) (regField rs2) off
/-- LOAD (R257). -/
def encodeLoad (funct3 : BitVec 3) (rd rs1 : Reg) (imm : BitVec 12) : Word :=
  packI 0x03 funct3 (regField rd) (regField rs1) imm
/-- STORE (R258). -/
def encodeStore (funct3 : BitVec 3) (rs1 rs2 : Reg) (imm : BitVec 12) : Word :=
  packS 0x23 funct3 (regField rs1) (regField rs2) imm

/-- The word of a well-formed instruction: the packer call of its row of R259.  `decode` inverts it (`45_encoder.md` R248,
`Obligations.DecodeEncodeRoundTrip`). -/
def encode : Instr → Word
  | .lui rd imm => packU 0x37 (regField rd) imm
  | .auipc rd imm => packU 0x17 (regField rd) imm
  | .jal rd off => packJ 0x6F (regField rd) off
  | .jalr rd rs1 imm => packI 0x67 0 (regField rd) (regField rs1) imm
  | .beq rs1 rs2 off => encodeBranch 0 rs1 rs2 off
  | .bne rs1 rs2 off => encodeBranch 1 rs1 rs2 off
  | .blt rs1 rs2 off => encodeBranch 4 rs1 rs2 off
  | .bge rs1 rs2 off => encodeBranch 5 rs1 rs2 off
  | .bltu rs1 rs2 off => encodeBranch 6 rs1 rs2 off
  | .bgeu rs1 rs2 off => encodeBranch 7 rs1 rs2 off
  | .lb rd rs1 imm => encodeLoad 0 rd rs1 imm
  | .lh rd rs1 imm => encodeLoad 1 rd rs1 imm
  | .lw rd rs1 imm => encodeLoad 2 rd rs1 imm
  | .lbu rd rs1 imm => encodeLoad 4 rd rs1 imm
  | .lhu rd rs1 imm => encodeLoad 5 rd rs1 imm
  | .sb rs1 rs2 imm => encodeStore 0 rs1 rs2 imm
  | .sh rs1 rs2 imm => encodeStore 1 rs1 rs2 imm
  | .sw rs1 rs2 imm => encodeStore 2 rs1 rs2 imm
  | .addi rd rs1 imm => encodeOpImm 0 rd rs1 imm
  | .slti rd rs1 imm => encodeOpImm 2 rd rs1 imm
  | .sltiu rd rs1 imm => encodeOpImm 3 rd rs1 imm
  | .xori rd rs1 imm => encodeOpImm 4 rd rs1 imm
  | .ori rd rs1 imm => encodeOpImm 6 rd rs1 imm
  | .andi rd rs1 imm => encodeOpImm 7 rd rs1 imm
  | .slli rd rs1 sh => encodeShift 1 0x00 rd rs1 sh
  | .srli rd rs1 sh => encodeShift 5 0x00 rd rs1 sh
  | .srai rd rs1 sh => encodeShift 5 0x20 rd rs1 sh
  | .add rd rs1 rs2 => encodeOp 0 0x00 rd rs1 rs2
  | .sub rd rs1 rs2 => encodeOp 0 0x20 rd rs1 rs2
  | .sll rd rs1 rs2 => encodeOp 1 0x00 rd rs1 rs2
  | .slt rd rs1 rs2 => encodeOp 2 0x00 rd rs1 rs2
  | .sltu rd rs1 rs2 => encodeOp 3 0x00 rd rs1 rs2
  | .xor rd rs1 rs2 => encodeOp 4 0x00 rd rs1 rs2
  | .srl rd rs1 rs2 => encodeOp 5 0x00 rd rs1 rs2
  | .sra rd rs1 rs2 => encodeOp 5 0x20 rd rs1 rs2
  | .or rd rs1 rs2 => encodeOp 6 0x00 rd rs1 rs2
  | .and rd rs1 rs2 => encodeOp 7 0x00 rd rs1 rs2

end Sys2Proof
end

