-- ==== Sys2Proof/Machine/Memory.lean ====
section
/-! DEFINITION. The memory image as plain data (`10_state.md` R30): a list of cells in one canonical form, its byte read
and byte write, and the wider accesses built from them in one place (`20_memory.md` R50 to R54). -/

namespace Sys2Proof.Machine

/-- The memory image: the listed cells; every other address reads `unlistedByte`. -/
abbrev Memory := List Host.Cell

/-- What an address that is not listed reads as: 0x00 (`10_state.md` R36; 92 D10; log entry 4). -/
abbrev unlistedByte : Byte := 0x00#8

/-- The canonical form: addresses strictly rising and inside the 32-bit space, and no cell that says what an unlisted
address says anyway.  Equal memories are then equal lists. -/
abbrev Memory.wf (m : Memory) : Prop :=
  m.Pairwise (fun c d => c.1 < d.1) ∧ ∀ c ∈ m, c.1 < 2 ^ 32 ∧ c.2 ≠ unlistedByte

/-- The byte at an address. -/
def Memory.read : Memory → Nat → Byte
  | [], _ => unlistedByte
  | (k, v) :: m, a => if k = a then v else Memory.read m a

/-- Store a byte, keeping the canonical form. -/
def Memory.write : Memory → Nat → Byte → Memory
  | [], a, b => if b = unlistedByte then [] else [(a, b)]
  | (k, v) :: m, a, b =>
    if a < k then (if b = unlistedByte then (k, v) :: m else (a, b) :: (k, v) :: m)
    else if a = k then (if b = unlistedByte then m else (a, b) :: m)
    else (k, v) :: Memory.write m a b

/-- The width of a data access, 1, 2 or 4 bytes (R54). -/
inductive Width where
  | byte
  | half
  | word
  deriving DecidableEq, Repr

/-- A width in bytes: the n of `00_scope.md` R12. -/
def Width.bytes : Width → Nat
  | .byte => 1
  | .half => 2
  | .word => 4

/-- The address `a + j` modulo 2^32 of the j-th byte of an access (R50). -/
def byteAddr (a : Word) (j : Nat) : Nat := (a + BitVec.ofNat 32 j).toNat

/-- The byte at a word address. -/
def Memory.byteAt (m : Memory) (a : Word) : Byte := m.read a.toNat

/-- `MemRead(a, n)`: the n bytes at a, little-endian, zero-extended (R50). -/
def Memory.load (m : Memory) (width : Width) (a : Word) : Word :=
  match width with
  | .byte => wordOfBytes (m.read (byteAddr a 0)) 0#8 0#8 0#8
  | .half => wordOfBytes (m.read (byteAddr a 0)) (m.read (byteAddr a 1)) 0#8 0#8
  | .word => wordOfBytes (m.read (byteAddr a 0)) (m.read (byteAddr a 1)) (m.read (byteAddr a 2)) (m.read (byteAddr a 3))

/-- `for j in 0..n-1: mem[a + j] <- v[8j+7 : 8j]` (`41_accessors_and_diffs.md` R137). -/
def Memory.storeBytes (m : Memory) (a : Word) (v : Word) : Nat → Memory
  | 0 => m
  | n + 1 => (Memory.storeBytes m a v n).write (byteAddr a n) (byteOf v n)

/-- `MemWrite(a, n, v)`: the low 8n bits of v at a, little-endian (R50). -/
def Memory.store (m : Memory) (width : Width) (a v : Word) : Memory := m.storeBytes a v width.bytes

/-- The words of a list at `a`, `a + 4`, … (`70_reset_and_hazards.md` R350 step 2). -/
def Memory.placeWords (m : Memory) (a : Word) : List Word → Memory
  | [] => m
  | w :: ws => Memory.placeWords (m.store .word a w) (a + ilen) ws

/-- The bytes of a list at `a`, `a + 1`, … (R350 step 3). -/
def Memory.placeBytes (m : Memory) (a : Word) : List Byte → Memory
  | [] => m
  | b :: bs => Memory.placeBytes (m.write a.toNat b) (a + 1) bs

end Sys2Proof.Machine
end

