-- ==== Sys2Proof/Machine/Boot.lean ====
section
/-! DEFINITION. The Program the simulator is built from (`46_assembler_interface.md` R291), the parameter values the spec
suggests, and the register file and memory image that construction leaves (`70_reset_and_hazards.md` R350). -/

namespace Sys2Proof.Machine

/-- The assembler's output (R291). -/
structure Program where
  instructions : List Word
  dataSegment : List Byte
  /-- label and absolute address; keys unique, the last write wins -/
  symbolTable : List (String × Word)
  /-- label and offset, for an external linker; nothing records one (R298) -/
  relocationTable : List (String × Word)
  deriving DecidableEq, Repr

/-- A Program with nothing in it. -/
def Program.empty : Program := ⟨[], [], [], []⟩

/-- The parameter values used where none is given: the suggested bases and the default policy of `00_scope.md` R7,
and for the two parameters R7 gives no value for, the model's own (DESIGN CHOICE, log entries 1 and 2). -/
def suggestedParams : Params where
  textBase := 0x00000000
  staticBase := 0x10000000
  stackBase := 0x7FFFFFF0
  maxCycles := 1000
  invalidPolicy := .fail
  localLabelMark := "_"

/-- Registers after construction (R350 steps 1 and 4): sp = x2 and gp = x3 hold the bases, every other register 0. -/
def initialRegs (p : Params) : Vector Word 32 :=
  ((Vector.replicate 32 (0 : Word)).set 2 p.stackBase).set 3 p.staticBase

/-- Memory after construction (R350 steps 1 to 3): text first, then data. -/
def initialMem (p : Params) (prog : Program) : Memory :=
  (Memory.placeWords [] p.textBase prog.instructions).placeBytes p.staticBase prog.dataSegment

/-- The entry point (R350 step 5, R351). -/
def initialPc (p : Params) : Word := p.textBase

end Sys2Proof.Machine
end

