-- ==== Sys2Proof/Machine/State.lean ====
section
/-! DEFINITION. The state vector (`10_state.md` R20, R21) as plain data, the diffs it keeps
(`41_accessors_and_diffs.md` R139, R140), the reasons a step can stop, and the state after construction (R36, R350). -/

namespace Sys2Proof.Machine

/-- A diff: one mutation of one register, of the pc or of 1, 2 or 4 bytes of memory, with the location's value before
it (pre-diff) or after it (post-diff) (R139). -/
inductive Diff where
  | reg (id : Reg) (value : Word)
  | pc (value : Word)
  | mem (addr : Word) (width : Width) (value : Word)
  deriving DecidableEq, Repr

/-- The diffs recorded by one step, in recording order (R140). -/
abbrev DiffSet := List Diff

/-- What `step()` returns (`40_simulator_step.md` R110): the post-diffs, or the address and word that had no
handler. -/
inductive StepResult where
  | ok (posts : DiffSet)
  | invalid (pc word : Word)
  deriving DecidableEq, Repr

/-- Why a step stops. -/
inductive Fault where
  /-- `Invalid(pc, word)` answered by a step of a machine that is already faulted (R110, R116): `step` raises it, and
  only when `faulted` holds that pc and word.  Nothing changes.  Safe: the spec's own outcome. -/
  | invalidInstruction (pc word : Word)
  deriving DecidableEq, Repr

/-- Why the model gives no next state. -/
inductive Refusal where
  /-- An instruction with no meaning yet; no arm of `exec` answers it.  Safe. -/
  | notModelled (mnemonic : String)
  /-- `load` was given regions that overlap, wrap or hold STACK_BASE, which `70_reset_and_hazards.md` R355 lets a model
  refuse (93 I3).  Safe: no machine is built. -/
  | badConfiguration
  deriving DecidableEq, Repr

/-- The state of one simulator (R20, R21), with two fields of the model's own: `params` (log entry 1) and `result`
(log entry 6). -/
structure State where
  /-- the parameters of `00_scope.md` R7, which no operation changes -/
  params : Params
  /-- x0..x31 (R22); x0 is read through `getReg`, which answers 0 (R23) -/
  regs : Vector Word 32
  /-- the address of the instruction being executed (R28) -/
  pc : Word
  /-- the memory image (R30) -/
  mem : Memory
  /-- steps taken by `run()` (R32) -/
  cycles : Nat
  /-- the stack of pre-diff sets, the most recent first (R33, R140) -/
  history : List DiffSet
  /-- N, the number of instruction words loaded at construction (R34) -/
  numInstrs : Nat
  /-- the pc and word of the invalid instruction that stopped the machine (R20, R116) -/
  faulted : Option (Word × Word)
  /-- pre-diffs recorded so far in this step (R21, R131); empty between steps (log entry 7) -/
  preList : DiffSet
  /-- post-diffs recorded so far in this step (R21, R131); empty between steps (log entry 7) -/
  postList : DiffSet
  /-- what the latest `step()` returned; none before the first step -/
  result : Option StepResult
  deriving DecidableEq, Repr

/-- Construction from a Program and the parameters (`70_reset_and_hazards.md` R350), the only reset (R351). -/
def State.construct (p : Params) (prog : Program) : State where
  params := p
  regs := initialRegs p
  pc := initialPc p
  mem := initialMem p prog
  cycles := 0
  history := []
  numInstrs := prog.instructions.length
  faulted := none
  preList := []
  postList := []
  result := none

/-- The machine right after reset: construction with the suggested parameters and an empty Program (log entries 1, 2
and 10). -/
def State.reset : State := State.construct suggestedParams Program.empty

end Sys2Proof.Machine
end

