-- ==== Sys2Proof/Machine/Ops.lean ====
section
/-! DEFINITION. The accessor surface (`41_accessors_and_diffs.md` R130 to R137), through which alone handlers read and
write the state, the frame of a step around its handler (`40_simulator_step.md` R111), the fetch (R110), and the one
execution-time failure (R113): this machine's only exception.  It saves the pc and the word in `faulted`, changes no
mode and transfers control nowhere, and nothing returns from it (`60_exceptions.md` R334, R335). -/

namespace Sys2Proof.Machine

/-! ### Reading accessors (R130, R136) -/

/-- `getReg(i)`: x0 reads 0 in every state (`10_state.md` R23). -/
def State.getReg (s : State) (i : Reg) : Word := if i = 0 then 0 else s.regs[i]

/-- `getPC()` -/
def State.getPC (s : State) : Word := s.pc

/-- `MemRead(a, n)` on the machine's memory (R136). -/
def State.load (s : State) (width : Width) (a : Word) : Word := s.mem.load width a

/-- `loadByte(a)` -/
def State.loadByte (s : State) (a : Word) : Word := s.load .byte a
/-- `loadHalfWord(a)` -/
def State.loadHalfWord (s : State) (a : Word) : Word := s.load .half a
/-- `loadWord(a)` -/
def State.loadWord (s : State) (a : Word) : Word := s.load .word a

/-- One byte of memory, as an observer reads it. -/
def State.byteAt (s : State) (a : Word) : Byte := s.mem.byteAt a

/-! ### Writing accessors (R131, R132, R134, R135, R137): pre-diff, write, post-diff -/

/-- Append a pre-diff. -/
def State.recordPre (s : State) (d : Diff) : State := { s with preList := s.preList ++ [d] }
/-- Append a post-diff. -/
def State.recordPost (s : State) (d : Diff) : State := { s with postList := s.postList ++ [d] }

/-- The register file's write without a record: x0 ignores it (`10_state.md` R23). -/
def State.putReg (s : State) (i : Reg) (v : Word) : State :=
  { s with regs := if i = 0 then s.regs else s.regs.set i.val v i.isLt }
/-- The pc's write without a record. -/
def State.putPC (s : State) (v : Word) : State := { s with pc := v }
/-- The memory's write without a record. -/
def State.putMem (s : State) (width : Width) (a v : Word) : State := { s with mem := s.mem.store width a v }

/-- `setReg(i, v)` (R132); a write to x0 is recorded too (R133). -/
def State.setReg (s : State) (i : Reg) (v : Word) : State :=
  let t := (s.recordPre (.reg i (s.getReg i))).putReg i v
  t.recordPost (.reg i (t.getReg i))

/-- `setPC(v)` (R134). -/
def State.setPC (s : State) (v : Word) : State :=
  let t := (s.recordPre (.pc s.getPC)).putPC v
  t.recordPost (.pc t.getPC)

/-- `incrementPC(d)` (R135). -/
def State.incrementPC (s : State) (d : Word) : State := s.setPC (s.getPC + d)

/-- `store_n(a, v)` (R137). -/
def State.store (s : State) (width : Width) (a v : Word) : State :=
  let t := (s.recordPre (.mem a width (s.load width a))).putMem width a v
  t.recordPost (.mem a width (t.load width a))

/-- `storeByte(a, v)` -/
def State.storeByte (s : State) (a v : Word) : State := s.store .byte a v
/-- `storeHalfWord(a, v)` -/
def State.storeHalfWord (s : State) (a v : Word) : State := s.store .half a v
/-- `storeWord(a, v)` -/
def State.storeWord (s : State) (a v : Word) : State := s.store .word a v

/-! ### The frame of a step (R111) -/

/-- Both lists start empty (R111 step 1). -/
def State.beginStep (s : State) : State := { s with preList := [], postList := [] }

/-- After the handler has completed, the pre-diffs are pushed as one set and the post-diffs are the step's result (R111
steps 3 and 4); the lists are consumed (`10_state.md` R21). -/
def State.endStep (s : State) : State :=
  { s with history := s.preList :: s.history, result := some (.ok s.postList), preList := [], postList := [] }

/-- The word at the pc, little-endian, at any alignment, with no diff (R110, `20_memory.md` R53). -/
def State.fetchWord (s : State) : Word := s.loadWord s.getPC

/-! ### The one execution-time failure (R113, R114; `60_exceptions.md` R331, R334) -/

/-- A word with no handler: under `fail` the machine records its address and the word and returns `Invalid`; under `skip`
an empty diff set is pushed and nothing else changes. -/
def State.noHandler (s : State) (a w : Word) : State :=
  match s.params.invalidPolicy with
  | .fail => { s with faulted := some (a, w), result := some (.invalid a w) }
  | .skip => { s with history := [] :: s.history, result := some (.ok []) }

end Sys2Proof.Machine
end

