-- ==== Sys2Proof/Machine/Flags.lean ====
section
/-! DEFINITION. The machine has no flags, no condition codes and no predicate registers (`10_state.md` R27), so no
instruction computes a flag.  This file holds the comparisons that other machines would make from flags: the conditions
of the branches (`43_control_transfer.md` R202 to R207) and of the set-less-than instructions (`42_integer.md` R163,
R164, R174, R175). -/

namespace Sys2Proof.Machine

/-- `<s` (`00_scope.md` R10): two's-complement integers. -/
def ltSigned (x y : Word) : Bool := decide (x.toInt < y.toInt)

/-- `<u` (R10): unsigned integers. -/
def ltUnsigned (x y : Word) : Bool := decide (x.toNat < y.toNat)

/-- `b ? 1 : 0` as a word. -/
def oneIf (b : Bool) : Word := if b then 1 else 0

end Sys2Proof.Machine
end

