-- ==== Sys2Proof/Machine/Operands.lean ====
section
/-! DEFINITION. The operand forms and the shapes of handler the instruction rules share: a register result, a jump
with a link, a branch, a load and a store.  In each shape the operands are read from the state the handler is given,
before it writes, and the pc is written last (`00_scope.md` R14, 92 D17). -/

namespace Sys2Proof.Machine

/-- The next state of a completed handler (`40_simulator_step.md` R111). -/
def completed (s : State) : Host.Outcome State Fault Refusal := .next s.endStep

/-- Base plus displacement, modulo 2^32: the only addressing mode (`44_load_store.md`, common part). -/
def effectiveAddr (s : State) (rs1 : Reg) (imm : BitVec 12) : Word := s.getReg rs1 + signExt imm

/-- The amount of a register shift: `x[rs2][4:0]` (`30_encoding.md` R84). -/
def shiftAmount (v : Word) : Nat := (v.extractLsb' 0 5).toNat

/-- The target of JALR: bit 0 of the sum cleared (`43_control_transfer.md` R201). -/
def jalrTarget (s : State) (rs1 : Reg) (imm : BitVec 12) : Word := (s.getReg rs1 + signExt imm) &&& 0xFFFFFFFE#32

/-- `sext_8` of the low byte (R220). -/
def sext8 (v : Word) : Word := (v.extractLsb' 0 8).signExtend 32
/-- `sext_16` of the low halfword (R221). -/
def sext16 (v : Word) : Word := (v.extractLsb' 0 16).signExtend 32

/-- `x[rd] <- v; pc <- pc + 4`: every integer instruction (`42_integer.md`). -/
def writeResult (rd : Reg) (v : Word) (s : State) : Host.Outcome State Fault Refusal :=
  completed ((s.beginStep.setReg rd v).incrementPC ilen)

/-- `x[rd] <- pc + 4; pc <- t`: the link is the instruction's own address + 4 (`43_control_transfer.md` R208). -/
def linkAndJump (rd : Reg) (target : Word) (s : State) : Host.Outcome State Fault Refusal :=
  completed ((s.beginStep.setReg rd (s.getPC + ilen)).setPC target)

/-- `if cond then pc <- pc + immB else pc <- pc + 4` (`43_control_transfer.md` section 2). -/
def branchIf (cond : Bool) (off : BitVec 13) (s : State) : Host.Outcome State Fault Refusal :=
  completed (s.beginStep.incrementPC (if cond then signExt off else ilen))

/-- The shape of a load (`44_load_store.md` section 1): `ext` is what the rule does to the zero-extended value. -/
def loadInto (width : Width) (ext : Word → Word) (rd rs1 : Reg) (imm : BitVec 12) (s : State) :
    Host.Outcome State Fault Refusal :=
  writeResult rd (ext (s.load width (effectiveAddr s rs1 imm))) s

/-- The shape of a store (`44_load_store.md` section 2). -/
def storeFrom (width : Width) (rs1 rs2 : Reg) (imm : BitVec 12) (s : State) : Host.Outcome State Fault Refusal :=
  completed ((s.beginStep.store width (effectiveAddr s rs1 imm) (s.getReg rs2)).incrementPC ilen)

end Sys2Proof.Machine
end

