-- ==== Sys2Proof/Machine/ControlTransfer.lean ====
section
/-! DEFINITION. The control transfer instructions, `43_control_transfer.md` R200 to R207.  No target faults, there is no delay slot
and targets wrap modulo 2^32. -/

namespace Sys2Proof.Machine

/-- R200: `pc <- pc + immJ(w)`. -/
def execJal (rd : Reg) (off : BitVec 21) (s : State) : Host.Outcome State Fault Refusal :=
  linkAndJump rd (s.getPC + signExt off) s

/-- R201: rs1 is read before rd is written. -/
def execJalr (rd rs1 : Reg) (imm : BitVec 12) (s : State) : Host.Outcome State Fault Refusal :=
  linkAndJump rd (jalrTarget s rs1 imm) s

/-- R202 -/
def execBeq (rs1 rs2 : Reg) (off : BitVec 13) (s : State) : Host.Outcome State Fault Refusal :=
  branchIf (s.getReg rs1 == s.getReg rs2) off s

/-- R203 -/
def execBne (rs1 rs2 : Reg) (off : BitVec 13) (s : State) : Host.Outcome State Fault Refusal :=
  branchIf (s.getReg rs1 != s.getReg rs2) off s

/-- R204 -/
def execBlt (rs1 rs2 : Reg) (off : BitVec 13) (s : State) : Host.Outcome State Fault Refusal :=
  branchIf (ltSigned (s.getReg rs1) (s.getReg rs2)) off s

/-- R205 -/
def execBge (rs1 rs2 : Reg) (off : BitVec 13) (s : State) : Host.Outcome State Fault Refusal :=
  branchIf (!ltSigned (s.getReg rs1) (s.getReg rs2)) off s

/-- R206 -/
def execBltu (rs1 rs2 : Reg) (off : BitVec 13) (s : State) : Host.Outcome State Fault Refusal :=
  branchIf (ltUnsigned (s.getReg rs1) (s.getReg rs2)) off s

/-- R207 -/
def execBgeu (rs1 rs2 : Reg) (off : BitVec 13) (s : State) : Host.Outcome State Fault Refusal :=
  branchIf (!ltUnsigned (s.getReg rs1) (s.getReg rs2)) off s

end Sys2Proof.Machine
end

