-- ==== Sys2Proof/Machine/Integer.lean ====
section
/-! DEFINITION. The integer computational instructions, `42_integer.md` R160 to R180, in the order of the rules.  Arithmetic is modulo
2^32 and nothing traps (R181); every immediate is sign-extended before use (R182). -/

namespace Sys2Proof.Machine

/-- R160 -/
def execLui (rd : Reg) (imm : BitVec 20) (s : State) : Host.Outcome State Fault Refusal :=
  writeResult rd (upper imm) s

/-- R161: the pc is the address of this AUIPC. -/
def execAuipc (rd : Reg) (imm : BitVec 20) (s : State) : Host.Outcome State Fault Refusal :=
  writeResult rd (s.getPC + upper imm) s

/-- R162 -/
def execAddi (rd rs1 : Reg) (imm : BitVec 12) (s : State) : Host.Outcome State Fault Refusal :=
  writeResult rd (s.getReg rs1 + signExt imm) s

/-- R163 -/
def execSlti (rd rs1 : Reg) (imm : BitVec 12) (s : State) : Host.Outcome State Fault Refusal :=
  writeResult rd (oneIf (ltSigned (s.getReg rs1) (signExt imm))) s

/-- R164: the immediate is sign-extended first, then compared unsigned. -/
def execSltiu (rd rs1 : Reg) (imm : BitVec 12) (s : State) : Host.Outcome State Fault Refusal :=
  writeResult rd (oneIf (ltUnsigned (s.getReg rs1) (signExt imm))) s

/-- R165 -/
def execXori (rd rs1 : Reg) (imm : BitVec 12) (s : State) : Host.Outcome State Fault Refusal :=
  writeResult rd (s.getReg rs1 ^^^ signExt imm) s

/-- R166 -/
def execOri (rd rs1 : Reg) (imm : BitVec 12) (s : State) : Host.Outcome State Fault Refusal :=
  writeResult rd (s.getReg rs1 ||| signExt imm) s

/-- R167 -/
def execAndi (rd rs1 : Reg) (imm : BitVec 12) (s : State) : Host.Outcome State Fault Refusal :=
  writeResult rd (s.getReg rs1 &&& signExt imm) s

/-- R168 -/
def execSlli (rd rs1 : Reg) (shamt : BitVec 5) (s : State) : Host.Outcome State Fault Refusal :=
  writeResult rd (s.getReg rs1 <<< shamt.toNat) s

/-- R169 -/
def execSrli (rd rs1 : Reg) (shamt : BitVec 5) (s : State) : Host.Outcome State Fault Refusal :=
  writeResult rd (s.getReg rs1 >>> shamt.toNat) s

/-- R170 -/
def execSrai (rd rs1 : Reg) (shamt : BitVec 5) (s : State) : Host.Outcome State Fault Refusal :=
  writeResult rd ((s.getReg rs1).sshiftRight shamt.toNat) s

/-- R171 -/
def execAdd (rd rs1 rs2 : Reg) (s : State) : Host.Outcome State Fault Refusal :=
  writeResult rd (s.getReg rs1 + s.getReg rs2) s

/-- R172 -/
def execSub (rd rs1 rs2 : Reg) (s : State) : Host.Outcome State Fault Refusal :=
  writeResult rd (s.getReg rs1 - s.getReg rs2) s

/-- R173 -/
def execSll (rd rs1 rs2 : Reg) (s : State) : Host.Outcome State Fault Refusal :=
  writeResult rd (s.getReg rs1 <<< shiftAmount (s.getReg rs2)) s

/-- R174 -/
def execSlt (rd rs1 rs2 : Reg) (s : State) : Host.Outcome State Fault Refusal :=
  writeResult rd (oneIf (ltSigned (s.getReg rs1) (s.getReg rs2))) s

/-- R175 -/
def execSltu (rd rs1 rs2 : Reg) (s : State) : Host.Outcome State Fault Refusal :=
  writeResult rd (oneIf (ltUnsigned (s.getReg rs1) (s.getReg rs2))) s

/-- R176 -/
def execXor (rd rs1 rs2 : Reg) (s : State) : Host.Outcome State Fault Refusal :=
  writeResult rd (s.getReg rs1 ^^^ s.getReg rs2) s

/-- R177 -/
def execSrl (rd rs1 rs2 : Reg) (s : State) : Host.Outcome State Fault Refusal :=
  writeResult rd (s.getReg rs1 >>> shiftAmount (s.getReg rs2)) s

/-- R178 -/
def execSra (rd rs1 rs2 : Reg) (s : State) : Host.Outcome State Fault Refusal :=
  writeResult rd ((s.getReg rs1).sshiftRight (shiftAmount (s.getReg rs2))) s

/-- R179 -/
def execOr (rd rs1 rs2 : Reg) (s : State) : Host.Outcome State Fault Refusal :=
  writeResult rd (s.getReg rs1 ||| s.getReg rs2) s

/-- R180 -/
def execAnd (rd rs1 rs2 : Reg) (s : State) : Host.Outcome State Fault Refusal :=
  writeResult rd (s.getReg rs1 &&& s.getReg rs2) s

end Sys2Proof.Machine
end

