-- ==== Sys2Proof/Machine/Step.lean ====
section
/-! DEFINITION. One call of `step()` (`40_simulator_step.md` R110). -/

namespace Sys2Proof.Machine

/-- `step()` (R110): a faulted machine answers `Invalid` again and changes nothing (R116); otherwise the word at the pc is
fetched and decoded, and its handler runs (R111) or the word has none (R113).  `isDone` is not tested and `cycles` is
not touched (R120). -/
def step (s : State) : Host.Outcome State Fault Refusal :=
  match s.faulted with
  | some (a, w) => .fault (.invalidInstruction a w)
  | none =>
    match decode s.fetchWord with
    | .handler i => exec i s
    | .noHandler w => .next (s.noHandler s.getPC w)

/-- The state with an instruction of `nbits` bits, numbered as the opcode table numbers them, stored where `step` fetches
next (the four bytes at the pc, the bits above `nbits` 0), and not faulted, since a faulted machine does not fetch. -/
def State.withFetchWord (s : State) (nbits w : Nat) : State :=
  { s with mem := s.mem.store .word s.getPC (BitVec.ofNat 32 (w % 2 ^ nbits)), faulted := none }

end Sys2Proof.Machine
end

