-- ==== Sys2Proof/Machine/Encoder.lean ====
section
/-! DEFINITION. The RV32 instruction encoder over assembler tokens (`45_encoder.md`): operand parsing, range checks, label
targets and the real-instruction table.  The packing of the fields is `encode` in `Decode.lean`. -/

namespace Sys2Proof.Machine

/-- The kinds of assembly-time error (`60_exceptions.md` R332). -/
inductive AsmErrorKind where
  | unknownDirective
  | missingString
  | nonAsciiString
  | noSuchInstruction
  | wrongOperandCount
  | badRegister
  | badImmediate
  | immediateOutOfRange
  | misalignedOffset
  | undefinedLabel
  deriving DecidableEq, Repr

/-- An error before its line is known: the kind and the offending token (R332). -/
structure AsmFailure where
  kind : AsmErrorKind
  token : String
  deriving DecidableEq, Repr

/-- The encoder's context (R240). -/
structure EncodeCtx where
  /-- the address of this instruction -/
  addr : Word
  /-- the symbol table after pass 1 -/
  symbols : String → Option Word

/-! ### Register operands (R249, `10_state.md` R25) -/

/-- x0..x15 -/
def xNamesLow : List (String × Reg) :=
  [("x0", 0), ("x1", 1), ("x2", 2), ("x3", 3), ("x4", 4), ("x5", 5), ("x6", 6), ("x7", 7), ("x8", 8), ("x9", 9),
   ("x10", 10), ("x11", 11), ("x12", 12), ("x13", 13), ("x14", 14), ("x15", 15)]
/-- x16..x31 -/
def xNamesHigh : List (String × Reg) :=
  [("x16", 16), ("x17", 17), ("x18", 18), ("x19", 19), ("x20", 20), ("x21", 21), ("x22", 22), ("x23", 23),
   ("x24", 24), ("x25", 25), ("x26", 26), ("x27", 27), ("x28", 28), ("x29", 29), ("x30", 30), ("x31", 31)]
/-- ABI names of x0..x15 -/
def abiNamesLow : List (String × Reg) :=
  [("zero", 0), ("ra", 1), ("sp", 2), ("gp", 3), ("tp", 4), ("t0", 5), ("t1", 6), ("t2", 7), ("s0", 8), ("fp", 8),
   ("s1", 9), ("a0", 10), ("a1", 11), ("a2", 12), ("a3", 13), ("a4", 14), ("a5", 15)]
/-- ABI names of x16..x31 -/
def abiNamesHigh : List (String × Reg) :=
  [("a6", 16), ("a7", 17), ("s2", 18), ("s3", 19), ("s4", 20), ("s5", 21), ("s6", 22), ("s7", 23), ("s8", 24),
   ("s9", 25), ("s10", 26), ("s11", 27), ("t3", 28), ("t4", 29), ("t5", 30), ("t6", 31)]
/-- The register names, case-sensitive and lower-case (R25). -/
def regNames : List (String × Reg) := xNamesLow ++ xNamesHigh ++ abiNamesLow ++ abiNamesHigh

/-- A register operand (R249). -/
def parseReg (tok : String) : Except AsmFailure Reg :=
  match regNames.lookup tok with
  | some r => .ok r
  | none => .error ⟨.badRegister, tok⟩

/-! ### Immediate operands (R250) -/

/-- The value of a digit in a base of at most 16. -/
def digitValue (c : Char) : Option Nat :=
  if '0'.toNat ≤ c.toNat ∧ c.toNat ≤ '9'.toNat then some (c.toNat - '0'.toNat)
  else if 'a'.toNat ≤ c.toNat ∧ c.toNat ≤ 'f'.toNat then some (c.toNat - 'a'.toNat + 10)
  else if 'A'.toNat ≤ c.toNat ∧ c.toNat ≤ 'F'.toNat then some (c.toNat - 'A'.toNat + 10)
  else none

/-- Digits read onto a value already read. -/
def readDigits (base : Nat) : List Char → Nat → Option Nat
  | [], n => some n
  | c :: cs, n =>
    match digitValue c with
    | some d => if d < base then readDigits base cs (base * n + d) else none
    | none => none

/-- One digit or more. -/
def readNumber (base : Nat) : List Char → Option Nat
  | [] => none
  | c :: cs => readDigits base (c :: cs) 0

/-- `0[xX][0-9a-fA-F]+ | 0[bB][01]+ | [0-9]+` (R250). -/
def readUnsigned : List Char → Option Nat
  | '0' :: 'x' :: cs => readNumber 16 cs
  | '0' :: 'X' :: cs => readNumber 16 cs
  | '0' :: 'b' :: cs => readNumber 2 cs
  | '0' :: 'B' :: cs => readNumber 2 cs
  | cs => readNumber 10 cs

/-- `[+-]?` before an unsigned literal; the value is the integer written (R250). -/
def readLiteral : List Char → Option Int
  | '-' :: cs => (readUnsigned cs).map (fun n => -(n : Int))
  | '+' :: cs => (readUnsigned cs).map (fun n => (n : Int))
  | cs => (readUnsigned cs).map (fun n => (n : Int))

/-- The value of an integer literal token, if it is one. -/
def literal (tok : String) : Option Int := readLiteral tok.toList

/-- An immediate operand (R250). -/
def parseImm (tok : String) : Except AsmFailure Int :=
  match literal tok with
  | some v => .ok v
  | none => .error ⟨.badImmediate, tok⟩

/-- A value checked against its range and packed at its width; never truncated (R251). -/
def immField (n : Nat) (lo hi : Int) (tok : String) (v : Int) : Except AsmFailure (BitVec n) :=
  if lo ≤ v ∧ v ≤ hi then .ok (BitVec.ofInt n v) else .error ⟨.immediateOutOfRange, tok⟩

/-- imm12 -/
def imm12Field (tok : String) (v : Int) : Except AsmFailure (BitVec 12) := immField 12 (-2048) 2047 tok v
/-- shamt -/
def shamtField (tok : String) (v : Int) : Except AsmFailure (BitVec 5) := immField 5 0 31 tok v
/-- imm20 -/
def imm20Field (tok : String) (v : Int) : Except AsmFailure (BitVec 20) := immField 20 0 1048575 tok v

/-- A branch or jump offset: range, then evenness (R251, R260). -/
def offsetField (n : Nat) (lo hi : Int) (tok : String) (v : Int) : Except AsmFailure (BitVec n) :=
  match immField n lo hi tok v with
  | .error e => .error e
  | .ok off => if v % 2 = 0 then .ok off else .error ⟨.misalignedOffset, tok⟩

/-- The target of a branch or jump as an offset from the instruction's own address: a label before a literal (R256). -/
def resolveTarget (tok : String) (ctx : EncodeCtx) : Except AsmFailure Int :=
  match ctx.symbols tok with
  | some a => .ok ((a.toNat : Int) - (ctx.addr.toNat : Int))
  | none =>
    match literal tok with
    | some v => .ok v
    | none => .error ⟨.undefinedLabel, tok⟩

/-! ### Operand forms (R253 to R258) and the real-instruction table (R259) -/

/-- The operand tokens a mnemonic takes, in their order, with the instruction they make. -/
inductive RealForm where
  /-- `rd, imm20` (R255) -/
  | rdImm20 (mk : Reg → BitVec 20 → Instr)
  /-- `rd, target` (R256) -/
  | rdTarget (mk : Reg → BitVec 21 → Instr)
  /-- `rs1, rs2, target` (R256) -/
  | rs1Rs2Target (mk : Reg → Reg → BitVec 13 → Instr)
  /-- `rd, rs1, imm12` (R254) -/
  | rdRs1Imm12 (mk : Reg → Reg → BitVec 12 → Instr)
  /-- `rd, rs1, shamt` (R254) -/
  | rdRs1Shamt (mk : Reg → Reg → BitVec 5 → Instr)
  /-- `rd, imm12, rs1` (R257) -/
  | rdImm12Rs1 (mk : Reg → Reg → BitVec 12 → Instr)
  /-- `rs2, imm12, rs1` (R258); the instruction takes rs1 first -/
  | rs2Imm12Rs1 (mk : Reg → Reg → BitVec 12 → Instr)
  /-- `rd, rs1, rs2` (R253) -/
  | rdRs1Rs2 (mk : Reg → Reg → Reg → Instr)

/-- U, J and B rows, and JALR. -/
def realControl : List (String × RealForm) :=
  [("lui", .rdImm20 .lui), ("auipc", .rdImm20 .auipc), ("jal", .rdTarget .jal), ("jalr", .rdRs1Imm12 .jalr),
   ("beq", .rs1Rs2Target .beq), ("bne", .rs1Rs2Target .bne), ("blt", .rs1Rs2Target .blt),
   ("bge", .rs1Rs2Target .bge), ("bltu", .rs1Rs2Target .bltu), ("bgeu", .rs1Rs2Target .bgeu)]
/-- Loads and stores. -/
def realMemory : List (String × RealForm) :=
  [("lb", .rdImm12Rs1 .lb), ("lh", .rdImm12Rs1 .lh), ("lw", .rdImm12Rs1 .lw), ("lbu", .rdImm12Rs1 .lbu),
   ("lhu", .rdImm12Rs1 .lhu), ("sb", .rs2Imm12Rs1 .sb), ("sh", .rs2Imm12Rs1 .sh), ("sw", .rs2Imm12Rs1 .sw)]
/-- OP-IMM. -/
def realOpImm : List (String × RealForm) :=
  [("addi", .rdRs1Imm12 .addi), ("slti", .rdRs1Imm12 .slti), ("sltiu", .rdRs1Imm12 .sltiu),
   ("xori", .rdRs1Imm12 .xori), ("ori", .rdRs1Imm12 .ori), ("andi", .rdRs1Imm12 .andi),
   ("slli", .rdRs1Shamt .slli), ("srli", .rdRs1Shamt .srli), ("srai", .rdRs1Shamt .srai)]
/-- OP. -/
def realOp : List (String × RealForm) :=
  [("add", .rdRs1Rs2 .add), ("sub", .rdRs1Rs2 .sub), ("sll", .rdRs1Rs2 .sll), ("slt", .rdRs1Rs2 .slt),
   ("sltu", .rdRs1Rs2 .sltu), ("xor", .rdRs1Rs2 .xor), ("srl", .rdRs1Rs2 .srl), ("sra", .rdRs1Rs2 .sra),
   ("or", .rdRs1Rs2 .or), ("and", .rdRs1Rs2 .and)]
/-- The real-instruction table: 37 lower-case mnemonics (R241, R259). -/
def realTable : List (String × RealForm) := realControl ++ realMemory ++ realOpImm ++ realOp

/-- The lower-case spelling of a name: its key in the real-instruction table (R259). -/
def mnemonicName : Mnemonic → String
  | .lui => "lui"
  | .auipc => "auipc"
  | .jal => "jal"
  | .jalr => "jalr"
  | .beq => "beq"
  | .bne => "bne"
  | .blt => "blt"
  | .bge => "bge"
  | .bltu => "bltu"
  | .bgeu => "bgeu"
  | .lb => "lb"
  | .lh => "lh"
  | .lw => "lw"
  | .lbu => "lbu"
  | .lhu => "lhu"
  | .sb => "sb"
  | .sh => "sh"
  | .sw => "sw"
  | .addi => "addi"
  | .slti => "slti"
  | .sltiu => "sltiu"
  | .xori => "xori"
  | .ori => "ori"
  | .andi => "andi"
  | .slli => "slli"
  | .srli => "srli"
  | .srai => "srai"
  | .add => "add"
  | .sub => "sub"
  | .sll => "sll"
  | .slt => "slt"
  | .sltu => "sltu"
  | .xor => "xor"
  | .srl => "srl"
  | .sra => "sra"
  | .or => "or"
  | .and => "and"

/-- ASCII lower case: mnemonics are case-insensitive (R241, 92 D29). -/
def lowerCase (tok : String) : String := String.ofList (tok.toList.map Char.toLower)

/-- The instruction that operand tokens of a form make: count, then each operand left to right, then the ranges (R252,
R260).  `m` is the mnemonic's token, named when the count is wrong. -/
def RealForm.build (m : String) (ctx : EncodeCtx) : RealForm → List String → Except AsmFailure Instr
  | .rdImm20 mk, [rd, imm] => do
    let d ← parseReg rd
    let v ← parseImm imm
    let f ← imm20Field imm v
    return mk d f
  | .rdTarget mk, [rd, target] => do
    let d ← parseReg rd
    let v ← resolveTarget target ctx
    let f ← offsetField 21 (-1048576) 1048574 target v
    return mk d f
  | .rs1Rs2Target mk, [rs1, rs2, target] => do
    let a ← parseReg rs1
    let b ← parseReg rs2
    let v ← resolveTarget target ctx
    let f ← offsetField 13 (-4096) 4094 target v
    return mk a b f
  | .rdRs1Imm12 mk, [rd, rs1, imm] => do
    let d ← parseReg rd
    let a ← parseReg rs1
    let v ← parseImm imm
    let f ← imm12Field imm v
    return mk d a f
  | .rdRs1Shamt mk, [rd, rs1, shamt] => do
    let d ← parseReg rd
    let a ← parseReg rs1
    let v ← parseImm shamt
    let f ← shamtField shamt v
    return mk d a f
  | .rdImm12Rs1 mk, [rd, imm, rs1] => do
    let d ← parseReg rd
    let v ← parseImm imm
    let a ← parseReg rs1
    let f ← imm12Field imm v
    return mk d a f
  | .rs2Imm12Rs1 mk, [rs2, imm, rs1] => do
    let b ← parseReg rs2
    let v ← parseImm imm
    let a ← parseReg rs1
    let f ← imm12Field imm v
    return mk a b f
  | .rdRs1Rs2 mk, [rd, rs1, rs2] => do
    let d ← parseReg rd
    let a ← parseReg rs1
    let b ← parseReg rs2
    return mk d a b
  | _, _ => .error ⟨.wrongOperandCount, m⟩

/-- The instruction that a mnemonic and its operand tokens name (R240, R241). -/
def assembleInstr (m : String) (operands : List String) (ctx : EncodeCtx) : Except AsmFailure Instr :=
  match realTable.lookup (lowerCase m) with
  | some form => form.build m ctx operands
  | none => .error ⟨.noSuchInstruction, m⟩

/-- `encode(mnemonic, operands, ctx)` (R240): the instruction's word or the first failure. -/
def encodeLine (m : String) (operands : List String) (ctx : EncodeCtx) : Except AsmFailure Word :=
  match assembleInstr m operands ctx with
  | .ok i => .ok (encode i)
  | .error e => .error e

end Sys2Proof.Machine
end

