-- ==== Sys2Proof/Machine/Assembler.lean ====
section
/-! DEFINITION. The two-pass assembler (`46_assembler_interface.md`) over the lexer's lines: directives, labels, the
pseudo-instruction table, and the Program that the simulator is built from. -/

namespace Sys2Proof.Machine

/-- What the lexer yields for one source line (R290): the label without its colon, the tokens, and the character codes
of the line's quoted string literal if it has one. -/
structure Line where
  label : Option String
  tokens : List String
  quoted : Option (List Nat)
  deriving DecidableEq, Repr

/-- An assembly-time error with its line, counted from 1, and the offending token (`60_exceptions.md` R332). -/
structure AssemblyError where
  kind : AsmErrorKind
  line : Nat
  token : String
  deriving DecidableEq, Repr

/-- The failure of one line. -/
def AsmFailure.atLine (e : AsmFailure) (n : Nat) : AssemblyError := ⟨e.kind, n, e.token⟩

/-! ### The Program's mutators (R291) -/

/-- A symbol table with one more write: keys stay unique and the last write for a label wins (R291). -/
def insertLabel : List (String × Word) → String → Word → List (String × Word)
  | [], name, a => [(name, a)]
  | (k, b) :: rest, name, a => if k = name then (k, a) :: rest else (k, b) :: insertLabel rest name a

/-- `addLabel(name, address)` -/
def Program.addLabel (prog : Program) (name : String) (a : Word) : Program :=
  { prog with symbolTable := insertLabel prog.symbolTable name a }
/-- `addRelocation(name, offset)`: part of the Program's interface; the assembler never calls it (R298). -/
def Program.addRelocation (prog : Program) (name : String) (off : Word) : Program :=
  { prog with relocationTable := prog.relocationTable ++ [(name, off)] }
/-- `addToData(byte)` -/
def Program.addToData (prog : Program) (b : Byte) : Program := { prog with dataSegment := prog.dataSegment ++ [b] }
/-- Instruction append. -/
def Program.addInstruction (prog : Program) (w : Word) : Program :=
  { prog with instructions := prog.instructions ++ [w] }
/-- The symbol table as the encoder reads it (`45_encoder.md` R240). -/
def Program.symbols (prog : Program) (name : String) : Option Word := prog.symbolTable.lookup name

/-! ### The pseudo-instruction table (R301 to R303) -/

/-- An expansion: the real-instruction token lists, or `none` where the operands do not fit (R301). -/
abbrev Expansion := List String → Option (List (List String))

/-- A pseudo-instruction of no operand. -/
def expand0 (e : List String) : Expansion
  | [] => some [e]
  | _ => none
/-- A pseudo-instruction of one operand. -/
def expand1 (e : String → List String) : Expansion
  | [a] => some [e a]
  | _ => none
/-- A pseudo-instruction of two operands. -/
def expand2 (e : String → String → List String) : Expansion
  | [a, b] => some [e a b]
  | _ => none
/-- A pseudo-instruction of three operands. -/
def expand3 (e : String → String → String → List String) : Expansion
  | [a, b, c] => some [e a b c]
  | _ => none

/-- The decimal digits of a number, least significant last; `fuel` digits at most. -/
def decDigits : Nat → Nat → List Char
  | 0, _ => []
  | fuel + 1, n =>
    if n < 10 then [Char.ofNat ('0'.toNat + n)]
    else decDigits fuel (n / 10) ++ [Char.ofNat ('0'.toNat + n % 10)]

/-- `dec(n)`: the decimal literal of n (R303), for numbers of at most 10 digits. -/
def dec (n : Int) : String :=
  if n < 0 then String.ofList ('-' :: decDigits 10 n.natAbs) else String.ofList (decDigits 10 n.natAbs)

/-- `lo` of R303: the low 12 bits, sign-extended. -/
def liLo (u : Word) : Int := (u.extractLsb' 0 12).toInt
/-- `hi` of R303. -/
def liHi (u : Word) : Nat := (u - BitVec.ofInt 32 (liLo u)).toNat >>> 12

/-- `li` always expands to two instructions (R303). -/
def expandLi : Expansion
  | [rd, tok] =>
    match literal tok with
    | none => none
    | some v =>
      if -(2 ^ 31) ≤ v ∧ v ≤ 2 ^ 32 - 1 then
        let u : Word := BitVec.ofInt 32 v
        some [["lui", rd, dec (liHi u)], ["addi", rd, rd, dec (liLo u)]]
      else none
  | _ => none

/-- Computational pseudo-instructions (R302). -/
def pseudoInteger : List (String × Expansion) :=
  [("nop", expand0 ["addi", "x0", "x0", "0"]),
   ("mv", expand2 fun rd rs => ["addi", rd, rs, "0"]),
   ("not", expand2 fun rd rs => ["xori", rd, rs, "-1"]),
   ("neg", expand2 fun rd rs => ["sub", rd, "x0", rs]),
   ("seqz", expand2 fun rd rs => ["sltiu", rd, rs, "1"]),
   ("snez", expand2 fun rd rs => ["sltu", rd, "x0", rs]),
   ("sltz", expand2 fun rd rs => ["slt", rd, rs, "x0"]),
   ("sgtz", expand2 fun rd rs => ["slt", rd, "x0", rs]),
   ("li", expandLi)]
/-- Jump pseudo-instructions (R302). -/
def pseudoJump : List (String × Expansion) :=
  [("j", expand1 fun t => ["jal", "x0", t]),
   ("jal", expand1 fun t => ["jal", "ra", t]),
   ("jr", expand1 fun rs => ["jalr", "x0", rs, "0"]),
   ("jalr", expand1 fun rs => ["jalr", "ra", rs, "0"]),
   ("ret", expand0 ["jalr", "x0", "ra", "0"])]
/-- Branch pseudo-instructions (R302). -/
def pseudoBranch : List (String × Expansion) :=
  [("beqz", expand2 fun rs t => ["beq", rs, "x0", t]),
   ("bnez", expand2 fun rs t => ["bne", rs, "x0", t]),
   ("blez", expand2 fun rs t => ["bge", "x0", rs, t]),
   ("bgez", expand2 fun rs t => ["bge", rs, "x0", t]),
   ("bltz", expand2 fun rs t => ["blt", rs, "x0", t]),
   ("bgtz", expand2 fun rs t => ["blt", "x0", rs, t]),
   ("bgt", expand3 fun rs rt t => ["blt", rt, rs, t]),
   ("ble", expand3 fun rs rt t => ["bge", rt, rs, t]),
   ("bgtu", expand3 fun rs rt t => ["bltu", rt, rs, t]),
   ("bleu", expand3 fun rs rt t => ["bgeu", rt, rs, t])]
/-- The pseudo table: 24 lower-case mnemonics (R301, R302). -/
def pseudoTable : List (String × Expansion) := pseudoInteger ++ pseudoJump ++ pseudoBranch

/-- The token lists queued for an instruction line: its expansion, or the line itself where it is no
pseudo-instruction or its operands do not fit (R295). -/
def expandLine (m : String) (args : List String) : List (List String) :=
  match pseudoTable.lookup (lowerCase m) with
  | some e => (e args).getD [m :: args]
  | none => [m :: args]

/-! ### Pass 1 (R292 to R295) -/

/-- The assembler's mode. -/
inductive Segment where
  | text
  | data
  deriving DecidableEq, Repr

/-- The bookkeeping of one call of `assemble` (R292). -/
structure Asm where
  textCursor : Word
  dataCursor : Word
  mode : Segment
  /-- the real-instruction token lists with their lines, in order -/
  queue : List (List String × Nat)
  /-- labels in the order they were met -/
  labels : List (String × Word)
  relocations : List (String × Word)
  /-- data-segment bytes so far -/
  data : List Byte
  deriving DecidableEq, Repr

/-- The fresh context (R292, 92 D31). -/
def Asm.start (p : Params) : Asm := ⟨p.textBase, p.staticBase, .text, [], [], [], []⟩

/-- A label is local when it begins with PRIVATE_LABEL_PREFIX (R293). -/
def isLocalLabel (p : Params) (name : String) : Bool := p.localLabelMark.toList.isPrefixOf name.toList

/-- Record the line's label at the cursor of the current mode, unless it is local (R293). -/
def Asm.recordLabel (p : Params) (label : Option String) (c : Asm) : Asm :=
  match label with
  | none => c
  | some name =>
    if isLocalLabel p name then c
    else { c with labels := c.labels ++ [(name, match c.mode with | .text => c.textCursor | .data => c.dataCursor)] }

/-- Append bytes to the data segment; the data cursor moves past them, whatever the mode (R294). -/
def Asm.addData (c : Asm) (bs : List Byte) : Asm :=
  { c with data := c.data ++ bs, dataCursor := c.dataCursor + BitVec.ofNat 32 bs.length }

/-- The byte of a `.byte` argument: a literal in -128..255, stored modulo 256 (R294). -/
def byteArg (tok : String) : Except AsmFailure Byte :=
  match parseImm tok with
  | .error e => .error e
  | .ok v => immField 8 (-128) 255 tok v

/-- The bytes of the arguments of `.byte`, left to right; none where there is no argument (R294). -/
def byteArgs : List String → Except AsmFailure (List Byte)
  | [] => .ok []
  | tok :: toks => do
    let b ← byteArg tok
    let bs ← byteArgs toks
    return b :: bs

/-- The bytes of `.asciiz`: the character codes and one 0x00 (R294). -/
def asciizBytes (tok : String) (quoted : Option (List Nat)) : Except AsmFailure (List Byte) :=
  match quoted with
  | none => .error ⟨.missingString, tok⟩
  | some codes =>
    if codes.all (fun c => decide (c ≤ 127)) then .ok (codes.map (BitVec.ofNat 8) ++ [0x00])
    else .error ⟨.nonAsciiString, tok⟩

/-- A directive line (R294). -/
def Asm.directive (tok : String) (args : List String) (quoted : Option (List Nat)) (c : Asm) : Except AsmFailure Asm :=
  if tok = ".text" then .ok { c with mode := .text }
  else if tok = ".data" then .ok { c with mode := .data }
  else if tok = ".byte" then (byteArgs args).map c.addData
  else if tok = ".asciiz" then (asciizBytes tok quoted).map c.addData
  else .error ⟨.unknownDirective, tok⟩

/-- Queue the token lists of an instruction line; the text cursor moves 4 bytes for each, whatever the mode (R295). -/
def Asm.enqueue (line : Nat) (c : Asm) : List (List String) → Asm
  | [] => c
  | t :: ts => Asm.enqueue line { c with queue := c.queue ++ [(t, line)], textCursor := c.textCursor + ilen } ts

/-- The directive marker (R294, 92 D30). -/
def isDirective (tok : String) : Bool := tok.toList.head? == some '.'

/-- One line of pass 1 (R293 to R295). -/
def Asm.line (p : Params) (n : Nat) (l : Line) (c : Asm) : Except AsmFailure Asm :=
  let c := c.recordLabel p l.label
  match l.tokens with
  | [] => .ok c
  | tok :: args => if isDirective tok then c.directive tok args l.quoted else .ok (c.enqueue n (expandLine tok args))

/-- Pass 1 over the lines from line `n`; the first failure aborts (R297). -/
def pass1 (p : Params) : Nat → List Line → Asm → Except AssemblyError Asm
  | _, [], c => .ok c
  | n, l :: ls, c =>
    match c.line p n l with
    | .ok c' => pass1 p (n + 1) ls c'
    | .error e => .error (e.atLine n)

/-! ### Pass 2 (R296, R297) -/

/-- The recorded labels, relocations and data flushed into a Program (R296). -/
def Asm.flush (c : Asm) : Program :=
  c.labels.foldl (fun prog l => prog.addLabel l.1 l.2) ⟨[], c.data, [], c.relocations⟩

/-- The word of one queued token list (R296 step 1). -/
def encodeTokens (addr : Word) (symbols : String → Option Word) : List String → Except AsmFailure Word
  | [] => .error ⟨.noSuchInstruction, ""⟩
  | m :: ops => encodeLine m ops ⟨addr, symbols⟩

/-- Pass 2 in queue order, the k-th list encoded at `TEXT_BASE + 4k`; any error aborts (R296, R297). -/
def pass2 (symbols : String → Option Word) : Word → List (List String × Nat) → Except AssemblyError (List Word)
  | _, [] => .ok []
  | addr, (toks, n) :: q =>
    match encodeTokens addr symbols toks with
    | .error e => .error (e.atLine n)
    | .ok w =>
      match pass2 symbols (addr + ilen) q with
      | .error e => .error e
      | .ok ws => .ok (w :: ws)

/-- `assemble(text)` over the lexer's lines (R292): a Program, or the first error met and no Program (R297). -/
def assemble (p : Params) (lines : List Line) : Except AssemblyError Program :=
  match pass1 p 1 lines (Asm.start p) with
  | .error e => .error e
  | .ok c =>
    match pass2 c.flush.symbols p.textBase c.queue with
    | .error e => .error e
    | .ok ws => .ok (ws.foldl Program.addInstruction c.flush)

end Sys2Proof.Machine
end

