-- ==== Sys2Proof/Machine/History.lean ====
section
/-! DEFINITION. Applying a diff and `undo` (`41_accessors_and_diffs.md` R141 to R143). -/

namespace Sys2Proof.Machine

/-- `apply(diff)`: overwrite the location with the diff's value, recording nothing (R141). -/
def Diff.apply : Diff → State → State
  | .reg i v, s => s.putReg i v
  | .pc v, s => s.putPC v
  | .mem a width v, s => s.putMem width a v

/-- Apply a set's diffs in reverse recording order: the last recorded first (R142, 92 D15). -/
def applyReversed (set : DiffSet) (s : State) : State := set.reverse.foldl (fun t d => d.apply t) s

/-- `undo()` (R142): nothing when the history is empty, otherwise the top set is popped and applied.  Nothing is
recorded, and `cycles`, `faulted` and N stay (R143). -/
def State.undo (s : State) : State :=
  match s.history with
  | [] => s
  | set :: rest => applyReversed set { s with history := rest }

/-- `k` calls of `undo()`. -/
def State.undoN (s : State) : Nat → State
  | 0 => s
  | k + 1 => s.undo.undoN k

end Sys2Proof.Machine
end

