-- ==== Sys2Proof/Machine/Simulator.lean ====
section
/-! DEFINITION. The simulator around `step`: what a model may refuse to load (`70_reset_and_hazards.md` R355), `isDone`
and `run` (`40_simulator_step.md` R117 to R119), and the named states (`10_state.md` R35). -/

namespace Sys2Proof.Machine

/-- `TEXT_BASE + 4·N` as an integer (`00_scope.md` R15, text end). -/
def textEnd (p : Params) (n : Nat) : Nat := p.textBase.toNat + ilenBytes * n

/-- `[lo1, hi1)` and `[lo2, hi2)` have no address in common. -/
def disjointRanges (lo1 hi1 lo2 hi2 : Nat) : Bool :=
  decide (hi1 ≤ lo1) || decide (hi2 ≤ lo2) || decide (hi1 ≤ lo2) || decide (hi2 ≤ lo1)

/-- The constraints of 92 D7: text and data neither overlap nor wrap, and STACK_BASE lies in neither (R355). -/
def admits (p : Params) (prog : Program) : Bool :=
  let textHi := textEnd p prog.instructions.length
  let dataLo := p.staticBase.toNat
  let dataHi := dataLo + prog.dataSegment.length
  let sp := p.stackBase.toNat
  decide (textHi ≤ 2 ^ 32) && decide (dataHi ≤ 2 ^ 32) && disjointRanges p.textBase.toNat textHi dataLo dataHi
    && !(decide (p.textBase.toNat ≤ sp) && decide (sp < textHi)) && !(decide (dataLo ≤ sp) && decide (sp < dataHi))

/-- Build a simulator, or refuse the configuration (R350, R355; log entry 11). -/
def load (p : Params) (prog : Program) : Host.Outcome State Fault Refusal :=
  if admits p prog then .next (State.construct p prog) else .refused .badConfiguration

/-- `k` calls of `step()`, up to the first that answers no next state. -/
def stepN : Nat → State → Host.Outcome State Fault Refusal
  | 0, s => .next s
  | k + 1, s =>
    match step s with
    | .next t => stepN k t
    | .fault r => .fault r
    | .refused r => .refused r

/-- `isDone()` (R117): integer comparisons, no wrap. -/
def State.isDone (s : State) : Bool :=
  decide (textEnd s.params s.numInstrs ≤ s.pc.toNat) || decide (s.params.maxCycles < s.cycles)

/-- What `run()` returns (R118). -/
inductive RunResult where
  | done
  | invalid (pc word : Word)
  deriving DecidableEq, Repr

/-- The loop of `run()` (R118) with a bound on its turns.  Test `isDone`, step, stop on `Invalid`, count the cycle.
DESIGN CHOICE (log entry 19, unsafe): where a faulted state is also `isDone`, R118 returns Done before it steps and R116
says that a faulted state is never a normal end of run; no ruling joins them, and the loop keeps R118's order, so it
answers Done and `faulted` keeps the record. -/
def runLoop : Nat → State → Host.Outcome (State × RunResult) Fault Refusal
  | 0, s => .next (s, .done)
  | k + 1, s =>
    if s.isDone then .next (s, .done)
    else
      match step s with
      | .next t =>
        match t.result with
        | some (.invalid a w) => .next (t, .invalid a w)
        | some (.ok _) => runLoop k { t with cycles := t.cycles + 1 }
        | none => runLoop k { t with cycles := t.cycles + 1 }
      | .fault (.invalidInstruction a w) => .next (s, .invalid a w)
      | .refused r => .refused r

/-- `run()` (R118).  The loop turns at most `MAX_CYCLES + 1 - cycles` times, since each turn adds 1 to `cycles` and
`isDone` holds once it exceeds MAX_CYCLES (R119): where the bound runs out, `isDone` holds.  From a state that is both
faulted and `isDone` it returns Done (DESIGN CHOICE, log entry 19). -/
def State.run (s : State) : Host.Outcome (State × RunResult) Fault Refusal :=
  runLoop (s.params.maxCycles + 1 - s.cycles) s

/-! ### The named states (R35) -/

/-- Constructed, no step taken: each component of the state vector that R36 fixes whatever the Program holds its value
after construction.  A state that `undo` has brought back to the constructed vector is Ready again (DEDUCED, log entry
18). -/
def State.isReady (s : State) : Bool :=
  decide (s.regs = initialRegs s.params) && decide (s.pc = initialPc s.params) && decide (s.cycles = 0)
    && s.history.isEmpty && s.faulted.isNone
/-- `isDone()` false and no fault. -/
def State.isRunning (s : State) : Bool := !s.isDone && s.faulted.isNone
/-- `isDone()` true. -/
def State.isHalted (s : State) : Bool := s.isDone
/-- `faulted ≠ None`. -/
def State.isFaulted (s : State) : Bool := s.faulted.isSome

end Sys2Proof.Machine
end

