-- ==== Sys2Proof/Safety.lean ====
section
/-! DEFINITION. What a run may rely on: the invariant of the state, the effects the instruction rules give (what a handler
writes, and the frame of what it leaves), and the words in which statements about the machine are said. -/

namespace Sys2Proof.Machine

/-! ### The invariant -/

/-- A set of pre-diffs as a step records one (`40_simulator_step.md` R112, R114): none, the pc's, or a register's or a
memory location's and then the pc's.  A diff of x0 holds 0 (`41_accessors_and_diffs.md` R133), and the bits of a memory
diff above its width are 0 (R139). -/
def recordedSet : DiffSet → Prop
  | [] => True
  | [.pc _] => True
  | [.reg i v, .pc _] => i = 0 → v = 0
  | [.mem _ width v, .pc _] => v.toNat < 256 ^ width.bytes
  | _ => False

/-- What holds at construction and is kept by every step and every undo. -/
structure State.Inv (s : State) : Prop where
  /-- memory is in canonical form -/
  memWf : s.mem.wf
  /-- the stored x0 is 0 (`10_state.md` R23) -/
  zeroReg : s.regs[0] = 0
  /-- the lists of a running step are empty between steps (R21) -/
  noPre : s.preList = []
  noPost : s.postList = []
  /-- every set on the history is one a step records -/
  sets : ∀ set ∈ s.history, recordedSet set
  /-- an empty set is pushed under Skip alone (`40_simulator_step.md` R113, R114) -/
  emptySets : [] ∈ s.history → s.params.invalidPolicy = .skip
  /-- a fault occurs under Fail alone (`10_state.md` R35) -/
  faultPolicy : s.faulted.isSome → s.params.invalidPolicy = .fail
  /-- a faulted machine has answered `Invalid` for that pc and word, and no other machine has -/
  faultResult : ∀ a w, s.faulted = some (a, w) ↔ s.result = some (.invalid a w)

/-- A safe state: the machine has met no invalid instruction. -/
def State.safe (s : State) : Prop := s.faulted = none

/-! ### Effects and frames -/

/-- Every register reads as before. -/
def SameRegs (s t : State) : Prop := ∀ r : Reg, t.getReg r = s.getReg r

/-- Every register but `rd` reads as before. -/
def SameRegsBut (rd : Reg) (s t : State) : Prop := ∀ r : Reg, r ≠ rd → t.getReg r = s.getReg r

/-- Every byte of memory reads as before. -/
def SameMem (s t : State) : Prop := ∀ a : Word, t.byteAt a = s.byteAt a

/-- The j-th address of an access at `a`, modulo 2^32. -/
def accessAddr (a : Word) (j : Nat) : Word := a + BitVec.ofNat 32 j

/-- Every byte outside the `width` bytes at `ea` reads as before. -/
def SameMemBut (ea : Word) (width : Width) (s t : State) : Prop :=
  ∀ a : Word, (∀ j < width.bytes, a ≠ accessAddr ea j) → t.byteAt a = s.byteAt a

/-- What no instruction changes: the parameters, the cycle counter, N and the fault record; the lists of the step are
consumed. -/
structure SameRest (s t : State) : Prop where
  params : t.params = s.params
  cycles : t.cycles = s.cycles
  numInstrs : t.numInstrs = s.numInstrs
  faulted : t.faulted = s.faulted
  noPre : t.preList = []
  noPost : t.postList = []

/-- A handler wrote `v` to `rd` (nothing, if `rd` is x0) and `newPc` to the pc, and nothing else. -/
structure RegisterEffect (s t : State) (rd : Reg) (v newPc : Word) : Prop where
  dest : t.getReg rd = if rd = 0 then 0 else v
  others : SameRegsBut rd s t
  pc : t.pc = newPc
  mem : SameMem s t
  history : t.history = [.reg rd (s.getReg rd), .pc s.pc] :: s.history
  result : t.result = some (.ok [.reg rd (if rd = 0 then 0 else v), .pc newPc])
  rest : SameRest s t

/-- A handler wrote `newPc` to the pc, and nothing else. -/
structure PcEffect (s t : State) (newPc : Word) : Prop where
  pc : t.pc = newPc
  regs : SameRegs s t
  mem : SameMem s t
  history : t.history = [.pc s.pc] :: s.history
  result : t.result = some (.ok [.pc newPc])
  rest : SameRest s t

/-- The low bytes of `v` as a memory diff of that width holds them. -/
def lowBytes (width : Width) (v : Word) : Word := BitVec.ofNat 32 (v.toNat % 256 ^ width.bytes)

/-- A handler stored the low bytes of `v` at `ea`, little-endian, moved the pc past itself, and wrote nothing else. -/
structure StoreEffect (s t : State) (width : Width) (ea v : Word) : Prop where
  stored : ∀ j < width.bytes, (t.byteAt (accessAddr ea j)).toNat = v.toNat / 256 ^ j % 256
  others : SameMemBut ea width s t
  regs : SameRegs s t
  pc : t.pc = s.pc + 4
  history : t.history = [.mem ea width (s.load width ea), .pc s.pc] :: s.history
  result : t.result = some (.ok [.mem ea width (lowBytes width v), .pc (s.pc + 4)])
  rest : SameRest s t

/-- Instruction `i` runs from `s`, completes, and its next state is one of the given kind. -/
def Completes (i : Instr) (s : State) (effect : State → Prop) : Prop := ∃ t, exec i s = .next t ∧ effect t

/-- The store instruction of a width. -/
def storeInstr : Width → Reg → Reg → BitVec 12 → Instr
  | .byte => .sb
  | .half => .sh
  | .word => .sw

/-- The location a diff names holds the diff's value in `s`. -/
def Diff.holdsIn (s : State) : Diff → Prop
  | .reg i v => s.getReg i = v
  | .pc v => s.pc = v
  | .mem a width v => s.load width a = v

/-- The two diffs name one location. -/
def Diff.sameLocation : Diff → Diff → Prop
  | .reg i _, .reg j _ => i = j
  | .pc _, .pc _ => True
  | .mem a width _, .mem b width' _ => a = b ∧ width = width'
  | _, _ => False

/-- The diff names register `r`. -/
def Diff.namesReg (r : Reg) : Diff → Prop
  | .reg i _ => i = r
  | .pc _ => False
  | .mem _ _ _ => False

/-- The diff names the byte at `a`. -/
def Diff.namesByte (a : Word) : Diff → Prop
  | .reg _ _ => False
  | .pc _ => False
  | .mem ea width _ => ∃ j < width.bytes, a = accessAddr ea j

/-- The diff names the pc. -/
def Diff.namesPc : Diff → Prop
  | .reg _ _ => False
  | .pc _ => True
  | .mem _ _ _ => False

/-- Registers, pc and memory agree: what `undo` restores (R143). -/
structure SameArch (s t : State) : Prop where
  regs : t.regs = s.regs
  pc : t.pc = s.pc
  mem : t.mem = s.mem

/-- The state vectors of `10_state.md` R20 are equal, component by component. -/
structure SameVector (s t : State) : Prop where
  arch : SameArch s t
  cycles : t.cycles = s.cycles
  history : t.history = s.history
  numInstrs : t.numInstrs = s.numInstrs
  faulted : t.faulted = s.faulted

/-- States reached from `s` by the calls a host may make: `step` where it answers a next state, the cycle count of
`run`, and `undo`. -/
inductive Reachable (s : State) : State → Prop where
  | start : Reachable s s
  | step {t u : State} : Reachable s t → Machine.step t = .next u → Reachable s u
  | count {t : State} : Reachable s t → Reachable s { t with cycles := t.cycles + 1 }
  | undo {t : State} : Reachable s t → Reachable s t.undo

end Sys2Proof.Machine
end

