-- ==== Sys2Proof/Certificates/Slice0/Obligations.lean ====
section
/-! DEFINITION. The statements for the provers, each a Prop.  The effects and frames they speak of (RegisterEffect, PcEffect,
StoreEffect, SameArch, Inv, …) are in `Safety.lean`.  Where a statement needs memory in canonical form, it has `mem.wf` as
a premise: no run reaches another memory (`StepKeepsInvariant`, `ConstructionInvariant`).  What a step returns is read from
the field `result`, where the model keeps it (log entry 6). -/

open Sys2Proof Sys2Proof.Machine

/-! ### Encoding -/

/-- Words of the spec, written out, decode to the instructions they stand for (`95_test_vectors.md` V-DEC, V-ENC). -/
def Obligations.SpecWordsDecode : Prop :=
  decode 0x00500093 = .handler (.addi 1 0 5) ∧ decode 0x123452B7 = .handler (.lui 5 0x12345) ∧
  decode 0xFFDFF06F = .handler (.jal 0 (BitVec.ofInt 21 (-4))) ∧
  decode 0x8020F063 = .handler (.bgeu 1 2 (BitVec.ofInt 13 (-4096))) ∧
  decode 0xFE112E23 = .handler (.sw 2 1 (BitVec.ofInt 12 (-4))) ∧ decode 0x00415093 = .handler (.srli 1 2 4) ∧
  decode 0x402081B3 = .handler (.sub 3 1 2) ∧ decode 0x00000073 = .noHandler 0x00000073

/-- Every well-formed instruction reads back from its word, with every operand (the spec's own inference, R248). -/
def Obligations.DecodeEncodeRoundTrip : Prop := ∀ i : Instr, i.wf = true → decode (encode i) = .handler i

/-- Every word that has a handler is the word of the instruction it decodes to: no bit is ignored. -/
def Obligations.EncodeDecodeRoundTrip : Prop :=
  ∀ (w : Word) (i : Instr), decode w = .handler i → i.wf = true ∧ encode i = w

/-- The decoder's answer is the match against the 37 rows (R86); that no word selects two rows is the spec's own inference
there (from R87 to R89). -/
def Obligations.DecodeMatchesOpcodeTable : Prop :=
  opcodeTable.length = 37 ∧ (∀ m : Mnemonic, ∃ r ∈ opcodeTable, r.mnemonic = m) ∧
  (∀ r ∈ opcodeTable, r.mask =
    if r.mnemonic ∈ ([.lui, .auipc, .jal] : List Mnemonic) then 0x0000007F
    else if r.mnemonic ∈ ([.slli, .srli, .srai, .add, .sub, .sll, .slt, .sltu, .xor, .srl, .sra, .or, .and] :
      List Mnemonic) then 0xFE00707F
    else 0x0000707F) ∧
  ∀ w : Word,
    (∀ r ∈ opcodeTable, ∀ q ∈ opcodeTable, w &&& r.mask = r.pattern → w &&& q.mask = q.pattern → r = q) ∧
    (∀ r ∈ opcodeTable, w &&& r.mask = r.pattern → ∃ i, decode w = .handler i ∧ i.mnemonic = r.mnemonic) ∧
    ((∀ r ∈ opcodeTable, w &&& r.mask ≠ r.pattern) → decode w = .noHandler w)

/-- R91: the words with no handler, kind by kind. -/
def Obligations.UnmatchedWordsHaveNoHandler : Prop :=
  ∀ w : Word,
    (selectRow w = none → decode w = .noHandler w) ∧
    (w.extractLsb' 0 2 ≠ 0b11#2 → decode w = .noHandler w) ∧
    (opcodeF w ∉ ([0x37, 0x17, 0x6F, 0x67, 0x63, 0x03, 0x23, 0x13, 0x33] : List (BitVec 7)) →
      decode w = .noHandler w) ∧
    (opcodeF w ∈ ([0x0F, 0x73, 0x2F, 0x07, 0x27, 0x53, 0x43, 0x47, 0x4B, 0x4F, 0x3B, 0x1B, 0x0B, 0x2B, 0x5B, 0x7B] :
      List (BitVec 7)) → decode w = .noHandler w) ∧
    (w.extractLsb' 2 3 = 0b111#3 → decode w = .noHandler w) ∧
    (opcodeF w = 0x67 → funct3F w ≠ 0 → decode w = .noHandler w) ∧
    (opcodeF w = 0x63 → (funct3F w = 2 ∨ funct3F w = 3) → decode w = .noHandler w) ∧
    (opcodeF w = 0x03 → (funct3F w = 3 ∨ funct3F w = 6 ∨ funct3F w = 7) → decode w = .noHandler w) ∧
    (opcodeF w = 0x23 → 3 ≤ (funct3F w).toNat → decode w = .noHandler w) ∧
    (opcodeF w = 0x13 → funct3F w = 1 → funct7F w ≠ 0 → decode w = .noHandler w) ∧
    (opcodeF w = 0x13 → funct3F w = 5 → funct7F w ≠ 0 → funct7F w ≠ 0x20 → decode w = .noHandler w) ∧
    (opcodeF w = 0x33 → funct7F w ≠ 0 → funct7F w ≠ 0x20 → decode w = .noHandler w) ∧
    (opcodeF w = 0x33 → funct7F w = 0x20 → funct3F w ≠ 0 → funct3F w ≠ 5 → decode w = .noHandler w) ∧
    (w = 0x00000000 ∨ w = 0xFFFFFFFF → decode w = .noHandler w)

/-- R80 to R83: the value of each immediate from the bits of the word. -/
def Obligations.ImmediateReconstruction : Prop :=
  ∀ w : Word,
    (immI w).toInt = (w.extractLsb' 20 11).toNat - 2048 * (w.extractLsb' 31 1).toNat ∧
    (immS w).toInt =
      32 * (w.extractLsb' 25 6).toNat + (w.extractLsb' 7 5).toNat - 2048 * (w.extractLsb' 31 1).toNat ∧
    (immB w).toInt =
      2048 * (w.extractLsb' 7 1).toNat + 32 * (w.extractLsb' 25 6).toNat + 2 * (w.extractLsb' 8 4).toNat
        - 4096 * (w.extractLsb' 31 1).toNat ∧
    (immU w).toNat = 4096 * (w.extractLsb' 12 20).toNat ∧
    (immJ w).toInt =
      4096 * (w.extractLsb' 12 8).toNat + 2048 * (w.extractLsb' 20 1).toNat + 2 * (w.extractLsb' 21 10).toNat
        - 1048576 * (w.extractLsb' 31 1).toNat

/-- R242 to R247: the packers are the shift and OR formulas of the spec. -/
def Obligations.PackersFollowFormulas : Prop :=
  ∀ (op : BitVec 7) (f3 : BitVec 3) (f7 : BitVec 7) (rd rs1 rs2 : BitVec 5) (imm12 : BitVec 12) (imm20 : BitVec 20)
    (b : BitVec 13) (j : BitVec 21),
    packR op f3 f7 rd rs1 rs2 =
      f7.setWidth 32 <<< 25 ||| rs2.setWidth 32 <<< 20 ||| rs1.setWidth 32 <<< 15 ||| f3.setWidth 32 <<< 12
        ||| rd.setWidth 32 <<< 7 ||| op.setWidth 32 ∧
    packI op f3 rd rs1 imm12 =
      imm12.setWidth 32 <<< 20 ||| rs1.setWidth 32 <<< 15 ||| f3.setWidth 32 <<< 12 ||| rd.setWidth 32 <<< 7
        ||| op.setWidth 32 ∧
    packS op f3 rs1 rs2 imm12 =
      (imm12.setWidth 32 >>> 5) <<< 25 ||| rs2.setWidth 32 <<< 20 ||| rs1.setWidth 32 <<< 15
        ||| f3.setWidth 32 <<< 12 ||| (imm12.setWidth 32 &&& 0x1F#32) <<< 7 ||| op.setWidth 32 ∧
    packB op f3 rs1 rs2 b =
      (b.extractLsb' 12 1).setWidth 32 <<< 31 ||| (b.extractLsb' 5 6).setWidth 32 <<< 25 ||| rs2.setWidth 32 <<< 20
        ||| rs1.setWidth 32 <<< 15 ||| f3.setWidth 32 <<< 12 ||| (b.extractLsb' 1 4).setWidth 32 <<< 8
        ||| (b.extractLsb' 11 1).setWidth 32 <<< 7 ||| op.setWidth 32 ∧
    packU op rd imm20 = imm20.setWidth 32 <<< 12 ||| rd.setWidth 32 <<< 7 ||| op.setWidth 32 ∧
    packJ op rd j =
      (j.extractLsb' 20 1).setWidth 32 <<< 31 ||| (j.extractLsb' 1 10).setWidth 32 <<< 21
        ||| (j.extractLsb' 11 1).setWidth 32 <<< 20 ||| (j.extractLsb' 12 8).setWidth 32 <<< 12
        ||| rd.setWidth 32 <<< 7 ||| op.setWidth 32

/-! ### Integer instructions (`42_integer.md`): encoding, result, diffs and frame -/

/-- R160, R161. -/
def Obligations.UpperImmediateResults : Prop :=
  ∀ (s : State) (rd : Reg) (imm : BitVec 20),
    decode (packU 0x37 (regField rd) imm) = .handler (.lui rd imm) ∧
    Completes (.lui rd imm) s (fun t => RegisterEffect s t rd (BitVec.ofNat 32 (4096 * imm.toNat)) (s.pc + 4)) ∧
    decode (packU 0x17 (regField rd) imm) = .handler (.auipc rd imm) ∧
    Completes (.auipc rd imm) s
      (fun t => RegisterEffect s t rd (BitVec.ofNat 32 (s.pc.toNat + 4096 * imm.toNat)) (s.pc + 4))

/-- R162: the exact sum of the signed operands, reduced modulo 2^32. -/
def Obligations.AddImmediateResult : Prop :=
  ∀ (s : State) (rd rs1 : Reg) (imm : BitVec 12),
    decode (packI 0x13 0 (regField rd) (regField rs1) imm) = .handler (.addi rd rs1 imm) ∧
    Completes (.addi rd rs1 imm) s
      (fun t => RegisterEffect s t rd (BitVec.ofInt 32 ((s.getReg rs1).toInt + imm.toInt)) (s.pc + 4))

/-- R163, R164. -/
def Obligations.SetLessThanImmediateResults : Prop :=
  ∀ (s : State) (rd rs1 : Reg) (imm : BitVec 12),
    decode (packI 0x13 2 (regField rd) (regField rs1) imm) = .handler (.slti rd rs1 imm) ∧
    Completes (.slti rd rs1 imm) s
      (fun t => RegisterEffect s t rd (if (s.getReg rs1).toInt < imm.toInt then 1 else 0) (s.pc + 4)) ∧
    decode (packI 0x13 3 (regField rd) (regField rs1) imm) = .handler (.sltiu rd rs1 imm) ∧
    Completes (.sltiu rd rs1 imm) s
      (fun t => RegisterEffect s t rd
        (if ((s.getReg rs1).toNat : Int) < imm.toInt % 2 ^ 32 then 1 else 0) (s.pc + 4))

/-- R165, R166, R167: bit by bit, with the immediate sign-extended. -/
def Obligations.LogicImmediateResults : Prop :=
  ∀ (s : State) (rd rs1 : Reg) (imm : BitVec 12),
    decode (packI 0x13 4 (regField rd) (regField rs1) imm) = .handler (.xori rd rs1 imm) ∧
    Completes (.xori rd rs1 imm) s
      (fun t => RegisterEffect s t rd (s.getReg rs1 ^^^ BitVec.ofInt 32 imm.toInt) (s.pc + 4)) ∧
    decode (packI 0x13 6 (regField rd) (regField rs1) imm) = .handler (.ori rd rs1 imm) ∧
    Completes (.ori rd rs1 imm) s
      (fun t => RegisterEffect s t rd (s.getReg rs1 ||| BitVec.ofInt 32 imm.toInt) (s.pc + 4)) ∧
    decode (packI 0x13 7 (regField rd) (regField rs1) imm) = .handler (.andi rd rs1 imm) ∧
    Completes (.andi rd rs1 imm) s
      (fun t => RegisterEffect s t rd (s.getReg rs1 &&& BitVec.ofInt 32 imm.toInt) (s.pc + 4))

/-- R168, R169, R170: a left shift multiplies, a right shift divides and rounds down, as unsigned or as signed; a word with
SLLI's funct3 and another funct7 has no handler. -/
def Obligations.ShiftImmediateResults : Prop :=
  ∀ (s : State) (rd rs1 : Reg) (shamt : BitVec 5),
    decode (packR 0x13 1 0x00 (regField rd) (regField rs1) shamt) = .handler (.slli rd rs1 shamt) ∧
    Completes (.slli rd rs1 shamt) s
      (fun t => RegisterEffect s t rd (BitVec.ofNat 32 ((s.getReg rs1).toNat * 2 ^ shamt.toNat)) (s.pc + 4)) ∧
    decode (packR 0x13 5 0x00 (regField rd) (regField rs1) shamt) = .handler (.srli rd rs1 shamt) ∧
    Completes (.srli rd rs1 shamt) s
      (fun t => RegisterEffect s t rd (BitVec.ofNat 32 ((s.getReg rs1).toNat / 2 ^ shamt.toNat)) (s.pc + 4)) ∧
    decode (packR 0x13 5 0x20 (regField rd) (regField rs1) shamt) = .handler (.srai rd rs1 shamt) ∧
    Completes (.srai rd rs1 shamt) s
      (fun t => RegisterEffect s t rd (BitVec.ofInt 32 ((s.getReg rs1).toInt / 2 ^ shamt.toNat)) (s.pc + 4)) ∧
    ∀ w : Word, opcodeF w = 0x13 → funct3F w = 1 → funct7F w ≠ 0 → decode w = .noHandler w

/-- R171, R172: the exact integer result reduced modulo 2^32; signedness does not matter. -/
def Obligations.AddSubResults : Prop :=
  ∀ (s : State) (rd rs1 rs2 : Reg),
    decode (packR 0x33 0 0x00 (regField rd) (regField rs1) (regField rs2)) = .handler (.add rd rs1 rs2) ∧
    Completes (.add rd rs1 rs2) s
      (fun t => RegisterEffect s t rd (BitVec.ofNat 32 ((s.getReg rs1).toNat + (s.getReg rs2).toNat)) (s.pc + 4)) ∧
    decode (packR 0x33 0 0x20 (regField rd) (regField rs1) (regField rs2)) = .handler (.sub rd rs1 rs2) ∧
    Completes (.sub rd rs1 rs2) s
      (fun t => RegisterEffect s t rd (BitVec.ofInt 32 ((s.getReg rs1).toInt - (s.getReg rs2).toInt)) (s.pc + 4))

/-- R173, R177, R178: the amount is x[rs2] modulo 32. -/
def Obligations.ShiftRegisterResults : Prop :=
  ∀ (s : State) (rd rs1 rs2 : Reg),
    decode (packR 0x33 1 0x00 (regField rd) (regField rs1) (regField rs2)) = .handler (.sll rd rs1 rs2) ∧
    Completes (.sll rd rs1 rs2) s
      (fun t => RegisterEffect s t rd
        (BitVec.ofNat 32 ((s.getReg rs1).toNat * 2 ^ ((s.getReg rs2).toNat % 32))) (s.pc + 4)) ∧
    decode (packR 0x33 5 0x00 (regField rd) (regField rs1) (regField rs2)) = .handler (.srl rd rs1 rs2) ∧
    Completes (.srl rd rs1 rs2) s
      (fun t => RegisterEffect s t rd
        (BitVec.ofNat 32 ((s.getReg rs1).toNat / 2 ^ ((s.getReg rs2).toNat % 32))) (s.pc + 4)) ∧
    decode (packR 0x33 5 0x20 (regField rd) (regField rs1) (regField rs2)) = .handler (.sra rd rs1 rs2) ∧
    Completes (.sra rd rs1 rs2) s
      (fun t => RegisterEffect s t rd
        (BitVec.ofInt 32 ((s.getReg rs1).toInt / 2 ^ ((s.getReg rs2).toNat % 32))) (s.pc + 4))

/-- R174, R175. -/
def Obligations.SetLessThanResults : Prop :=
  ∀ (s : State) (rd rs1 rs2 : Reg),
    decode (packR 0x33 2 0x00 (regField rd) (regField rs1) (regField rs2)) = .handler (.slt rd rs1 rs2) ∧
    Completes (.slt rd rs1 rs2) s
      (fun t => RegisterEffect s t rd (if (s.getReg rs1).toInt < (s.getReg rs2).toInt then 1 else 0) (s.pc + 4)) ∧
    decode (packR 0x33 3 0x00 (regField rd) (regField rs1) (regField rs2)) = .handler (.sltu rd rs1 rs2) ∧
    Completes (.sltu rd rs1 rs2) s
      (fun t => RegisterEffect s t rd (if (s.getReg rs1).toNat < (s.getReg rs2).toNat then 1 else 0) (s.pc + 4))

/-- R176, R179, R180. -/
def Obligations.LogicRegisterResults : Prop :=
  ∀ (s : State) (rd rs1 rs2 : Reg),
    decode (packR 0x33 4 0x00 (regField rd) (regField rs1) (regField rs2)) = .handler (.xor rd rs1 rs2) ∧
    Completes (.xor rd rs1 rs2) s (fun t => RegisterEffect s t rd (s.getReg rs1 ^^^ s.getReg rs2) (s.pc + 4)) ∧
    decode (packR 0x33 6 0x00 (regField rd) (regField rs1) (regField rs2)) = .handler (.or rd rs1 rs2) ∧
    Completes (.or rd rs1 rs2) s (fun t => RegisterEffect s t rd (s.getReg rs1 ||| s.getReg rs2) (s.pc + 4)) ∧
    decode (packR 0x33 7 0x00 (regField rd) (regField rs1) (regField rs2)) = .handler (.and rd rs1 rs2) ∧
    Completes (.and rd rs1 rs2) s (fun t => RegisterEffect s t rd (s.getReg rs1 &&& s.getReg rs2) (s.pc + 4))

/-- R92: an OP, OP-IMM, LUI or AUIPC word with rd = x0 executes as its row's instruction and changes only the pc; its write
to x0 is still recorded. -/
def Obligations.HintsOnlyAdvancePc : Prop :=
  ∀ (s : State) (w : Word) (i : Instr), decode w = .handler i → rdF w = 0 →
    opcodeF w ∈ ([0x37, 0x17, 0x13, 0x33] : List (BitVec 7)) →
    Completes i s (fun t => SameArch { s with pc := s.pc + 4 } t ∧
      t.history = [.reg 0 0, .pc s.pc] :: s.history ∧ t.result = some (.ok [.reg 0 0, .pc (s.pc + 4)]) ∧ SameRest s t)

/-! ### Control transfer (`43_control_transfer.md`) -/

/-- R200: the link is the instruction's own address + 4 and the target is relative to that address. -/
def Obligations.JumpAndLinkResult : Prop :=
  ∀ (s : State) (rd : Reg) (off : BitVec 21),
    (evenOffset off = true → decode (packJ 0x6F (regField rd) off) = .handler (.jal rd off)) ∧
    Completes (.jal rd off) s
      (fun t => RegisterEffect s t rd (s.pc + 4) (BitVec.ofInt 32 (s.pc.toNat + off.toInt)))

/-- R201: the target is the old x[rs1] plus the immediate, with bit 0 cleared; another funct3 has no handler. -/
def Obligations.JumpAndLinkRegisterResult : Prop :=
  ∀ (s : State) (rd rs1 : Reg) (imm : BitVec 12),
    decode (packI 0x67 0 (regField rd) (regField rs1) imm) = .handler (.jalr rd rs1 imm) ∧
    Completes (.jalr rd rs1 imm) s
      (fun t => RegisterEffect s t rd (s.pc + 4)
        (BitVec.ofInt 32 (2 * (((s.getReg rs1).toInt + imm.toInt) / 2)))) ∧
    ∀ w : Word, opcodeF w = 0x67 → funct3F w ≠ 0 → decode w = .noHandler w

/-- R202 to R207: each branch goes to its own address plus its offset when its condition holds and past itself when not. -/
def Obligations.BranchResults : Prop :=
  ∀ (s : State) (rs1 rs2 : Reg) (off : BitVec 13),
    (evenOffset off = true →
      decode (packB 0x63 0 (regField rs1) (regField rs2) off) = .handler (.beq rs1 rs2 off) ∧
      decode (packB 0x63 1 (regField rs1) (regField rs2) off) = .handler (.bne rs1 rs2 off) ∧
      decode (packB 0x63 4 (regField rs1) (regField rs2) off) = .handler (.blt rs1 rs2 off) ∧
      decode (packB 0x63 5 (regField rs1) (regField rs2) off) = .handler (.bge rs1 rs2 off) ∧
      decode (packB 0x63 6 (regField rs1) (regField rs2) off) = .handler (.bltu rs1 rs2 off) ∧
      decode (packB 0x63 7 (regField rs1) (regField rs2) off) = .handler (.bgeu rs1 rs2 off)) ∧
    Completes (.beq rs1 rs2 off) s (fun t => PcEffect s t
      (if s.getReg rs1 = s.getReg rs2 then BitVec.ofInt 32 (s.pc.toNat + off.toInt) else s.pc + 4)) ∧
    Completes (.bne rs1 rs2 off) s (fun t => PcEffect s t
      (if s.getReg rs1 ≠ s.getReg rs2 then BitVec.ofInt 32 (s.pc.toNat + off.toInt) else s.pc + 4)) ∧
    Completes (.blt rs1 rs2 off) s (fun t => PcEffect s t
      (if (s.getReg rs1).toInt < (s.getReg rs2).toInt then BitVec.ofInt 32 (s.pc.toNat + off.toInt)
       else s.pc + 4)) ∧
    Completes (.bge rs1 rs2 off) s (fun t => PcEffect s t
      (if (s.getReg rs1).toInt ≥ (s.getReg rs2).toInt then BitVec.ofInt 32 (s.pc.toNat + off.toInt)
       else s.pc + 4)) ∧
    Completes (.bltu rs1 rs2 off) s (fun t => PcEffect s t
      (if (s.getReg rs1).toNat < (s.getReg rs2).toNat then BitVec.ofInt 32 (s.pc.toNat + off.toInt)
       else s.pc + 4)) ∧
    Completes (.bgeu rs1 rs2 off) s (fun t => PcEffect s t
      (if (s.getReg rs1).toNat ≥ (s.getReg rs2).toNat then BitVec.ofInt 32 (s.pc.toNat + off.toInt)
       else s.pc + 4))

/-! ### Loads and stores (`44_load_store.md`) -/

/-- R220 to R224: the bytes at x[rs1] + imm, little-endian, extended as each rule says, at any alignment. -/
def Obligations.LoadResults : Prop :=
  ∀ (s : State) (rd rs1 : Reg) (imm : BitVec 12) (ea : Word),
    ea = BitVec.ofInt 32 ((s.getReg rs1).toInt + imm.toInt) →
    decode (packI 0x03 0 (regField rd) (regField rs1) imm) = .handler (.lb rd rs1 imm) ∧
    Completes (.lb rd rs1 imm) s
      (fun t => RegisterEffect s t rd (BitVec.ofInt 32 (s.byteAt ea).toInt) (s.pc + 4)) ∧
    decode (packI 0x03 1 (regField rd) (regField rs1) imm) = .handler (.lh rd rs1 imm) ∧
    Completes (.lh rd rs1 imm) s
      (fun t => RegisterEffect s t rd
        (BitVec.ofInt 32 (256 * (s.byteAt (ea + 1)).toInt + (s.byteAt ea).toNat)) (s.pc + 4)) ∧
    decode (packI 0x03 2 (regField rd) (regField rs1) imm) = .handler (.lw rd rs1 imm) ∧
    Completes (.lw rd rs1 imm) s
      (fun t => RegisterEffect s t rd
        (BitVec.ofNat 32 ((s.byteAt ea).toNat + 256 * (s.byteAt (ea + 1)).toNat + 65536 * (s.byteAt (ea + 2)).toNat
          + 16777216 * (s.byteAt (ea + 3)).toNat)) (s.pc + 4)) ∧
    decode (packI 0x03 4 (regField rd) (regField rs1) imm) = .handler (.lbu rd rs1 imm) ∧
    Completes (.lbu rd rs1 imm) s
      (fun t => RegisterEffect s t rd (BitVec.ofNat 32 (s.byteAt ea).toNat) (s.pc + 4)) ∧
    decode (packI 0x03 5 (regField rd) (regField rs1) imm) = .handler (.lhu rd rs1 imm) ∧
    Completes (.lhu rd rs1 imm) s
      (fun t => RegisterEffect s t rd
        (BitVec.ofNat 32 ((s.byteAt ea).toNat + 256 * (s.byteAt (ea + 1)).toNat)) (s.pc + 4))

/-- R225, R226, R227: the low bytes of x[rs2] at x[rs1] + imm, and every other byte, register and field as before. -/
def Obligations.StoreResults : Prop :=
  ∀ (s : State) (rs1 rs2 : Reg) (imm : BitVec 12), s.mem.wf →
    effectiveAddr s rs1 imm = BitVec.ofInt 32 ((s.getReg rs1).toInt + imm.toInt) ∧
    decode (packS 0x23 0 (regField rs1) (regField rs2) imm) = .handler (.sb rs1 rs2 imm) ∧
    Completes (.sb rs1 rs2 imm) s (fun t => StoreEffect s t .byte (effectiveAddr s rs1 imm) (s.getReg rs2)) ∧
    decode (packS 0x23 1 (regField rs1) (regField rs2) imm) = .handler (.sh rs1 rs2 imm) ∧
    Completes (.sh rs1 rs2 imm) s (fun t => StoreEffect s t .half (effectiveAddr s rs1 imm) (s.getReg rs2)) ∧
    decode (packS 0x23 2 (regField rs1) (regField rs2) imm) = .handler (.sw rs1 rs2 imm) ∧
    Completes (.sw rs1 rs2 imm) s (fun t => StoreEffect s t .word (effectiveAddr s rs1 imm) (s.getReg rs2))

/-! ### Memory (`20_memory.md`) -/

/-- R50: little-endian reads and writes at any address, modulo 2^32. -/
def Obligations.MemoryIsLittleEndian : Prop :=
  ∀ (s : State) (a v : Word),
    (s.loadByte a).toNat = (s.byteAt a).toNat ∧
    (s.loadHalfWord a).toNat = (s.byteAt a).toNat + 256 * (s.byteAt (a + 1)).toNat ∧
    (s.loadWord a).toNat = (s.byteAt a).toNat + 256 * (s.byteAt (a + 1)).toNat
      + 65536 * (s.byteAt (a + 2)).toNat + 16777216 * (s.byteAt (a + 3)).toNat ∧
    (s.mem.wf → ∀ (width : Width), ∀ j < width.bytes,
      ((s.store width a v).byteAt (accessAddr a j)).toNat = v.toNat / 256 ^ j % 256)

/-- Mixed widths, the spec's own inference from R50 (R51): a stored word read as halfwords and bytes, and a store changes no byte but its own. -/
def Obligations.MixedWidthAccess : Prop :=
  ∀ (s : State) (a v : Word), s.mem.wf →
    (s.storeWord a v).loadWord a = v ∧
    ((s.storeWord a v).loadHalfWord a).toNat = v.toNat % 65536 ∧
    ((s.storeWord a v).loadHalfWord (a + 2)).toNat = v.toNat / 65536 ∧
    (∀ j < 4, ((s.storeWord a v).loadByte (accessAddr a j)).toNat = v.toNat / 256 ^ j % 256) ∧
    ∀ width : Width, SameMemBut a width s (s.store width a v)

/-- Memories in canonical form that read alike at every address are equal data. -/
def Obligations.CanonicalMemoryIsUnique : Prop :=
  ∀ s t : State, s.mem.wf → t.mem.wf → SameMem s t → t.mem = s.mem

/-- A fetch at any address after a store reads what the store wrote, at once, and N is unchanged (the spec's own inference
in `20_memory.md`, R61). -/
def Obligations.FetchSeesTheStore : Prop :=
  ∀ (s : State) (width : Width) (rs1 rs2 : Reg) (imm : BitVec 12), s.mem.wf →
    Completes (storeInstr width rs1 rs2 imm) s (fun t => t.numInstrs = s.numInstrs ∧
      ∀ (a : Word), ∀ k < 4, (State.fetchWord { t with pc := a }).toNat / 256 ^ k % 256 = (t.byteAt (accessAddr a k)).toNat ∧
        ∀ j < width.bytes, accessAddr a k = accessAddr (effectiveAddr s rs1 imm) j →
          (State.fetchWord { t with pc := a }).toNat / 256 ^ k % 256 = (s.getReg rs2).toNat / 256 ^ j % 256)

/-! ### Accessors and diffs (`41_accessors_and_diffs.md`) -/

/-- R133, R134, R135 (and R132's port): a register or pc write records the old value, writes, and records the value read
back; a write to x0 records zeros and writes nothing. -/
def Obligations.RegisterAndPcWritesRecordBothDiffs : Prop :=
  ∀ (s : State) (i : Reg) (v : Word),
    (s.setReg i v).getReg i = (if i = 0 then 0 else v) ∧ SameRegsBut i s (s.setReg i v) ∧
    (s.setReg i v).preList = s.preList ++ [.reg i (s.getReg i)] ∧
    (s.setReg i v).postList = s.postList ++ [.reg i ((s.setReg i v).getReg i)] ∧
    (s.setReg 0 v).regs = s.regs ∧ (s.setReg 0 v).preList = s.preList ++ [.reg 0 0] ∧
    (s.setReg 0 v).postList = s.postList ++ [.reg 0 0] ∧ SameArch s ((Diff.reg 0 0).apply s) ∧
    (s.setReg i v).pc = s.pc ∧ SameMem s (s.setReg i v) ∧
    (s.setPC v).pc = v ∧ (s.setPC v).preList = s.preList ++ [.pc s.pc] ∧ (s.setPC v).postList = s.postList ++ [.pc v] ∧
    SameRegs s (s.setPC v) ∧ SameMem s (s.setPC v) ∧
    s.incrementPC v = s.setPC (BitVec.ofNat 32 (s.pc.toNat + v.toNat))

/-- R137: the store accessors, with the value read back at the access's width. -/
def Obligations.StoreRecordsBothDiffs : Prop :=
  ∀ (s : State) (width : Width) (a v : Word), s.mem.wf →
    (∀ j < width.bytes, ((s.store width a v).byteAt (accessAddr a j)).toNat = v.toNat / 256 ^ j % 256) ∧
    SameMemBut a width s (s.store width a v) ∧
    (s.store width a v).preList = s.preList ++ [.mem a width (s.load width a)] ∧
    (s.store width a v).postList = s.postList ++ [.mem a width (lowBytes width v)] ∧
    (s.load width a).toNat < 256 ^ width.bytes ∧
    SameRegs s (s.store width a v) ∧ (s.store width a v).pc = s.pc

/-- The spec's own inference in R112: every handler completes, writes the pc exactly once and last, and makes at most one other write: to memory for
a store, none for a branch, to a register for the rest. -/
def Obligations.HandlersMakeOneOrTwoWrites : Prop :=
  ∀ (i : Instr) (s : State), Completes i s fun t =>
    ∃ pre post : DiffSet, t.history = (pre ++ [.pc s.pc]) :: s.history ∧
      t.result = some (.ok (post ++ [.pc t.pc])) ∧
      if opcodeF (encode i) = 0x63 then pre = [] ∧ post = []
      else if opcodeF (encode i) = 0x23 then
        ∃ a width old new, pre = [.mem a width old] ∧ post = [.mem a width new]
      else ∃ rd old new, pre = [.reg rd old] ∧ post = [.reg rd new]

/-- The discipline of R131, said of a whole step: the k-th pre-diff and the k-th post-diff name one location, and hold its
value before the step and after it. -/
def Obligations.DiffsHoldOldAndNewValues : Prop :=
  ∀ (i : Instr) (s : State), Completes i s fun t =>
    ∃ pre post : DiffSet, t.history = pre :: s.history ∧ t.result = some (.ok post) ∧ List.Forall₂ Diff.sameLocation pre post ∧
      (∀ d ∈ pre, d.holdsIn s) ∧ ∀ d ∈ post, d.holdsIn t

/-- A location that no diff of the step names was not written (the spec's own inference in R144). -/
def Obligations.UnnamedLocationsUnchanged : Prop :=
  ∀ (i : Instr) (s : State), s.mem.wf → Completes i s fun t =>
    ∃ pre : DiffSet, t.history = pre :: s.history ∧
      (∀ r : Reg, (∀ d ∈ pre, ¬ d.namesReg r) → t.getReg r = s.getReg r) ∧
      (∀ a : Word, (∀ d ∈ pre, ¬ d.namesByte a) → t.byteAt a = s.byteAt a) ∧ SameRest s t

/-! ### Step (`40_simulator_step.md`, `60_exceptions.md`) -/

/-- The step of R110: a faulted machine answers its fault; otherwise the four bytes at the pc are decoded, and the step is the
instruction's execution or the answer to a word with no handler.  That this answer is a next state, and the faulted machine's
the outcome fault, is the model's choice (log entry 5). -/
def Obligations.StepRunsDecodedInstruction : Prop :=
  ∀ (s : State) (b0 b1 b2 b3 : Byte),
    s.byteAt s.pc = b0 → s.byteAt (s.pc + 1) = b1 → s.byteAt (s.pc + 2) = b2 → s.byteAt (s.pc + 3) = b3 →
    (∀ i, s.faulted = none → decodeBytes b0 b1 b2 b3 = .handler i → step s = exec i s) ∧
    (∀ w, s.faulted = none → decodeBytes b0 b1 b2 b3 = .noHandler w → step s = .next (s.noHandler s.pc w)) ∧
    ∀ a w, s.faulted = some (a, w) → step s = .fault (.invalidInstruction a w)

/-- Said of R330: no instruction raises an exception, whatever its operands and the state. -/
def Obligations.InstructionsNeverFail : Prop :=
  ∀ (i : Instr) (s : State), Completes i s (fun t => SameRest s t)

/-- A step stops exactly when the machine is already faulted, and is never refused.  That the failing step of R331 is itself a
next state, and each later answer of R116 the outcome fault, is the model's choice (log entry 5), so the title's `exactly
when` rests on it. -/
def Obligations.StepStopsOnlyWhenFaulted : Prop :=
  ∀ s : State, (s.faulted = none → ∃ t, step s = .next t) ∧
    (∀ a w, s.faulted = some (a, w) → step s = .fault (.invalidInstruction a w)) ∧ ∀ r, step s ≠ .refused r

/-- R116 and R334 under Fail, in the model's form: the failing step is a next state and every later step the outcome fault
(the model's choice, log entry 5); the failing step changes `faulted` alone, beside the model's own record of what it
returned (log entry 6); then no state changes, `run` stops at once (with `Invalid` where `isDone` is
false; log entry 19 says what the model does where it is true), and `undo` takes the history back without clearing the
fault. -/
def Obligations.InvalidUnderFailIsPreciseAndSticky : Prop :=
  ∀ (s : State) (w : Word), s.faulted = none → s.params.invalidPolicy = .fail → decode s.fetchWord = .noHandler w →
    let t : State := { s with faulted := some (s.pc, w), result := some (.invalid s.pc w) }
    w = s.fetchWord ∧ step s = .next t ∧ step t = .fault (.invalidInstruction s.pc w) ∧
      (t.isDone = false → t.run = .next (t, .invalid s.pc w)) ∧
      ∀ k, SameArch (s.undoN k) (t.undoN k) ∧ (t.undoN k).history = (s.undoN k).history ∧
        step (t.undoN k) = .fault (.invalidInstruction s.pc w)

/-- Under Skip (R113 and R114, the last clause of R114 being the spec's own inference) an empty set is pushed and nothing
else changes (but what the step returned, log entry 6), so the next step meets the same word; `undo` of the empty set
changes nothing else. -/
def Obligations.InvalidUnderSkipPushesEmptySet : Prop :=
  ∀ (s : State) (w : Word), s.faulted = none → s.params.invalidPolicy = .skip → decode s.fetchWord = .noHandler w →
    let t : State := { s with history := [] :: s.history, result := some (.ok []) }
    step s = .next t ∧ decode t.fetchWord = .noHandler w ∧ SameArch s t.undo ∧ t.undo.history = s.history ∧
      t.undo.faulted = none

/-- R120: what a step does depends neither on `cycles` nor on N nor on MAX_CYCLES, so not on `isDone`, and it leaves
`cycles` as it is; the fetch reads the bytes at the pc wherever it is, and the word of four zero bytes has no handler. -/
def Obligations.StepIgnoresIsDone : Prop :=
  (∀ (s : State) (c n m : Nat),
    step { s with cycles := c, numInstrs := n, params := { s.params with maxCycles := m } } =
      match step s with
      | .next t => .next { t with cycles := c, numInstrs := n, params := { t.params with maxCycles := m } }
      | .fault r => .fault r
      | .refused r => .refused r) ∧
  (∀ s : State, (∀ k < 4, s.byteAt (accessAddr s.pc k) = 0) → s.fetchWord = 0) ∧ decode 0 = .noHandler 0

/-- `10_state.md` R23: x0 reads 0 in every state; a write to it leaves the stored x0 and records its diffs; no step and no
undo writes the stored x0. -/
def Obligations.RegisterZeroIsHardwired : Prop :=
  ∀ s : State, s.getReg 0 = 0 ∧
    (∀ v, (s.setReg 0 v).regs[0] = s.regs[0] ∧ (s.setReg 0 v).preList = s.preList ++ [.reg 0 0] ∧
      (s.setReg 0 v).postList = s.postList ++ [.reg 0 0]) ∧
    s.undo.regs[0] = s.regs[0] ∧ ∀ t, step s = .next t → t.regs[0] = s.regs[0]

/-! ### Run (`40_simulator_step.md` R117 to R119) -/

/-- `run` is the loop of R118, with `isDone` (R117) as an integer comparison.  That Done comes also from a state that is
`isDone` and faulted is the model's choice (log entry 19). -/
def Obligations.RunFollowsItsLoop : Prop :=
  ∀ s : State,
    (s.isDone = true ↔ s.params.textBase.toNat + 4 * s.numInstrs ≤ s.pc.toNat ∨ s.params.maxCycles < s.cycles) ∧
    (s.isDone = true → s.run = .next (s, .done)) ∧
    (s.isDone = false → ∀ t, step s = .next t →
      (∀ a w, t.result = some (.invalid a w) → s.run = .next (t, .invalid a w)) ∧
      (∀ posts, t.result = some (.ok posts) → s.run = { t with cycles := t.cycles + 1 }.run)) ∧
    (s.isDone = false → ∀ a w, step s = .fault (.invalidInstruction a w) → s.run = .next (s, .invalid a w))

/-- Every run ends, in one of the three ways of R119, and makes at most MAX_CYCLES + 1 steps (the spec's own inference
there): with `Done`, `cycles` is at most MAX_CYCLES + 1; with `Invalid`, whose step is not counted, at most MAX_CYCLES.  A state that
is `isDone` and faulted ends with `Done` (the model's choice, log entry 19). -/
def Obligations.RunEndsWithinCeiling : Prop :=
  ∀ s : State, ∃ t r, s.run = .next (t, r) ∧
    t.params = s.params ∧ s.cycles ≤ t.cycles ∧ t.cycles ≤ max s.cycles (s.params.maxCycles + 1) ∧
    match r with
    | .done => t.params.textBase.toNat + 4 * t.numInstrs ≤ t.pc.toNat ∨ t.params.maxCycles < t.cycles
    | .invalid a w => t.faulted = some (a, w) ∧ t.cycles ≤ s.params.maxCycles

/-- R119's last example: an unconditional branch to itself runs until the ceiling, in exactly the steps that are left, and stays. -/
def Obligations.SelfBranchRunsToCeiling : Prop :=
  ∀ (s : State) (r : Reg), s.faulted = none → s.cycles ≤ s.params.maxCycles →
    s.pc.toNat < s.params.textBase.toNat + 4 * s.numInstrs →
    (decode s.fetchWord = .handler (.jal 0 0) ∨ decode s.fetchWord = .handler (.beq r r 0)) →
    ∃ t, s.run = .next (t, .done) ∧ t.cycles = s.params.maxCycles + 1 ∧ SameArch s t ∧
      t.history.length = s.history.length + (s.params.maxCycles + 1 - s.cycles)

/-- The spec's own inference in `70_reset_and_hazards.md` R358: under Skip a word with no handler is met again at every step until the ceiling. -/
def Obligations.SkipRunsToCeiling : Prop :=
  ∀ (s : State) (w : Word), s.faulted = none → s.params.invalidPolicy = .skip → s.cycles ≤ s.params.maxCycles →
    s.pc.toNat < s.params.textBase.toNat + 4 * s.numInstrs → decode s.fetchWord = .noHandler w →
    ∃ t, s.run = .next (t, .done) ∧ t.cycles = s.params.maxCycles + 1 ∧ SameArch s t ∧
      t.history = List.replicate (s.params.maxCycles + 1 - s.cycles) [] ++ s.history

/-! ### Undo (`41_accessors_and_diffs.md` R141 to R144) -/

/-- R143: whatever set is popped, `undo` changes neither `cycles` nor `faulted` nor N; with an empty history it changes
nothing (R142). -/
def Obligations.UndoKeepsCountersAndFault : Prop :=
  ∀ s : State, (s.history = [] → s.undo = s) ∧ s.undo.history = s.history.tail ∧ s.undo.cycles = s.cycles ∧
    s.undo.faulted = s.faulted ∧ s.undo.numInstrs = s.numInstrs ∧ s.undo.params = s.params

/-- `undo` (R142) reverses a step that did not fail: registers, pc, memory and history are as before it. -/
def Obligations.UndoReversesStep : Prop :=
  ∀ s t : State, s.mem.wf → step s = .next t → t.faulted = none →
    SameArch s t.undo ∧ t.undo.history = s.history

/-- The round trip of R144, the spec's own inference: k steps, each of which returned Ok, and then k calls of `undo` restore registers, pc and memory. -/
def Obligations.UndoRoundTrip : Prop :=
  ∀ (k : Nat) (s t : State), s.mem.wf → stepN k s = .next t → t.faulted = none →
    SameArch s (t.undoN k)

/-- From any state that steps, counted cycles and undos reach from construction, unwinding the whole history brings
registers, pc and memory back to their construction values, and leaves `cycles` and `faulted` (the spec's own inference in
`70_reset_and_hazards.md` R352).  Such a state is Ready (`10_state.md` R35) exactly when its state vector is the constructed
one (the model's reading, log entry 18). -/
def Obligations.WholeHistoryUnwinds : Prop :=
  ∀ (p : Params) (prog : Program) (s : State), Reachable (State.construct p prog) s →
    SameArch (State.construct p prog) (s.undoN s.history.length) ∧ (s.undoN s.history.length).history = [] ∧
    (s.undoN s.history.length).cycles = s.cycles ∧ (s.undoN s.history.length).faulted = s.faulted ∧
    (s.isReady = true ↔ SameVector (State.construct p prog) s)

/-! ### The invariant -/

/-- The invariant holds at reset, with the model's choice of parameters (log entries 1 and 2), and the machine is Ready
(`70_reset_and_hazards.md` R351). -/
def Obligations.ResetInvariant : Prop := State.reset.Inv ∧ State.reset.isReady = true

/-- The invariant holds after construction from any Program and parameters. -/
def Obligations.ConstructionInvariant : Prop := ∀ (p : Params) (prog : Program), (State.construct p prog).Inv

/-- Every step keeps the invariant. -/
def Obligations.StepKeepsInvariant : Prop := ∀ s t : State, s.Inv → step s = .next t → t.Inv

/-- Every undo keeps the invariant. -/
def Obligations.UndoKeepsInvariant : Prop := ∀ s : State, s.Inv → s.undo.Inv

/-! ### Construction (`70_reset_and_hazards.md`, `10_state.md` R36) -/

/-- R36 (its zeros are the spec's decisions D9 and D10, log entries 3 and 4): what each piece of state holds after
construction, in a configuration R355 allows. -/
def Obligations.ConstructionState : Prop :=
  ∀ (p : Params) (prog : Program) (s : State), load p prog = .next s →
    s.getReg 0 = 0 ∧ s.getReg 2 = p.stackBase ∧ s.getReg 3 = p.staticBase ∧
    (∀ r : Reg, r ≠ 2 → r ≠ 3 → s.getReg r = 0) ∧ s.pc = p.textBase ∧
    (∀ k w, prog.instructions[k]? = some w → ∀ j < 4,
      (s.byteAt (accessAddr p.textBase (4 * k + j))).toNat = w.toNat / 256 ^ j % 256) ∧
    (∀ k b, prog.dataSegment[k]? = some b → s.byteAt (accessAddr p.staticBase k) = b) ∧
    (∀ a : Word, (∀ k < 4 * prog.instructions.length, a ≠ accessAddr p.textBase k) →
      (∀ k < prog.dataSegment.length, a ≠ accessAddr p.staticBase k) → s.byteAt a = 0) ∧
    s.cycles = 0 ∧ s.history = [] ∧ s.numInstrs = prog.instructions.length ∧ s.faulted = none

/-- The model builds a simulator exactly in the configurations of R355 and refuses every other (log entry 11). -/
def Obligations.LoadRefusesOtherConfigurations : Prop :=
  ∀ (p : Params) (prog : Program),
    let inText := fun a : Nat => p.textBase.toNat ≤ a ∧ a < p.textBase.toNat + 4 * prog.instructions.length
    let inData := fun a : Nat => p.staticBase.toNat ≤ a ∧ a < p.staticBase.toNat + prog.dataSegment.length
    let allowed := p.textBase.toNat + 4 * prog.instructions.length ≤ 2 ^ 32 ∧
      p.staticBase.toNat + prog.dataSegment.length ≤ 2 ^ 32 ∧ (∀ a, ¬ (inText a ∧ inData a)) ∧
      ¬ inText p.stackBase.toNat ∧ ¬ inData p.stackBase.toNat
    (allowed → load p prog = .next (State.construct p prog)) ∧
    (¬ allowed → load p prog = .refused .badConfiguration)

/-! ### The text encoder and the assembler (`45_encoder.md`, `46_assembler_interface.md`) -/

/-- The spec's own inference in R248, last clause: a word the encoder makes decodes to the instruction of its mnemonic. -/
def Obligations.EncoderWordsDecode : Prop :=
  ∀ (m : String) (ops : List String) (ctx : EncodeCtx) (w : Word), encodeLine m ops ctx = .ok w →
    ∃ i, decode w = .handler i ∧ mnemonicName i.mnemonic = lowerCase m ∧ assembleInstr m ops ctx = .ok i

/-- A field takes exactly the values of its range (R251), holds the value it was given, and never truncates; the token an
error carries is the model's choice (log entry 13). -/
def Obligations.ImmediateRangesEnforced : Prop :=
  ∀ (tok : String) (v : Int),
    (if -2048 ≤ v ∧ v ≤ 2047 then ∃ f, imm12Field tok v = .ok f ∧ f.toInt = v
     else imm12Field tok v = .error ⟨.immediateOutOfRange, tok⟩) ∧
    (if 0 ≤ v ∧ v ≤ 31 then ∃ f, shamtField tok v = .ok f ∧ (f.toNat : Int) = v
     else shamtField tok v = .error ⟨.immediateOutOfRange, tok⟩) ∧
    (if 0 ≤ v ∧ v ≤ 1048575 then ∃ f, imm20Field tok v = .ok f ∧ (f.toNat : Int) = v
     else imm20Field tok v = .error ⟨.immediateOutOfRange, tok⟩) ∧
    (if -4096 ≤ v ∧ v ≤ 4094 then
       (if v % 2 = 0 then ∃ f, offsetField 13 (-4096) 4094 tok v = .ok f ∧ f.toInt = v ∧ evenOffset f = true
        else offsetField 13 (-4096) 4094 tok v = .error ⟨.misalignedOffset, tok⟩)
     else offsetField 13 (-4096) 4094 tok v = .error ⟨.immediateOutOfRange, tok⟩) ∧
    (if -1048576 ≤ v ∧ v ≤ 1048574 then
       (if v % 2 = 0 then
          ∃ f, offsetField 21 (-1048576) 1048574 tok v = .ok f ∧ f.toInt = v ∧ evenOffset f = true
        else offsetField 21 (-1048576) 1048574 tok v = .error ⟨.misalignedOffset, tok⟩)
     else offsetField 21 (-1048576) 1048574 tok v = .error ⟨.immediateOutOfRange, tok⟩)

/-- A token names a register exactly when the name table of `10_state.md` R25 has it, under one index (R249); the token the
error carries is the model's choice (log entry 13). -/
def Obligations.RegisterOperandsParse : Prop :=
  (∀ tok r, parseReg tok = .ok r ↔ (tok, r) ∈ regNames) ∧
  (∀ tok, (∀ r, (tok, r) ∉ regNames) → parseReg tok = .error ⟨.badRegister, tok⟩) ∧
  ∀ r : Reg, parseReg ("x" ++ dec r.val) = .ok r

/-- The target rule of R256: an assembled branch or jump to a label has the label's address as its target.  For `jal`, and for
`beq` of equal registers, execution is followed to the label; for the other branches the offset's target is given, and
`BranchResults` says when they take it. -/
def Obligations.LabelTargetsAreReached : Prop :=
  ∀ (ctx : EncodeCtx) (l : String) (a w : Word), ctx.symbols l = some a →
    (∀ rd, encodeLine "jal" [rd, l] ctx = .ok w →
      ∃ d off, parseReg rd = .ok d ∧ decode w = .handler (.jal d off) ∧
        ∀ s : State, s.pc = ctx.addr → Completes (.jal d off) s (fun t => t.pc = a)) ∧
    (∀ x y, encodeLine "beq" [x, y, l] ctx = .ok w →
      ∃ r1 r2 off, parseReg x = .ok r1 ∧ parseReg y = .ok r2 ∧ decode w = .handler (.beq r1 r2 off) ∧
        ∀ s : State, s.pc = ctx.addr → s.getReg r1 = s.getReg r2 → Completes (.beq r1 r2 off) s (fun t => t.pc = a)) ∧
    (∀ m x y mk, (m, RealForm.rs1Rs2Target mk) ∈ realTable → encodeLine m [x, y, l] ctx = .ok w →
      ∃ r1 r2 off, parseReg x = .ok r1 ∧ parseReg y = .ok r2 ∧ decode w = .handler (mk r1 r2 off) ∧
        ctx.addr + signExt off = a)

/-- The spec's own inference in R303: `li` assembles to two words which, executed one after the other, leave the value in the register. -/
def Obligations.LoadImmediateLoadsItsValue : Prop :=
  ∀ (rd tok : String) (d : Reg) (v : Int) (ctx1 ctx2 : EncodeCtx), parseReg rd = .ok d → literal tok = some v →
    -(2 ^ 31) ≤ v → v ≤ 2 ^ 32 - 1 →
    ∃ ops1 ops2 w1 w2 i1 i2, expandLine "li" [rd, tok] = ["lui" :: ops1, "addi" :: ops2] ∧
      encodeLine "lui" ops1 ctx1 = .ok w1 ∧ decode w1 = .handler i1 ∧
      encodeLine "addi" ops2 ctx2 = .ok w2 ∧ decode w2 = .handler i2 ∧
      ∀ s : State, Completes i1 s fun t => Completes i2 t fun u =>
        u.getReg d = (if d = 0 then 0 else BitVec.ofInt 32 v) ∧ SameRegsBut d s u ∧ u.pc = s.pc + 8

/-- Address neutrality (R295, R296): one word for each queued token list, the k-th encoded at TEXT_BASE + 4k.  Addresses and
the cursor are words, modulo 2^32 (the model's choice, log entry 16). -/
def Obligations.AssemblyIsAddressNeutral : Prop :=
  ∀ (p : Params) (lines : List Line) (prog : Program), assemble p lines = .ok prog →
    ∃ c, pass1 p 1 lines (Asm.start p) = .ok c ∧ prog.instructions.length = c.queue.length ∧
      c.textCursor = p.textBase + BitVec.ofNat 32 (4 * prog.instructions.length) ∧
      ∀ k toks n, c.queue[k]? = some (toks, n) →
        ∃ w, prog.instructions[k]? = some w ∧
          encodeTokens (p.textBase + BitVec.ofNat 32 (4 * k)) prog.symbols toks = .ok w

/-- The symbol table of R291 and the relocation table of R298: the last write for a label wins; after assembly keys are unique,
every address is a segment base plus an offset up to and including the segment's length, and there is no relocation.  The sums
are words, modulo 2^32, by the model's choice (log entry 16); where a segment does not wrap this is R291's closed range. -/
def Obligations.AssembledSymbolTable : Prop :=
  (∀ (prog : Program) (name other : String) (a : Word),
    (prog.addLabel name a).symbols other = if other = name then some a else prog.symbols other) ∧
  ∀ (p : Params) (lines : List Line) (prog : Program), assemble p lines = .ok prog →
    (prog.symbolTable.map Prod.fst).Nodup ∧ prog.relocationTable = [] ∧
    ∀ name a, (name, a) ∈ prog.symbolTable →
      (∃ k ≤ prog.instructions.length, a = p.textBase + BitVec.ofNat 32 (4 * k)) ∨
      (∃ k ≤ prog.dataSegment.length, a = p.staticBase + BitVec.ofNat 32 k)

/-- The first failure met aborts assembly and no Program comes back (R297).  Which failure is the first, pass 1 in line order
and then pass 2 in queue order, is the spec's own inference in `60_exceptions.md` R333; that lines are counted from 1 is the
model's choice (log entry 12). -/
def Obligations.AssemblyStopsAtFirstError : Prop :=
  (∀ (p : Params) (before after : List Line) (l : Line) (c : Asm) (e : AsmFailure),
    pass1 p 1 before (Asm.start p) = .ok c → c.line p (before.length + 1) l = .error e →
    assemble p (before ++ l :: after) = .error ⟨e.kind, before.length + 1, e.token⟩) ∧
  ∀ (p : Params) (lines : List Line) (c : Asm) (k : Nat) (toks : List String) (n : Nat) (e : AsmFailure),
    pass1 p 1 lines (Asm.start p) = .ok c → c.queue[k]? = some (toks, n) →
    (∀ j < k, ∀ toks' n', c.queue[j]? = some (toks', n') →
      ∃ w, encodeTokens (p.textBase + BitVec.ofNat 32 (4 * j)) c.flush.symbols toks' = .ok w) →
    encodeTokens (p.textBase + BitVec.ofNat 32 (4 * k)) c.flush.symbols toks = .error e →
    assemble p lines = .error ⟨e.kind, n, e.token⟩
end

