-- ==== Sys2Proof/Laws/Encode.lean ====
section
/-! SUPPORT. The encoder and the decoder's field readers: each field of each packed word reads back (`45_encoder.md` R248),
each word is the packing of its fields, and the masks of the opcode table in terms of the fields (`30_encoding.md` R86). -/

namespace Sys2Proof

@[simp] theorem regField_toFin (r : Reg) : (regField r).toFin = r := rfl

/-- The shift amount stands where rs2 stands (`30_encoding.md` R84). -/
theorem regField_rs2F (w : Word) : regField (rs2F w) = shamtF w := rfl

theorem evenOffset_iff {n : Nat} (off : BitVec n) : evenOffset off = true ↔ off.getLsbD 0 = false := by
  simp [evenOffset]

/-! R format -/

@[simp] theorem opcodeF_packR (opcode : BitVec 7) (funct3 : BitVec 3) (funct7 : BitVec 7) (rd rs1 rs2 : BitVec 5) :
    opcodeF (packR opcode funct3 funct7 rd rs1 rs2) = opcode := by
  apply BitVec.eq_of_getLsbD_eq
  intro i hi
  simp only [opcodeF, packR, BitVec.getLsbD_extractLsb', BitVec.getLsbD_append]
  interval_cases i <;> simp

@[simp] theorem funct3F_packR (opcode : BitVec 7) (funct3 : BitVec 3) (funct7 : BitVec 7) (rd rs1 rs2 : BitVec 5) :
    funct3F (packR opcode funct3 funct7 rd rs1 rs2) = funct3 := by
  apply BitVec.eq_of_getLsbD_eq
  intro i hi
  simp only [funct3F, packR, BitVec.getLsbD_extractLsb', BitVec.getLsbD_append]
  interval_cases i <;> simp

@[simp] theorem funct7F_packR (opcode : BitVec 7) (funct3 : BitVec 3) (funct7 : BitVec 7) (rd rs1 rs2 : BitVec 5) :
    funct7F (packR opcode funct3 funct7 rd rs1 rs2) = funct7 := by
  apply BitVec.eq_of_getLsbD_eq
  intro i hi
  simp only [funct7F, packR, BitVec.getLsbD_extractLsb', BitVec.getLsbD_append]
  interval_cases i <;> simp

@[simp] theorem rdF_packR (opcode : BitVec 7) (funct3 : BitVec 3) (funct7 : BitVec 7) (rd rs1 rs2 : BitVec 5) :
    rdF (packR opcode funct3 funct7 rd rs1 rs2) = rd.toFin := by
  refine congrArg BitVec.toFin ?_
  apply BitVec.eq_of_getLsbD_eq
  intro i hi
  simp only [packR, BitVec.getLsbD_extractLsb', BitVec.getLsbD_append]
  interval_cases i <;> simp

@[simp] theorem rs1F_packR (opcode : BitVec 7) (funct3 : BitVec 3) (funct7 : BitVec 7) (rd rs1 rs2 : BitVec 5) :
    rs1F (packR opcode funct3 funct7 rd rs1 rs2) = rs1.toFin := by
  refine congrArg BitVec.toFin ?_
  apply BitVec.eq_of_getLsbD_eq
  intro i hi
  simp only [packR, BitVec.getLsbD_extractLsb', BitVec.getLsbD_append]
  interval_cases i <;> simp

@[simp] theorem rs2F_packR (opcode : BitVec 7) (funct3 : BitVec 3) (funct7 : BitVec 7) (rd rs1 rs2 : BitVec 5) :
    rs2F (packR opcode funct3 funct7 rd rs1 rs2) = rs2.toFin := by
  refine congrArg BitVec.toFin ?_
  apply BitVec.eq_of_getLsbD_eq
  intro i hi
  simp only [packR, BitVec.getLsbD_extractLsb', BitVec.getLsbD_append]
  interval_cases i <;> simp

@[simp] theorem shamtF_packR (opcode : BitVec 7) (funct3 : BitVec 3) (funct7 : BitVec 7) (rd rs1 rs2 : BitVec 5) :
    shamtF (packR opcode funct3 funct7 rd rs1 rs2) = rs2 := by
  apply BitVec.eq_of_getLsbD_eq
  intro i hi
  simp only [shamtF, packR, BitVec.getLsbD_extractLsb', BitVec.getLsbD_append]
  interval_cases i <;> simp

/-- A word is the R packing of its R fields. -/
theorem packR_fields (w : Word) :
    packR (opcodeF w) (funct3F w) (funct7F w) (regField (rdF w)) (regField (rs1F w)) (regField (rs2F w)) = w := by
  apply BitVec.eq_of_getLsbD_eq
  intro i hi
  simp only [packR, regField, BitVec.ofFin_toFin, opcodeF, funct3F, funct7F, rdF, rs1F, rs2F, BitVec.getLsbD_extractLsb', BitVec.getLsbD_append]
  interval_cases i <;> simp


/-! I format -/

@[simp] theorem opcodeF_packI (opcode : BitVec 7) (funct3 : BitVec 3) (rd rs1 : BitVec 5) (imm : BitVec 12) :
    opcodeF (packI opcode funct3 rd rs1 imm) = opcode := by
  apply BitVec.eq_of_getLsbD_eq
  intro i hi
  simp only [opcodeF, packI, BitVec.getLsbD_extractLsb', BitVec.getLsbD_append]
  interval_cases i <;> simp

@[simp] theorem funct3F_packI (opcode : BitVec 7) (funct3 : BitVec 3) (rd rs1 : BitVec 5) (imm : BitVec 12) :
    funct3F (packI opcode funct3 rd rs1 imm) = funct3 := by
  apply BitVec.eq_of_getLsbD_eq
  intro i hi
  simp only [funct3F, packI, BitVec.getLsbD_extractLsb', BitVec.getLsbD_append]
  interval_cases i <;> simp

@[simp] theorem rdF_packI (opcode : BitVec 7) (funct3 : BitVec 3) (rd rs1 : BitVec 5) (imm : BitVec 12) :
    rdF (packI opcode funct3 rd rs1 imm) = rd.toFin := by
  refine congrArg BitVec.toFin ?_
  apply BitVec.eq_of_getLsbD_eq
  intro i hi
  simp only [packI, BitVec.getLsbD_extractLsb', BitVec.getLsbD_append]
  interval_cases i <;> simp

@[simp] theorem rs1F_packI (opcode : BitVec 7) (funct3 : BitVec 3) (rd rs1 : BitVec 5) (imm : BitVec 12) :
    rs1F (packI opcode funct3 rd rs1 imm) = rs1.toFin := by
  refine congrArg BitVec.toFin ?_
  apply BitVec.eq_of_getLsbD_eq
  intro i hi
  simp only [packI, BitVec.getLsbD_extractLsb', BitVec.getLsbD_append]
  interval_cases i <;> simp

@[simp] theorem immIF_packI (opcode : BitVec 7) (funct3 : BitVec 3) (rd rs1 : BitVec 5) (imm : BitVec 12) :
    immIF (packI opcode funct3 rd rs1 imm) = imm := by
  apply BitVec.eq_of_getLsbD_eq
  intro i hi
  simp only [immIF, packI, BitVec.getLsbD_extractLsb', BitVec.getLsbD_append]
  interval_cases i <;> simp

/-- A word is the I packing of its I fields. -/
theorem packI_fields (w : Word) :
    packI (opcodeF w) (funct3F w) (regField (rdF w)) (regField (rs1F w)) (immIF w) = w := by
  apply BitVec.eq_of_getLsbD_eq
  intro i hi
  simp only [packI, regField, BitVec.ofFin_toFin, opcodeF, funct3F, rdF, rs1F, immIF, BitVec.getLsbD_extractLsb', BitVec.getLsbD_append]
  interval_cases i <;> simp


/-! S format -/

@[simp] theorem opcodeF_packS (opcode : BitVec 7) (funct3 : BitVec 3) (rs1 rs2 : BitVec 5) (imm : BitVec 12) :
    opcodeF (packS opcode funct3 rs1 rs2 imm) = opcode := by
  apply BitVec.eq_of_getLsbD_eq
  intro i hi
  simp only [opcodeF, packS, BitVec.getLsbD_extractLsb', BitVec.getLsbD_append]
  interval_cases i <;> simp

@[simp] theorem funct3F_packS (opcode : BitVec 7) (funct3 : BitVec 3) (rs1 rs2 : BitVec 5) (imm : BitVec 12) :
    funct3F (packS opcode funct3 rs1 rs2 imm) = funct3 := by
  apply BitVec.eq_of_getLsbD_eq
  intro i hi
  simp only [funct3F, packS, BitVec.getLsbD_extractLsb', BitVec.getLsbD_append]
  interval_cases i <;> simp

@[simp] theorem rs1F_packS (opcode : BitVec 7) (funct3 : BitVec 3) (rs1 rs2 : BitVec 5) (imm : BitVec 12) :
    rs1F (packS opcode funct3 rs1 rs2 imm) = rs1.toFin := by
  refine congrArg BitVec.toFin ?_
  apply BitVec.eq_of_getLsbD_eq
  intro i hi
  simp only [packS, BitVec.getLsbD_extractLsb', BitVec.getLsbD_append]
  interval_cases i <;> simp

@[simp] theorem rs2F_packS (opcode : BitVec 7) (funct3 : BitVec 3) (rs1 rs2 : BitVec 5) (imm : BitVec 12) :
    rs2F (packS opcode funct3 rs1 rs2 imm) = rs2.toFin := by
  refine congrArg BitVec.toFin ?_
  apply BitVec.eq_of_getLsbD_eq
  intro i hi
  simp only [packS, BitVec.getLsbD_extractLsb', BitVec.getLsbD_append]
  interval_cases i <;> simp

@[simp] theorem immSF_packS (opcode : BitVec 7) (funct3 : BitVec 3) (rs1 rs2 : BitVec 5) (imm : BitVec 12) :
    immSF (packS opcode funct3 rs1 rs2 imm) = imm := by
  apply BitVec.eq_of_getLsbD_eq
  intro i hi
  simp only [immSF, packS, BitVec.getLsbD_extractLsb', BitVec.getLsbD_append]
  interval_cases i <;> simp

/-- A word is the S packing of its S fields. -/
theorem packS_fields (w : Word) :
    packS (opcodeF w) (funct3F w) (regField (rs1F w)) (regField (rs2F w)) (immSF w) = w := by
  apply BitVec.eq_of_getLsbD_eq
  intro i hi
  simp only [packS, regField, BitVec.ofFin_toFin, opcodeF, funct3F, rs1F, rs2F, immSF, BitVec.getLsbD_extractLsb', BitVec.getLsbD_append]
  interval_cases i <;> simp


/-! B format -/

@[simp] theorem opcodeF_packB (opcode : BitVec 7) (funct3 : BitVec 3) (rs1 rs2 : BitVec 5) (off : BitVec 13) :
    opcodeF (packB opcode funct3 rs1 rs2 off) = opcode := by
  apply BitVec.eq_of_getLsbD_eq
  intro i hi
  simp only [opcodeF, packB, BitVec.getLsbD_extractLsb', BitVec.getLsbD_append]
  interval_cases i <;> simp

@[simp] theorem funct3F_packB (opcode : BitVec 7) (funct3 : BitVec 3) (rs1 rs2 : BitVec 5) (off : BitVec 13) :
    funct3F (packB opcode funct3 rs1 rs2 off) = funct3 := by
  apply BitVec.eq_of_getLsbD_eq
  intro i hi
  simp only [funct3F, packB, BitVec.getLsbD_extractLsb', BitVec.getLsbD_append]
  interval_cases i <;> simp

@[simp] theorem rs1F_packB (opcode : BitVec 7) (funct3 : BitVec 3) (rs1 rs2 : BitVec 5) (off : BitVec 13) :
    rs1F (packB opcode funct3 rs1 rs2 off) = rs1.toFin := by
  refine congrArg BitVec.toFin ?_
  apply BitVec.eq_of_getLsbD_eq
  intro i hi
  simp only [packB, BitVec.getLsbD_extractLsb', BitVec.getLsbD_append]
  interval_cases i <;> simp

@[simp] theorem rs2F_packB (opcode : BitVec 7) (funct3 : BitVec 3) (rs1 rs2 : BitVec 5) (off : BitVec 13) :
    rs2F (packB opcode funct3 rs1 rs2 off) = rs2.toFin := by
  refine congrArg BitVec.toFin ?_
  apply BitVec.eq_of_getLsbD_eq
  intro i hi
  simp only [packB, BitVec.getLsbD_extractLsb', BitVec.getLsbD_append]
  interval_cases i <;> simp

theorem immBF_packB (opcode : BitVec 7) (funct3 : BitVec 3) (rs1 rs2 : BitVec 5) (off : BitVec 13) (h : evenOffset off = true) :
    immBF (packB opcode funct3 rs1 rs2 off) = off := by
  apply BitVec.eq_of_getLsbD_eq
  intro i hi
  rw [evenOffset_iff] at h
  simp only [immBF, packB, BitVec.getLsbD_extractLsb', BitVec.getLsbD_append]
  interval_cases i <;> simp
  simpa using h

/-- The immediate a decoder reads is even. -/
theorem even_immBF (w : Word) : evenOffset (immBF w) = true := by
  rw [evenOffset_iff, immBF, BitVec.getLsbD_append]
  simp

/-- A word is the B packing of its B fields. -/
theorem packB_fields (w : Word) :
    packB (opcodeF w) (funct3F w) (regField (rs1F w)) (regField (rs2F w)) (immBF w) = w := by
  apply BitVec.eq_of_getLsbD_eq
  intro i hi
  simp only [packB, regField, BitVec.ofFin_toFin, opcodeF, funct3F, rs1F, rs2F, immBF, BitVec.getLsbD_extractLsb', BitVec.getLsbD_append]
  interval_cases i <;> simp


/-! U format -/

@[simp] theorem opcodeF_packU (opcode : BitVec 7) (rd : BitVec 5) (imm : BitVec 20) :
    opcodeF (packU opcode rd imm) = opcode := by
  apply BitVec.eq_of_getLsbD_eq
  intro i hi
  simp only [opcodeF, packU, BitVec.getLsbD_extractLsb', BitVec.getLsbD_append]
  interval_cases i <;> simp

@[simp] theorem rdF_packU (opcode : BitVec 7) (rd : BitVec 5) (imm : BitVec 20) :
    rdF (packU opcode rd imm) = rd.toFin := by
  refine congrArg BitVec.toFin ?_
  apply BitVec.eq_of_getLsbD_eq
  intro i hi
  simp only [packU, BitVec.getLsbD_extractLsb', BitVec.getLsbD_append]
  interval_cases i <;> simp

@[simp] theorem immUF_packU (opcode : BitVec 7) (rd : BitVec 5) (imm : BitVec 20) :
    immUF (packU opcode rd imm) = imm := by
  apply BitVec.eq_of_getLsbD_eq
  intro i hi
  simp only [immUF, packU, BitVec.getLsbD_extractLsb', BitVec.getLsbD_append]
  interval_cases i <;> simp

/-- A word is the U packing of its U fields. -/
theorem packU_fields (w : Word) :
    packU (opcodeF w) (regField (rdF w)) (immUF w) = w := by
  apply BitVec.eq_of_getLsbD_eq
  intro i hi
  simp only [packU, regField, BitVec.ofFin_toFin, opcodeF, rdF, immUF, BitVec.getLsbD_extractLsb', BitVec.getLsbD_append]
  interval_cases i <;> simp


/-! J format -/

@[simp] theorem opcodeF_packJ (opcode : BitVec 7) (rd : BitVec 5) (off : BitVec 21) :
    opcodeF (packJ opcode rd off) = opcode := by
  apply BitVec.eq_of_getLsbD_eq
  intro i hi
  simp only [opcodeF, packJ, BitVec.getLsbD_extractLsb', BitVec.getLsbD_append]
  interval_cases i <;> simp

@[simp] theorem rdF_packJ (opcode : BitVec 7) (rd : BitVec 5) (off : BitVec 21) :
    rdF (packJ opcode rd off) = rd.toFin := by
  refine congrArg BitVec.toFin ?_
  apply BitVec.eq_of_getLsbD_eq
  intro i hi
  simp only [packJ, BitVec.getLsbD_extractLsb', BitVec.getLsbD_append]
  interval_cases i <;> simp

theorem immJF_packJ (opcode : BitVec 7) (rd : BitVec 5) (off : BitVec 21) (h : evenOffset off = true) :
    immJF (packJ opcode rd off) = off := by
  apply BitVec.eq_of_getLsbD_eq
  intro i hi
  rw [evenOffset_iff] at h
  simp only [immJF, packJ, BitVec.getLsbD_extractLsb', BitVec.getLsbD_append]
  interval_cases i <;> simp
  simpa using h

/-- The immediate a decoder reads is even. -/
theorem even_immJF (w : Word) : evenOffset (immJF w) = true := by
  rw [evenOffset_iff, immJF, BitVec.getLsbD_append]
  simp

/-- A word is the J packing of its J fields. -/
theorem packJ_fields (w : Word) :
    packJ (opcodeF w) (regField (rdF w)) (immJF w) = w := by
  apply BitVec.eq_of_getLsbD_eq
  intro i hi
  simp only [packJ, regField, BitVec.ofFin_toFin, opcodeF, rdF, immJF, BitVec.getLsbD_extractLsb', BitVec.getLsbD_append]
  interval_cases i <;> simp

/-! The immediates as words (R80 to R83) read back from the packed words, in R248's own form -/

@[simp] theorem immI_packI (opcode : BitVec 7) (funct3 : BitVec 3) (rd rs1 : BitVec 5) (imm : BitVec 12) :
    immI (packI opcode funct3 rd rs1 imm) = signExt imm := by simp [immI]

@[simp] theorem immS_packS (opcode : BitVec 7) (funct3 : BitVec 3) (rs1 rs2 : BitVec 5) (imm : BitVec 12) :
    immS (packS opcode funct3 rs1 rs2 imm) = signExt imm := by simp [immS]

theorem immB_packB (opcode : BitVec 7) (funct3 : BitVec 3) (rs1 rs2 : BitVec 5) (off : BitVec 13)
    (h : evenOffset off = true) : immB (packB opcode funct3 rs1 rs2 off) = signExt off := by
  rw [immB, immBF_packB _ _ _ _ _ h]

theorem immJ_packJ (opcode : BitVec 7) (rd : BitVec 5) (off : BitVec 21) (h : evenOffset off = true) :
    immJ (packJ opcode rd off) = signExt off := by
  rw [immJ, immJF_packJ _ _ _ h]

theorem immU_packU (opcode : BitVec 7) (rd : BitVec 5) (imm : BitVec 20) :
    immU (packU opcode rd imm) = imm.setWidth 32 <<< 12 := by
  apply BitVec.eq_of_getLsbD_eq
  intro i hi
  simp only [immU, immUF_packU, upper, BitVec.getLsbD_append, BitVec.getLsbD_shiftLeft, BitVec.getLsbD_setWidth]
  interval_cases i <;> simp

/-! The masks of the opcode table -/

theorem mask_opcode (w : Word) : w &&& 0x0000007F#32 = packU (opcodeF w) 0 0 := by
  apply BitVec.eq_of_getLsbD_eq
  intro i hi
  simp only [packU, opcodeF, BitVec.getLsbD_and, BitVec.getLsbD_extractLsb', BitVec.getLsbD_append]
  interval_cases i <;> simp

theorem mask_funct3 (w : Word) : w &&& 0x0000707F#32 = packI (opcodeF w) (funct3F w) 0 0 0 := by
  apply BitVec.eq_of_getLsbD_eq
  intro i hi
  simp only [packI, opcodeF, funct3F, BitVec.getLsbD_and, BitVec.getLsbD_extractLsb', BitVec.getLsbD_append]
  interval_cases i <;> simp

theorem mask_funct7 (w : Word) : w &&& 0xFE00707F#32 = packR (opcodeF w) (funct3F w) (funct7F w) 0 0 0 := by
  apply BitVec.eq_of_getLsbD_eq
  intro i hi
  simp only [packR, opcodeF, funct3F, funct7F, BitVec.getLsbD_and, BitVec.getLsbD_extractLsb', BitVec.getLsbD_append]
  interval_cases i <;> simp

/-- What the rows of each mask select, in terms of the fields. -/
theorem selects_opcode (m : Mnemonic) (pat w : Word) :
    OpcodeRow.selects ⟨m, pat, 0x0000007F⟩ w = (packU (opcodeF w) 0 0 == pat) :=
  congrArg (· == pat) (mask_opcode w)

theorem selects_funct3 (m : Mnemonic) (pat w : Word) :
    OpcodeRow.selects ⟨m, pat, 0x0000707F⟩ w = (packI (opcodeF w) (funct3F w) 0 0 0 == pat) :=
  congrArg (· == pat) (mask_funct3 w)

theorem selects_funct7 (m : Mnemonic) (pat w : Word) :
    OpcodeRow.selects ⟨m, pat, 0xFE00707F⟩ w = (packR (opcodeF w) (funct3F w) (funct7F w) 0 0 0 == pat) :=
  congrArg (· == pat) (mask_funct7 w)

end Sys2Proof
end

