-- ==== Sys2Proof/Laws/Memory.lean ====
section
/-! SUPPORT. Laws of the memory image: read after write, the canonical form and its preservation, extensionality, and the
wider accesses in terms of bytes. -/

namespace Sys2Proof.Machine

@[simp] theorem Memory.read_nil (a : Nat) : Memory.read [] a = unlistedByte := rfl

theorem Memory.read_cons (k : Nat) (v : Byte) (m : Memory) (a : Nat) :
    Memory.read ((k, v) :: m) a = if k = a then v else Memory.read m a := rfl

/-- An address below every listed one reads as unlisted. -/
theorem Memory.read_of_lt {m : Memory} {a : Nat} (h : ∀ c ∈ m, a < c.1) : Memory.read m a = unlistedByte := by
  induction m with
  | nil => rfl
  | cons c m ih =>
    obtain ⟨k, v⟩ := c
    have hk : a < k := h (k, v) (by simp)
    rw [Memory.read_cons, if_neg (by omega)]
    exact ih fun c hc => h c (by simp [hc])

theorem Memory.wf_tail {c : Host.Cell} {m : Memory} (h : Memory.wf (c :: m)) : Memory.wf m :=
  ⟨(List.pairwise_cons.mp h.1).2, fun d hd => h.2 d (by simp [hd])⟩

theorem Memory.wf_head_lt {c : Host.Cell} {m : Memory} (h : Memory.wf (c :: m)) : ∀ d ∈ m, c.1 < d.1 :=
  (List.pairwise_cons.mp h.1).1

/-- Read after write: the written address reads the byte, every other address reads as before. -/
theorem Memory.read_write {m : Memory} (h : m.wf) (a b : Nat) (v : Byte) :
    (m.write a v).read b = if b = a then v else m.read b := by
  induction m with
  | nil =>
    simp only [Memory.write]
    split
    · rename_i hv; simp [hv]
    · rw [Memory.read_cons]; simp only [eq_comm (a := a)]
  | cons c m ih =>
    obtain ⟨k, w⟩ := c
    have ih := ih (Memory.wf_tail h)
    have hlt := Memory.wf_head_lt h
    simp only [Memory.write]
    by_cases h1 : a < k
    · have hlow : Memory.read ((k, w) :: m) a = unlistedByte := by
        apply Memory.read_of_lt
        intro c hc
        rcases List.mem_cons.mp hc with rfl | hc
        · exact h1
        · have := hlt c hc; simp only at this; omega
      rw [if_pos h1]
      split
      · rename_i hv
        by_cases hb : b = a
        · subst hb; rw [hlow, if_pos rfl, hv]
        · rw [if_neg hb]
      · rw [Memory.read_cons]; simp only [eq_comm (a := a)]
    · rw [if_neg h1]
      by_cases h2 : a = k
      · subst h2
        rw [if_pos rfl]
        split
        · rename_i hv
          by_cases hb : b = a
          · subst hb
            rw [if_pos rfl, hv]
            exact Memory.read_of_lt hlt
          · rw [if_neg hb, Memory.read_cons, if_neg (Ne.symm hb)]
        · rw [Memory.read_cons, Memory.read_cons]
          by_cases hb : b = a
          · simp [hb]
          · simp [hb, Ne.symm hb]
      · rw [if_neg h2, Memory.read_cons, Memory.read_cons, ih]
        by_cases hb : k = b
        · subst hb; simp [Ne.symm h2]
        · simp [hb]

theorem Memory.mem_write {m : Memory} {a : Nat} {v : Byte} {c : Host.Cell} (hc : c ∈ m.write a v) :
    c ∈ m ∨ (c = (a, v) ∧ v ≠ unlistedByte) := by
  induction m with
  | nil => simp only [Memory.write] at hc; split at hc <;> simp_all
  | cons d m ih =>
    obtain ⟨k, w⟩ := d
    simp only [Memory.write] at hc
    split at hc
    · split at hc <;> simp_all
      tauto
    · split at hc
      · split at hc <;> simp_all
        tauto
      · rcases List.mem_cons.mp hc with rfl | hc
        · simp
        · rcases ih hc with h | h
          · simp [h]
          · exact .inr h

/-- Every byte write inside the address space keeps the canonical form. -/
theorem Memory.wf_write {m : Memory} (h : m.wf) {a : Nat} (ha : a < 2 ^ 32) (v : Byte) : (m.write a v).wf := by
  refine ⟨?_, fun c hc => ?_⟩
  · induction m with
    | nil => simp only [Memory.write]; split <;> simp
    | cons c m ih =>
      obtain ⟨k, w⟩ := c
      have hlt := Memory.wf_head_lt h
      have ht := Memory.wf_tail h
      simp only [Memory.write]
      split
      · rename_i h1
        split
        · exact h.1
        · refine List.pairwise_cons.mpr ⟨fun d hd => ?_, h.1⟩
          rcases List.mem_cons.mp hd with rfl | hd
          · exact h1
          · have := hlt d hd; simp only at this ⊢; omega
      · split
        · rename_i h1 h2
          subst h2
          split
          · exact ht.1
          · exact List.pairwise_cons.mpr ⟨hlt, ht.1⟩
        · rename_i h1 h2
          refine List.pairwise_cons.mpr ⟨fun d hd => ?_, ih ht⟩
          rcases Memory.mem_write hd with hd | ⟨rfl, -⟩
          · exact hlt d hd
          · simp only; omega
  · rcases Memory.mem_write hc with hc | ⟨rfl, hv⟩
    · exact h.2 c hc
    · exact ⟨ha, hv⟩

theorem Memory.wf_nil : Memory.wf [] := ⟨List.Pairwise.nil, by simp⟩

/-- Memories in canonical form that read alike are the same data. -/
theorem Memory.ext_of_read {m n : Memory} (hm : m.wf) (hn : n.wf) (h : ∀ a, m.read a = n.read a) : m = n := by
  induction m generalizing n with
  | nil =>
    cases n with
    | nil => rfl
    | cons c n =>
      obtain ⟨k, w⟩ := c
      have := h k
      rw [Memory.read_cons, if_pos rfl] at this
      exact absurd this.symm (hn.2 (k, w) (by simp)).2
  | cons c m ih =>
    obtain ⟨k, v⟩ := c
    have hv := (hm.2 (k, v) (by simp)).2
    have hmlt := Memory.wf_head_lt hm
    cases n with
    | nil =>
      have := h k
      rw [Memory.read_cons, if_pos rfl] at this
      exact absurd this hv
    | cons d n =>
      obtain ⟨l, w⟩ := d
      have hw := (hn.2 (l, w) (by simp)).2
      have hnlt := Memory.wf_head_lt hn
      have hkl : k = l := by
        rcases Nat.lt_trichotomy k l with hlt | heq | hlt
        · have := h k
          rw [Memory.read_cons, if_pos rfl, Memory.read_of_lt (m := (l, w) :: n)] at this
          · exact absurd this hv
          · intro c hc
            rcases List.mem_cons.mp hc with rfl | hc
            · exact hlt
            · have := hnlt c hc; simp only at this; omega
        · exact heq
        · have := h l
          rw [Memory.read_cons (k := l), if_pos rfl, Memory.read_of_lt (m := (k, v) :: m)] at this
          · exact absurd this.symm hw
          · intro c hc
            rcases List.mem_cons.mp hc with rfl | hc
            · exact hlt
            · have := hmlt c hc; simp only at this; omega
      subst hkl
      have hvw : v = w := by have := h k; rwa [Memory.read_cons, Memory.read_cons, if_pos rfl, if_pos rfl] at this
      subst hvw
      rw [ih (Memory.wf_tail hm) (Memory.wf_tail hn)]
      intro a
      by_cases hk : k = a
      · subst hk
        rw [Memory.read_of_lt hmlt, Memory.read_of_lt hnlt]
      · have := h a
        rwa [Memory.read_cons, Memory.read_cons, if_neg hk, if_neg hk] at this

/-! ### Wider accesses -/

theorem byteAddr_lt (a : Word) (j : Nat) : byteAddr a j < 2 ^ 32 := (a + BitVec.ofNat 32 j).isLt

theorem byteAddr_eq_accessAddr (a : Word) (j : Nat) : byteAddr a j = (accessAddr a j).toNat := rfl

/-- The addresses of one access are different. -/
theorem byteAddr_inj {a : Word} {i j : Nat} (hi : i < 2 ^ 32) (hj : j < 2 ^ 32) (h : byteAddr a i = byteAddr a j) :
    i = j := by
  simp only [byteAddr, BitVec.toNat_add, BitVec.toNat_ofNat] at h
  omega

theorem Width.bytes_le (width : Width) : width.bytes ≤ 4 := by cases width <;> decide

theorem Memory.wf_storeBytes {m : Memory} (h : m.wf) (a v : Word) (n : Nat) : (m.storeBytes a v n).wf := by
  induction n with
  | zero => exact h
  | succ n ih => exact Memory.wf_write ih (byteAddr_lt a n) _

theorem Memory.wf_store {m : Memory} (h : m.wf) (width : Width) (a v : Word) : (m.store width a v).wf :=
  Memory.wf_storeBytes h a v _

/-- What a byte reads after a store of n bytes: byte j of the value at `a + j`, and elsewhere what it read before. -/
theorem Memory.read_storeBytes {m : Memory} (h : m.wf) (a v : Word) (n : Nat) (hn : n ≤ 2 ^ 32) (b : Nat) :
    (∀ j < n, b = byteAddr a j → (m.storeBytes a v n).read b = byteOf v j) ∧
    ((∀ j < n, b ≠ byteAddr a j) → (m.storeBytes a v n).read b = m.read b) := by
  induction n with
  | zero => exact ⟨fun j hj => by omega, fun _ => rfl⟩
  | succ n ih =>
    obtain ⟨ih1, ih2⟩ := ih (by omega)
    have hw := Memory.wf_storeBytes h a v n
    refine ⟨fun j hj hb => ?_, fun hb => ?_⟩
    · rw [Memory.storeBytes, Memory.read_write hw]
      by_cases hjn : j = n
      · subst hjn; rw [if_pos hb]
      · rw [if_neg, ih1 j (by omega) hb]
        intro hbn
        exact hjn (byteAddr_inj (by omega) (by omega) (hb.symm.trans hbn))
    · rw [Memory.storeBytes, Memory.read_write hw, if_neg (hb n (by omega)), ih2 fun j hj => hb j (by omega)]

theorem Memory.read_store_inside {m : Memory} (h : m.wf) {width : Width} {a v : Word} {j : Nat}
    (hj : j < width.bytes) : (m.store width a v).read (byteAddr a j) = byteOf v j :=
  (Memory.read_storeBytes h a v _ (by have := width.bytes_le; omega) _).1 j hj rfl

theorem Memory.read_store_outside {m : Memory} (h : m.wf) {width : Width} {a v : Word} {b : Nat}
    (hb : ∀ j < width.bytes, b ≠ byteAddr a j) : (m.store width a v).read b = m.read b :=
  (Memory.read_storeBytes h a v _ (by have := width.bytes_le; omega) _).2 hb

/-- Byte j of a word built from bytes. -/
theorem byteOf_wordOfBytes (b0 b1 b2 b3 : Byte) :
    byteOf (wordOfBytes b0 b1 b2 b3) 0 = b0 ∧ byteOf (wordOfBytes b0 b1 b2 b3) 1 = b1 ∧
    byteOf (wordOfBytes b0 b1 b2 b3) 2 = b2 ∧ byteOf (wordOfBytes b0 b1 b2 b3) 3 = b3 := by
  refine ⟨?_, ?_, ?_, ?_⟩ <;>
  · apply BitVec.eq_of_getLsbD_eq
    intro i hi
    simp only [byteOf, wordOfBytes, BitVec.getLsbD_extractLsb', BitVec.getLsbD_append]
    interval_cases i <;> simp

/-- A word is its four bytes. -/
theorem wordOfBytes_byteOf (v : Word) : wordOfBytes (byteOf v 0) (byteOf v 1) (byteOf v 2) (byteOf v 3) = v := by
  apply BitVec.eq_of_getLsbD_eq
  intro i hi
  simp only [byteOf, wordOfBytes, BitVec.getLsbD_extractLsb', BitVec.getLsbD_append]
  interval_cases i <;> simp

theorem wordOfBytes_toNat (b0 b1 b2 b3 : Byte) :
    (wordOfBytes b0 b1 b2 b3).toNat = b0.toNat + 256 * b1.toNat + 65536 * b2.toNat + 16777216 * b3.toNat := by
  have h0 := b0.isLt
  have h1 := b1.isLt
  have h2 := b2.isLt
  simp only [wordOfBytes, BitVec.toNat_append]
  rw [← Nat.shiftLeft_add_eq_or_of_lt h0, ← Nat.shiftLeft_add_eq_or_of_lt h1, ← Nat.shiftLeft_add_eq_or_of_lt h2]
  simp only [Nat.shiftLeft_eq]
  omega

theorem byteOf_toNat (v : Word) (j : Nat) : (byteOf v j).toNat = v.toNat / 256 ^ j % 256 := by
  simp only [byteOf, BitVec.extractLsb'_toNat, Nat.shiftRight_eq_div_pow, Nat.pow_mul]

/-- A word read after it is stored. -/
theorem Memory.load_store_word {m : Memory} (h : m.wf) (a v : Word) : (m.store .word a v).load .word a = v := by
  simp only [Memory.load]
  rw [Memory.read_store_inside h (by decide), Memory.read_store_inside h (by decide),
    Memory.read_store_inside h (by decide), Memory.read_store_inside h (by decide), wordOfBytes_byteOf]

/-- A load reads only the bytes of its access. -/
theorem Memory.load_congr {m n : Memory} {width : Width} {a : Word}
    (h : ∀ j < width.bytes, m.read (byteAddr a j) = n.read (byteAddr a j)) : m.load width a = n.load width a := by
  cases width with
  | byte => simp only [Memory.load, h 0 (by decide)]
  | half => simp only [Memory.load, h 0 (by decide), h 1 (by decide)]
  | word => simp only [Memory.load, h 0 (by decide), h 1 (by decide), h 2 (by decide), h 3 (by decide)]

theorem lowBytes_eq (width : Width) (v : Word) :
    lowBytes width v = match width with
      | .byte => wordOfBytes (byteOf v 0) 0#8 0#8 0#8
      | .half => wordOfBytes (byteOf v 0) (byteOf v 1) 0#8 0#8
      | .word => v := by
  have hv := v.isLt
  apply BitVec.eq_of_toNat_eq
  cases width <;>
    simp only [lowBytes, Width.bytes, wordOfBytes_toNat, byteOf_toNat, BitVec.toNat_ofNat, Nat.pow_zero, Nat.pow_one,
      Nat.div_one] <;> omega

/-- What a load reads after a store of the same width at the same address. -/
theorem Memory.load_store_same {m : Memory} (h : m.wf) (width : Width) (a v : Word) :
    (m.store width a v).load width a = lowBytes width v := by
  rw [lowBytes_eq]
  cases width with
  | byte => simp only [Memory.load]; rw [Memory.read_store_inside h (by decide)]
  | half =>
    simp only [Memory.load]
    rw [Memory.read_store_inside h (by decide), Memory.read_store_inside h (by decide)]
  | word => exact Memory.load_store_word h a v

/-- Byte j of a loaded value is the byte at `a + j`. -/
theorem Memory.byteOf_load (m : Memory) (width : Width) (a : Word) {j : Nat} (hj : j < width.bytes) :
    byteOf (m.load width a) j = m.read (byteAddr a j) := by
  cases width with
  | byte =>
    have h0 : j = 0 := by simpa [Width.bytes] using hj
    subst h0; exact (byteOf_wordOfBytes _ _ _ _).1
  | half =>
    have h2 : j < 2 := hj
    interval_cases j
    · exact (byteOf_wordOfBytes _ _ _ _).1
    · exact (byteOf_wordOfBytes _ _ _ _).2.1
  | word =>
    have h4 : j < 4 := hj
    interval_cases j
    · exact (byteOf_wordOfBytes _ _ _ _).1
    · exact (byteOf_wordOfBytes _ _ _ _).2.1
    · exact (byteOf_wordOfBytes _ _ _ _).2.2.1
    · exact (byteOf_wordOfBytes _ _ _ _).2.2.2

/-- The value of a load fits its width (R136). -/
theorem Memory.load_lt (m : Memory) (width : Width) (a : Word) : (m.load width a).toNat < 256 ^ width.bytes := by
  cases width with
  | byte =>
    simp only [Memory.load, wordOfBytes_toNat, Width.bytes]
    have := (m.read (byteAddr a 0)).isLt
    simp; omega
  | half =>
    simp only [Memory.load, wordOfBytes_toNat, Width.bytes]
    have := (m.read (byteAddr a 0)).isLt
    have := (m.read (byteAddr a 1)).isLt
    simp; omega
  | word => exact (m.load .word a).isLt

/-- Storing back what was loaded before a store of the same width undoes the store. -/
theorem Memory.store_store_load {m : Memory} (h : m.wf) (width : Width) (a v : Word) :
    (m.store width a v).store width a (m.load width a) = m := by
  have h1 := Memory.wf_store h width a v
  refine Memory.ext_of_read (Memory.wf_store h1 width a _) h fun b => ?_
  by_cases hb : ∃ j < width.bytes, b = byteAddr a j
  · obtain ⟨j, hj, rfl⟩ := hb
    rw [Memory.read_store_inside h1 hj, Memory.byteOf_load m width a hj]
  · have hb : ∀ j < width.bytes, b ≠ byteAddr a j := fun j hj he => hb ⟨j, hj, he⟩
    rw [Memory.read_store_outside h1 hb, Memory.read_store_outside h hb]

theorem Memory.wf_placeWords {m : Memory} (h : m.wf) (a : Word) (ws : List Word) : (m.placeWords a ws).wf := by
  induction ws generalizing m a with
  | nil => exact h
  | cons w ws ih => exact ih (Memory.wf_store h .word a w) _

theorem Memory.wf_placeBytes {m : Memory} (h : m.wf) (a : Word) (bs : List Byte) : (m.placeBytes a bs).wf := by
  induction bs generalizing m a with
  | nil => exact h
  | cons b bs ih => exact ih (Memory.wf_write h a.isLt b) _

end Sys2Proof.Machine
end

