-- ==== Sys2Proof/Laws/State.lean ====
section
/-! SUPPORT. The state's record lemmas: for each update and each field, what the field holds after it. -/

namespace Sys2Proof.Machine

variable (s : State)

/-! `recordPre` -/

@[simp] theorem State.recordPre_params (d : Diff) : (s.recordPre d).params = s.params := rfl
@[simp] theorem State.recordPre_regs (d : Diff) : (s.recordPre d).regs = s.regs := rfl
@[simp] theorem State.recordPre_pc (d : Diff) : (s.recordPre d).pc = s.pc := rfl
@[simp] theorem State.recordPre_mem (d : Diff) : (s.recordPre d).mem = s.mem := rfl
@[simp] theorem State.recordPre_cycles (d : Diff) : (s.recordPre d).cycles = s.cycles := rfl
@[simp] theorem State.recordPre_history (d : Diff) : (s.recordPre d).history = s.history := rfl
@[simp] theorem State.recordPre_numInstrs (d : Diff) : (s.recordPre d).numInstrs = s.numInstrs := rfl
@[simp] theorem State.recordPre_faulted (d : Diff) : (s.recordPre d).faulted = s.faulted := rfl
@[simp] theorem State.recordPre_preList (d : Diff) : (s.recordPre d).preList = s.preList ++ [d] := rfl
@[simp] theorem State.recordPre_postList (d : Diff) : (s.recordPre d).postList = s.postList := rfl
@[simp] theorem State.recordPre_result (d : Diff) : (s.recordPre d).result = s.result := rfl

/-! `recordPost` -/

@[simp] theorem State.recordPost_params (d : Diff) : (s.recordPost d).params = s.params := rfl
@[simp] theorem State.recordPost_regs (d : Diff) : (s.recordPost d).regs = s.regs := rfl
@[simp] theorem State.recordPost_pc (d : Diff) : (s.recordPost d).pc = s.pc := rfl
@[simp] theorem State.recordPost_mem (d : Diff) : (s.recordPost d).mem = s.mem := rfl
@[simp] theorem State.recordPost_cycles (d : Diff) : (s.recordPost d).cycles = s.cycles := rfl
@[simp] theorem State.recordPost_history (d : Diff) : (s.recordPost d).history = s.history := rfl
@[simp] theorem State.recordPost_numInstrs (d : Diff) : (s.recordPost d).numInstrs = s.numInstrs := rfl
@[simp] theorem State.recordPost_faulted (d : Diff) : (s.recordPost d).faulted = s.faulted := rfl
@[simp] theorem State.recordPost_preList (d : Diff) : (s.recordPost d).preList = s.preList := rfl
@[simp] theorem State.recordPost_postList (d : Diff) : (s.recordPost d).postList = s.postList ++ [d] := rfl
@[simp] theorem State.recordPost_result (d : Diff) : (s.recordPost d).result = s.result := rfl

/-! `putReg` -/

@[simp] theorem State.putReg_params (i : Reg) (v : Word) : (s.putReg i v).params = s.params := rfl
@[simp] theorem State.putReg_regs (i : Reg) (v : Word) :
    (s.putReg i v).regs = if i = 0 then s.regs else s.regs.set i.val v i.isLt := rfl
@[simp] theorem State.putReg_pc (i : Reg) (v : Word) : (s.putReg i v).pc = s.pc := rfl
@[simp] theorem State.putReg_mem (i : Reg) (v : Word) : (s.putReg i v).mem = s.mem := rfl
@[simp] theorem State.putReg_cycles (i : Reg) (v : Word) : (s.putReg i v).cycles = s.cycles := rfl
@[simp] theorem State.putReg_history (i : Reg) (v : Word) : (s.putReg i v).history = s.history := rfl
@[simp] theorem State.putReg_numInstrs (i : Reg) (v : Word) : (s.putReg i v).numInstrs = s.numInstrs := rfl
@[simp] theorem State.putReg_faulted (i : Reg) (v : Word) : (s.putReg i v).faulted = s.faulted := rfl
@[simp] theorem State.putReg_preList (i : Reg) (v : Word) : (s.putReg i v).preList = s.preList := rfl
@[simp] theorem State.putReg_postList (i : Reg) (v : Word) : (s.putReg i v).postList = s.postList := rfl
@[simp] theorem State.putReg_result (i : Reg) (v : Word) : (s.putReg i v).result = s.result := rfl

/-! `putPC` -/

@[simp] theorem State.putPC_params (v : Word) : (s.putPC v).params = s.params := rfl
@[simp] theorem State.putPC_regs (v : Word) : (s.putPC v).regs = s.regs := rfl
@[simp] theorem State.putPC_pc (v : Word) : (s.putPC v).pc = v := rfl
@[simp] theorem State.putPC_mem (v : Word) : (s.putPC v).mem = s.mem := rfl
@[simp] theorem State.putPC_cycles (v : Word) : (s.putPC v).cycles = s.cycles := rfl
@[simp] theorem State.putPC_history (v : Word) : (s.putPC v).history = s.history := rfl
@[simp] theorem State.putPC_numInstrs (v : Word) : (s.putPC v).numInstrs = s.numInstrs := rfl
@[simp] theorem State.putPC_faulted (v : Word) : (s.putPC v).faulted = s.faulted := rfl
@[simp] theorem State.putPC_preList (v : Word) : (s.putPC v).preList = s.preList := rfl
@[simp] theorem State.putPC_postList (v : Word) : (s.putPC v).postList = s.postList := rfl
@[simp] theorem State.putPC_result (v : Word) : (s.putPC v).result = s.result := rfl

/-! `putMem` -/

@[simp] theorem State.putMem_params (width : Width) (a v : Word) : (s.putMem width a v).params = s.params := rfl
@[simp] theorem State.putMem_regs (width : Width) (a v : Word) : (s.putMem width a v).regs = s.regs := rfl
@[simp] theorem State.putMem_pc (width : Width) (a v : Word) : (s.putMem width a v).pc = s.pc := rfl
@[simp] theorem State.putMem_mem (width : Width) (a v : Word) :
    (s.putMem width a v).mem = s.mem.store width a v := rfl
@[simp] theorem State.putMem_cycles (width : Width) (a v : Word) : (s.putMem width a v).cycles = s.cycles := rfl
@[simp] theorem State.putMem_history (width : Width) (a v : Word) : (s.putMem width a v).history = s.history := rfl
@[simp] theorem State.putMem_numInstrs (width : Width) (a v : Word) :
    (s.putMem width a v).numInstrs = s.numInstrs := rfl
@[simp] theorem State.putMem_faulted (width : Width) (a v : Word) : (s.putMem width a v).faulted = s.faulted := rfl
@[simp] theorem State.putMem_preList (width : Width) (a v : Word) : (s.putMem width a v).preList = s.preList := rfl
@[simp] theorem State.putMem_postList (width : Width) (a v : Word) : (s.putMem width a v).postList = s.postList := rfl
@[simp] theorem State.putMem_result (width : Width) (a v : Word) : (s.putMem width a v).result = s.result := rfl

/-! `setReg` -/

@[simp] theorem State.setReg_params (i : Reg) (v : Word) : (s.setReg i v).params = s.params := rfl
@[simp] theorem State.setReg_regs (i : Reg) (v : Word) :
    (s.setReg i v).regs = if i = 0 then s.regs else s.regs.set i.val v i.isLt := rfl
@[simp] theorem State.setReg_pc (i : Reg) (v : Word) : (s.setReg i v).pc = s.pc := rfl
@[simp] theorem State.setReg_mem (i : Reg) (v : Word) : (s.setReg i v).mem = s.mem := rfl
@[simp] theorem State.setReg_cycles (i : Reg) (v : Word) : (s.setReg i v).cycles = s.cycles := rfl
@[simp] theorem State.setReg_history (i : Reg) (v : Word) : (s.setReg i v).history = s.history := rfl
@[simp] theorem State.setReg_numInstrs (i : Reg) (v : Word) : (s.setReg i v).numInstrs = s.numInstrs := rfl
@[simp] theorem State.setReg_faulted (i : Reg) (v : Word) : (s.setReg i v).faulted = s.faulted := rfl
@[simp] theorem State.setReg_preList (i : Reg) (v : Word) :
    (s.setReg i v).preList = s.preList ++ [.reg i (s.getReg i)] := rfl
@[simp] theorem State.setReg_postList (i : Reg) (v : Word) :
    (s.setReg i v).postList = s.postList ++ [.reg i ((s.putReg i v).getReg i)] := rfl
@[simp] theorem State.setReg_result (i : Reg) (v : Word) : (s.setReg i v).result = s.result := rfl

/-! `setPC` -/

@[simp] theorem State.setPC_params (v : Word) : (s.setPC v).params = s.params := rfl
@[simp] theorem State.setPC_regs (v : Word) : (s.setPC v).regs = s.regs := rfl
@[simp] theorem State.setPC_pc (v : Word) : (s.setPC v).pc = v := rfl
@[simp] theorem State.setPC_mem (v : Word) : (s.setPC v).mem = s.mem := rfl
@[simp] theorem State.setPC_cycles (v : Word) : (s.setPC v).cycles = s.cycles := rfl
@[simp] theorem State.setPC_history (v : Word) : (s.setPC v).history = s.history := rfl
@[simp] theorem State.setPC_numInstrs (v : Word) : (s.setPC v).numInstrs = s.numInstrs := rfl
@[simp] theorem State.setPC_faulted (v : Word) : (s.setPC v).faulted = s.faulted := rfl
@[simp] theorem State.setPC_preList (v : Word) : (s.setPC v).preList = s.preList ++ [.pc s.pc] := rfl
@[simp] theorem State.setPC_postList (v : Word) : (s.setPC v).postList = s.postList ++ [.pc v] := rfl
@[simp] theorem State.setPC_result (v : Word) : (s.setPC v).result = s.result := rfl

/-! `incrementPC` -/

@[simp] theorem State.incrementPC_params (d : Word) : (s.incrementPC d).params = s.params := rfl
@[simp] theorem State.incrementPC_regs (d : Word) : (s.incrementPC d).regs = s.regs := rfl
@[simp] theorem State.incrementPC_pc (d : Word) : (s.incrementPC d).pc = s.pc + d := rfl
@[simp] theorem State.incrementPC_mem (d : Word) : (s.incrementPC d).mem = s.mem := rfl
@[simp] theorem State.incrementPC_cycles (d : Word) : (s.incrementPC d).cycles = s.cycles := rfl
@[simp] theorem State.incrementPC_history (d : Word) : (s.incrementPC d).history = s.history := rfl
@[simp] theorem State.incrementPC_numInstrs (d : Word) : (s.incrementPC d).numInstrs = s.numInstrs := rfl
@[simp] theorem State.incrementPC_faulted (d : Word) : (s.incrementPC d).faulted = s.faulted := rfl
@[simp] theorem State.incrementPC_preList (d : Word) : (s.incrementPC d).preList = s.preList ++ [.pc s.pc] := rfl
@[simp] theorem State.incrementPC_postList (d : Word) :
    (s.incrementPC d).postList = s.postList ++ [.pc (s.pc + d)] := rfl
@[simp] theorem State.incrementPC_result (d : Word) : (s.incrementPC d).result = s.result := rfl

/-! `store` -/

@[simp] theorem State.store_params (width : Width) (a v : Word) : (s.store width a v).params = s.params := rfl
@[simp] theorem State.store_regs (width : Width) (a v : Word) : (s.store width a v).regs = s.regs := rfl
@[simp] theorem State.store_pc (width : Width) (a v : Word) : (s.store width a v).pc = s.pc := rfl
@[simp] theorem State.store_mem (width : Width) (a v : Word) : (s.store width a v).mem = s.mem.store width a v := rfl
@[simp] theorem State.store_cycles (width : Width) (a v : Word) : (s.store width a v).cycles = s.cycles := rfl
@[simp] theorem State.store_history (width : Width) (a v : Word) : (s.store width a v).history = s.history := rfl
@[simp] theorem State.store_numInstrs (width : Width) (a v : Word) :
    (s.store width a v).numInstrs = s.numInstrs := rfl
@[simp] theorem State.store_faulted (width : Width) (a v : Word) : (s.store width a v).faulted = s.faulted := rfl
@[simp] theorem State.store_preList (width : Width) (a v : Word) :
    (s.store width a v).preList = s.preList ++ [.mem a width (s.mem.load width a)] := rfl
@[simp] theorem State.store_postList (width : Width) (a v : Word) :
    (s.store width a v).postList = s.postList ++ [.mem a width ((s.mem.store width a v).load width a)] := rfl
@[simp] theorem State.store_result (width : Width) (a v : Word) : (s.store width a v).result = s.result := rfl

/-! `beginStep` -/

@[simp] theorem State.beginStep_params : (s.beginStep).params = s.params := rfl
@[simp] theorem State.beginStep_regs : (s.beginStep).regs = s.regs := rfl
@[simp] theorem State.beginStep_pc : (s.beginStep).pc = s.pc := rfl
@[simp] theorem State.beginStep_mem : (s.beginStep).mem = s.mem := rfl
@[simp] theorem State.beginStep_cycles : (s.beginStep).cycles = s.cycles := rfl
@[simp] theorem State.beginStep_history : (s.beginStep).history = s.history := rfl
@[simp] theorem State.beginStep_numInstrs : (s.beginStep).numInstrs = s.numInstrs := rfl
@[simp] theorem State.beginStep_faulted : (s.beginStep).faulted = s.faulted := rfl
@[simp] theorem State.beginStep_preList : (s.beginStep).preList = [] := rfl
@[simp] theorem State.beginStep_postList : (s.beginStep).postList = [] := rfl
@[simp] theorem State.beginStep_result : (s.beginStep).result = s.result := rfl

/-! `endStep` -/

@[simp] theorem State.endStep_params : (s.endStep).params = s.params := rfl
@[simp] theorem State.endStep_regs : (s.endStep).regs = s.regs := rfl
@[simp] theorem State.endStep_pc : (s.endStep).pc = s.pc := rfl
@[simp] theorem State.endStep_mem : (s.endStep).mem = s.mem := rfl
@[simp] theorem State.endStep_cycles : (s.endStep).cycles = s.cycles := rfl
@[simp] theorem State.endStep_history : (s.endStep).history = s.preList :: s.history := rfl
@[simp] theorem State.endStep_numInstrs : (s.endStep).numInstrs = s.numInstrs := rfl
@[simp] theorem State.endStep_faulted : (s.endStep).faulted = s.faulted := rfl
@[simp] theorem State.endStep_preList : (s.endStep).preList = [] := rfl
@[simp] theorem State.endStep_postList : (s.endStep).postList = [] := rfl
@[simp] theorem State.endStep_result : (s.endStep).result = some (.ok s.postList) := rfl

/-! `withFetchWord` -/

@[simp] theorem State.withFetchWord_params (nbits w : Nat) : (s.withFetchWord nbits w).params = s.params := rfl
@[simp] theorem State.withFetchWord_regs (nbits w : Nat) : (s.withFetchWord nbits w).regs = s.regs := rfl
@[simp] theorem State.withFetchWord_pc (nbits w : Nat) : (s.withFetchWord nbits w).pc = s.pc := rfl
@[simp] theorem State.withFetchWord_mem (nbits w : Nat) :
    (s.withFetchWord nbits w).mem = s.mem.store .word s.pc (BitVec.ofNat 32 (w % 2 ^ nbits)) := rfl
@[simp] theorem State.withFetchWord_cycles (nbits w : Nat) : (s.withFetchWord nbits w).cycles = s.cycles := rfl
@[simp] theorem State.withFetchWord_history (nbits w : Nat) : (s.withFetchWord nbits w).history = s.history := rfl
@[simp] theorem State.withFetchWord_numInstrs (nbits w : Nat) :
    (s.withFetchWord nbits w).numInstrs = s.numInstrs := rfl
@[simp] theorem State.withFetchWord_faulted (nbits w : Nat) : (s.withFetchWord nbits w).faulted = none := rfl
@[simp] theorem State.withFetchWord_preList (nbits w : Nat) : (s.withFetchWord nbits w).preList = s.preList := rfl
@[simp] theorem State.withFetchWord_postList (nbits w : Nat) : (s.withFetchWord nbits w).postList = s.postList := rfl
@[simp] theorem State.withFetchWord_result (nbits w : Nat) : (s.withFetchWord nbits w).result = s.result := rfl

/-! Construction -/

@[simp] theorem State.construct_params (p : Params) (prog : Program) : (State.construct p prog).params = p := rfl
@[simp] theorem State.construct_regs (p : Params) (prog : Program) : (State.construct p prog).regs = initialRegs p := rfl
@[simp] theorem State.construct_pc (p : Params) (prog : Program) : (State.construct p prog).pc = p.textBase := rfl
@[simp] theorem State.construct_mem (p : Params) (prog : Program) : (State.construct p prog).mem = initialMem p prog := rfl
@[simp] theorem State.construct_cycles (p : Params) (prog : Program) : (State.construct p prog).cycles = 0 := rfl
@[simp] theorem State.construct_history (p : Params) (prog : Program) : (State.construct p prog).history = [] := rfl
@[simp] theorem State.construct_numInstrs (p : Params) (prog : Program) : (State.construct p prog).numInstrs = prog.instructions.length := rfl
@[simp] theorem State.construct_faulted (p : Params) (prog : Program) : (State.construct p prog).faulted = none := rfl
@[simp] theorem State.construct_preList (p : Params) (prog : Program) : (State.construct p prog).preList = [] := rfl
@[simp] theorem State.construct_postList (p : Params) (prog : Program) : (State.construct p prog).postList = [] := rfl
@[simp] theorem State.construct_result (p : Params) (prog : Program) : (State.construct p prog).result = none := rfl

/-! Readings, each a function of one field -/

@[simp] theorem State.getPC_eq : s.getPC = s.pc := rfl
@[simp] theorem State.load_eq (width : Width) (a : Word) : s.load width a = s.mem.load width a := rfl
theorem State.byteAt_eq (a : Word) : s.byteAt a = s.mem.read a.toNat := rfl
theorem State.fetchWord_eq : s.fetchWord = s.mem.load .word s.pc := rfl

/-- x0 reads 0 in every state (`10_state.md` R23). -/
@[simp] theorem State.getReg_zero : s.getReg 0 = 0 := rfl

theorem State.getReg_of_ne {i : Reg} (h : i ≠ 0) : s.getReg i = s.regs[i] := by simp [State.getReg, h]

theorem State.getReg_congr {s t : State} (h : t.regs = s.regs) (i : Reg) : t.getReg i = s.getReg i := by
  simp [State.getReg, h]

theorem State.byteAt_congr {s t : State} (h : t.mem = s.mem) (a : Word) : t.byteAt a = s.byteAt a := by
  simp [State.byteAt_eq, h]

/-- A register write is read back, except from x0. -/
theorem State.getReg_putReg_self (i : Reg) (v : Word) : (s.putReg i v).getReg i = if i = 0 then 0 else v := by
  by_cases h : i = 0
  · simp [h]
  · simp [State.getReg, h]

/-- A register write changes no other register. -/
theorem State.getReg_putReg_of_ne {i r : Reg} (v : Word) (h : r ≠ i) : (s.putReg i v).getReg r = s.getReg r := by
  by_cases hi : i = 0
  · simp [State.getReg, hi]
  · have hv : i.val ≠ r.val := fun e => h (Fin.ext e.symm)
    simp [State.getReg, hi, Vector.getElem_set_ne _ _ hv]

end Sys2Proof.Machine
end

