-- ==== Sys2Proof/Laws/Exec.lean ====
section
/-! SUPPORT. What a handler can do: the three shapes of a completed step, the effect of each shared operation of
`Machine/Operands.lean`, and the same said once for every instruction. -/

namespace Sys2Proof.Machine

/-! ### The three shapes -/

/-- The next state of a handler that writes a register and the pc. -/
def regStep (s : State) (rd : Reg) (v p : Word) : State := ((s.beginStep.setReg rd v).setPC p).endStep
/-- The next state of a handler that writes the pc alone. -/
def pcStep (s : State) (p : Word) : State := (s.beginStep.setPC p).endStep
/-- The next state of a handler that writes memory and the pc. -/
def memStep (s : State) (width : Width) (a v p : Word) : State := ((s.beginStep.store width a v).setPC p).endStep

/-! Their fields -/

@[simp] theorem regStep_params (s : State) (rd : Reg) (v p : Word) :
    (regStep s rd v p).params = s.params := by simp [regStep]
@[simp] theorem regStep_regs (s : State) (rd : Reg) (v p : Word) :
    (regStep s rd v p).regs = (s.putReg rd v).regs := by simp [regStep]
@[simp] theorem regStep_pc (s : State) (rd : Reg) (v p : Word) :
    (regStep s rd v p).pc = p := by simp [regStep]
@[simp] theorem regStep_mem (s : State) (rd : Reg) (v p : Word) :
    (regStep s rd v p).mem = s.mem := by simp [regStep]
@[simp] theorem regStep_cycles (s : State) (rd : Reg) (v p : Word) :
    (regStep s rd v p).cycles = s.cycles := by simp [regStep]
@[simp] theorem regStep_numInstrs (s : State) (rd : Reg) (v p : Word) :
    (regStep s rd v p).numInstrs = s.numInstrs := by simp [regStep]
@[simp] theorem regStep_faulted (s : State) (rd : Reg) (v p : Word) :
    (regStep s rd v p).faulted = s.faulted := by simp [regStep]
@[simp] theorem regStep_preList (s : State) (rd : Reg) (v p : Word) :
    (regStep s rd v p).preList = [] := by simp [regStep]
@[simp] theorem regStep_postList (s : State) (rd : Reg) (v p : Word) :
    (regStep s rd v p).postList = [] := by simp [regStep]
@[simp] theorem regStep_history (s : State) (rd : Reg) (v p : Word) :
    (regStep s rd v p).history = [.reg rd (s.getReg rd), .pc s.pc] :: s.history := by simp [regStep, State.getReg]
@[simp] theorem regStep_result (s : State) (rd : Reg) (v p : Word) :
    (regStep s rd v p).result = some (.ok [.reg rd ((s.putReg rd v).getReg rd), .pc p]) := by simp [regStep, State.getReg]
@[simp] theorem pcStep_params (s : State) (p : Word) :
    (pcStep s p).params = s.params := by simp [pcStep]
@[simp] theorem pcStep_regs (s : State) (p : Word) :
    (pcStep s p).regs = s.regs := by simp [pcStep]
@[simp] theorem pcStep_pc (s : State) (p : Word) :
    (pcStep s p).pc = p := by simp [pcStep]
@[simp] theorem pcStep_mem (s : State) (p : Word) :
    (pcStep s p).mem = s.mem := by simp [pcStep]
@[simp] theorem pcStep_cycles (s : State) (p : Word) :
    (pcStep s p).cycles = s.cycles := by simp [pcStep]
@[simp] theorem pcStep_numInstrs (s : State) (p : Word) :
    (pcStep s p).numInstrs = s.numInstrs := by simp [pcStep]
@[simp] theorem pcStep_faulted (s : State) (p : Word) :
    (pcStep s p).faulted = s.faulted := by simp [pcStep]
@[simp] theorem pcStep_preList (s : State) (p : Word) :
    (pcStep s p).preList = [] := by simp [pcStep]
@[simp] theorem pcStep_postList (s : State) (p : Word) :
    (pcStep s p).postList = [] := by simp [pcStep]
@[simp] theorem pcStep_history (s : State) (p : Word) :
    (pcStep s p).history = [.pc s.pc] :: s.history := by simp [pcStep]
@[simp] theorem pcStep_result (s : State) (p : Word) :
    (pcStep s p).result = some (.ok [.pc p]) := by simp [pcStep]
@[simp] theorem memStep_params (s : State) (width : Width) (a v p : Word) :
    (memStep s width a v p).params = s.params := by simp [memStep]
@[simp] theorem memStep_regs (s : State) (width : Width) (a v p : Word) :
    (memStep s width a v p).regs = s.regs := by simp [memStep]
@[simp] theorem memStep_pc (s : State) (width : Width) (a v p : Word) :
    (memStep s width a v p).pc = p := by simp [memStep]
@[simp] theorem memStep_mem (s : State) (width : Width) (a v p : Word) :
    (memStep s width a v p).mem = s.mem.store width a v := by simp [memStep]
@[simp] theorem memStep_cycles (s : State) (width : Width) (a v p : Word) :
    (memStep s width a v p).cycles = s.cycles := by simp [memStep]
@[simp] theorem memStep_numInstrs (s : State) (width : Width) (a v p : Word) :
    (memStep s width a v p).numInstrs = s.numInstrs := by simp [memStep]
@[simp] theorem memStep_faulted (s : State) (width : Width) (a v p : Word) :
    (memStep s width a v p).faulted = s.faulted := by simp [memStep]
@[simp] theorem memStep_preList (s : State) (width : Width) (a v p : Word) :
    (memStep s width a v p).preList = [] := by simp [memStep]
@[simp] theorem memStep_postList (s : State) (width : Width) (a v p : Word) :
    (memStep s width a v p).postList = [] := by simp [memStep]
@[simp] theorem memStep_history (s : State) (width : Width) (a v p : Word) :
    (memStep s width a v p).history = [.mem a width (s.mem.load width a), .pc s.pc] :: s.history := by simp [memStep]
@[simp] theorem memStep_result (s : State) (width : Width) (a v p : Word) :
    (memStep s width a v p).result = some (.ok [.mem a width ((s.mem.store width a v).load width a), .pc p]) := by simp [memStep]

theorem regStep_effect (s : State) (rd : Reg) (v p : Word) : RegisterEffect s (regStep s rd v p) rd v p where
  dest := (State.getReg_congr (regStep_regs s rd v p) rd).trans (State.getReg_putReg_self s rd v)
  others := fun r hr => (State.getReg_congr (regStep_regs s rd v p) r).trans (State.getReg_putReg_of_ne s v hr)
  pc := by simp
  mem := State.byteAt_congr (by simp)
  history := by simp
  result := by rw [regStep_result, State.getReg_putReg_self]
  rest := ⟨by simp, by simp, by simp, by simp, by simp, by simp⟩

theorem pcStep_effect (s : State) (p : Word) : PcEffect s (pcStep s p) p where
  pc := by simp
  regs := State.getReg_congr (by simp)
  mem := State.byteAt_congr (by simp)
  history := by simp
  result := by simp
  rest := ⟨by simp, by simp, by simp, by simp, by simp, by simp⟩

theorem memStep_byteAt (s : State) (width : Width) (a v p b : Word) :
    (memStep s width a v p).byteAt b = (s.mem.store width a v).read b.toNat := by
  rw [State.byteAt_eq, memStep_mem]

theorem memStep_effect {s : State} (h : s.mem.wf) (width : Width) (a v : Word) :
    StoreEffect s (memStep s width a v (s.pc + 4)) width a v where
  stored := fun j hj => by
    rw [memStep_byteAt, ← byteAddr_eq_accessAddr, Memory.read_store_inside h hj, byteOf_toNat]
  others := fun b hb => by
    rw [memStep_byteAt, State.byteAt_eq]
    refine Memory.read_store_outside h fun j hj he => hb j hj ?_
    exact BitVec.eq_of_toNat_eq (he.trans (byteAddr_eq_accessAddr a j))
  regs := State.getReg_congr (by simp)
  pc := by simp
  history := by simp
  result := by rw [memStep_result, Memory.load_store_same h]
  rest := ⟨by simp, by simp, by simp, by simp, by simp, by simp⟩

/-! ### The shared operations, in terms of the shapes -/

theorem writeResult_eq (rd : Reg) (v : Word) (s : State) : writeResult rd v s = .next (regStep s rd v (s.pc + 4)) := rfl

theorem linkAndJump_eq (rd : Reg) (target : Word) (s : State) :
    linkAndJump rd target s = .next (regStep s rd (s.pc + 4) target) := rfl

theorem branchIf_eq (cond : Bool) (off : BitVec 13) (s : State) :
    branchIf cond off s = .next (pcStep s (if cond then s.pc + signExt off else s.pc + 4)) := by
  cases cond <;> rfl

theorem loadInto_eq (width : Width) (ext : Word → Word) (rd rs1 : Reg) (imm : BitVec 12) (s : State) :
    loadInto width ext rd rs1 imm s =
      .next (regStep s rd (ext (s.load width (effectiveAddr s rs1 imm))) (s.pc + 4)) := rfl

theorem storeFrom_eq (width : Width) (rs1 rs2 : Reg) (imm : BitVec 12) (s : State) :
    storeFrom width rs1 rs2 imm s =
      .next (memStep s width (effectiveAddr s rs1 imm) (s.getReg rs2) (s.pc + 4)) := rfl

/-! ### Every instruction -/

/-- Every instruction completes in every state, in one of the three shapes (`40_simulator_step.md` R112). -/
theorem exec_cases (i : Instr) (s : State) :
    (∃ rd v p, exec i s = .next (regStep s rd v p)) ∨ (∃ p, exec i s = .next (pcStep s p)) ∨
    (∃ width a v, exec i s = .next (memStep s width a v (s.pc + 4))) := by
  cases i with
  | beq => exact .inr (.inl ⟨_, branchIf_eq _ _ s⟩)
  | bne => exact .inr (.inl ⟨_, branchIf_eq _ _ s⟩)
  | blt => exact .inr (.inl ⟨_, branchIf_eq _ _ s⟩)
  | bge => exact .inr (.inl ⟨_, branchIf_eq _ _ s⟩)
  | bltu => exact .inr (.inl ⟨_, branchIf_eq _ _ s⟩)
  | bgeu => exact .inr (.inl ⟨_, branchIf_eq _ _ s⟩)
  | sb => exact .inr (.inr ⟨_, _, _, rfl⟩)
  | sh => exact .inr (.inr ⟨_, _, _, rfl⟩)
  | sw => exact .inr (.inr ⟨_, _, _, rfl⟩)
  | _ => exact .inl ⟨_, _, _, rfl⟩

/-- The same, of a next state already known. -/
theorem exec_next_cases {i : Instr} {s t : State} (h : exec i s = .next t) :
    (∃ rd v p, t = regStep s rd v p) ∨ (∃ p, t = pcStep s p) ∨ (∃ width a v, t = memStep s width a v (s.pc + 4)) := by
  rcases exec_cases i s with ⟨rd, v, p, e⟩ | ⟨p, e⟩ | ⟨width, a, v, e⟩ <;> rw [e] at h <;> cases h
  · exact .inl ⟨_, _, _, rfl⟩
  · exact .inr (.inl ⟨_, rfl⟩)
  · exact .inr (.inr ⟨_, _, _, rfl⟩)

/-- What a step can do: run a decoded instruction, or meet a word with no handler; a faulted machine answers no next
state. -/
theorem step_next_cases {s t : State} (h : step s = .next t) :
    s.faulted = none ∧
    ((∃ i, decode s.fetchWord = .handler i ∧ exec i s = .next t) ∨
     (∃ w, decode s.fetchWord = .noHandler w ∧ t = s.noHandler s.pc w)) := by
  unfold step at h
  split at h
  · exact nomatch h
  · rename_i hf
    refine ⟨hf, ?_⟩
    split at h
    · rename_i i hd; exact .inl ⟨i, hd, h⟩
    · rename_i w hd; exact .inr ⟨w, hd, by cases h; rfl⟩

/-- `noHandler` under each policy (`40_simulator_step.md` R113, R114). -/
theorem noHandler_fail {s : State} (h : s.params.invalidPolicy = .fail) (a w : Word) :
    s.noHandler a w = { s with faulted := some (a, w), result := some (.invalid a w) } := by
  simp [State.noHandler, h]

theorem noHandler_skip {s : State} (h : s.params.invalidPolicy = .skip) (a w : Word) :
    s.noHandler a w = { s with history := [] :: s.history, result := some (.ok []) } := by
  simp [State.noHandler, h]

/-- A decoded word that has no handler is the word that was decoded. -/
theorem decode_noHandler {w v : Word} (h : decode w = .noHandler v) : v = w := by
  unfold decode at h
  split at h <;> cases h
  rfl

end Sys2Proof.Machine
end

