-- ==== Sys2Proof/Laws/PerInstr.lean ====
section
/-! SUPPORT. Facts stated of every instruction as syntax, one lemma for each constructor. -/

namespace Sys2Proof.Laws.EncodesRow

/-- The instruction's word selects the opcode table's row of its name (`30_encoding.md` R86). -/
def Statement (i : Instr) : Prop := ∃ row ∈ opcodeTable, row.mnemonic = i.mnemonic ∧ row.selects (encode i) = true

theorem lui (rd : Reg) (imm : BitVec 20) : Statement (.lui rd imm) :=
  ⟨⟨.lui, 0x00000037, 0x0000007F⟩, by simp [opcodeTable, upperJumpRows, controlMemoryRows, opImmRows, opRows], rfl,
    by rw [selects_opcode, encode, opcodeF_packU]; decide⟩

theorem auipc (rd : Reg) (imm : BitVec 20) : Statement (.auipc rd imm) :=
  ⟨⟨.auipc, 0x00000017, 0x0000007F⟩, by simp [opcodeTable, upperJumpRows, controlMemoryRows, opImmRows, opRows], rfl,
    by rw [selects_opcode, encode, opcodeF_packU]; decide⟩

theorem jal (rd : Reg) (off : BitVec 21) : Statement (.jal rd off) :=
  ⟨⟨.jal, 0x0000006F, 0x0000007F⟩, by simp [opcodeTable, upperJumpRows, controlMemoryRows, opImmRows, opRows], rfl,
    by rw [selects_opcode, encode, opcodeF_packJ]; decide⟩

theorem jalr (rd rs1 : Reg) (imm : BitVec 12) : Statement (.jalr rd rs1 imm) :=
  ⟨⟨.jalr, 0x00000067, 0x0000707F⟩, by simp [opcodeTable, upperJumpRows, controlMemoryRows, opImmRows, opRows], rfl,
    by rw [selects_funct3, encode, opcodeF_packI, funct3F_packI]; decide⟩

theorem beq (rs1 rs2 : Reg) (off : BitVec 13) : Statement (.beq rs1 rs2 off) :=
  ⟨⟨.beq, 0x00000063, 0x0000707F⟩, by simp [opcodeTable, upperJumpRows, controlMemoryRows, opImmRows, opRows], rfl,
    by rw [selects_funct3, encode, encodeBranch, opcodeF_packB, funct3F_packB]; decide⟩

theorem bne (rs1 rs2 : Reg) (off : BitVec 13) : Statement (.bne rs1 rs2 off) :=
  ⟨⟨.bne, 0x00001063, 0x0000707F⟩, by simp [opcodeTable, upperJumpRows, controlMemoryRows, opImmRows, opRows], rfl,
    by rw [selects_funct3, encode, encodeBranch, opcodeF_packB, funct3F_packB]; decide⟩

theorem blt (rs1 rs2 : Reg) (off : BitVec 13) : Statement (.blt rs1 rs2 off) :=
  ⟨⟨.blt, 0x00004063, 0x0000707F⟩, by simp [opcodeTable, upperJumpRows, controlMemoryRows, opImmRows, opRows], rfl,
    by rw [selects_funct3, encode, encodeBranch, opcodeF_packB, funct3F_packB]; decide⟩

theorem bge (rs1 rs2 : Reg) (off : BitVec 13) : Statement (.bge rs1 rs2 off) :=
  ⟨⟨.bge, 0x00005063, 0x0000707F⟩, by simp [opcodeTable, upperJumpRows, controlMemoryRows, opImmRows, opRows], rfl,
    by rw [selects_funct3, encode, encodeBranch, opcodeF_packB, funct3F_packB]; decide⟩

theorem bltu (rs1 rs2 : Reg) (off : BitVec 13) : Statement (.bltu rs1 rs2 off) :=
  ⟨⟨.bltu, 0x00006063, 0x0000707F⟩, by simp [opcodeTable, upperJumpRows, controlMemoryRows, opImmRows, opRows], rfl,
    by rw [selects_funct3, encode, encodeBranch, opcodeF_packB, funct3F_packB]; decide⟩

theorem bgeu (rs1 rs2 : Reg) (off : BitVec 13) : Statement (.bgeu rs1 rs2 off) :=
  ⟨⟨.bgeu, 0x00007063, 0x0000707F⟩, by simp [opcodeTable, upperJumpRows, controlMemoryRows, opImmRows, opRows], rfl,
    by rw [selects_funct3, encode, encodeBranch, opcodeF_packB, funct3F_packB]; decide⟩

theorem lb (rd rs1 : Reg) (imm : BitVec 12) : Statement (.lb rd rs1 imm) :=
  ⟨⟨.lb, 0x00000003, 0x0000707F⟩, by simp [opcodeTable, upperJumpRows, controlMemoryRows, opImmRows, opRows], rfl,
    by rw [selects_funct3, encode, encodeLoad, opcodeF_packI, funct3F_packI]; decide⟩

theorem lh (rd rs1 : Reg) (imm : BitVec 12) : Statement (.lh rd rs1 imm) :=
  ⟨⟨.lh, 0x00001003, 0x0000707F⟩, by simp [opcodeTable, upperJumpRows, controlMemoryRows, opImmRows, opRows], rfl,
    by rw [selects_funct3, encode, encodeLoad, opcodeF_packI, funct3F_packI]; decide⟩

theorem lw (rd rs1 : Reg) (imm : BitVec 12) : Statement (.lw rd rs1 imm) :=
  ⟨⟨.lw, 0x00002003, 0x0000707F⟩, by simp [opcodeTable, upperJumpRows, controlMemoryRows, opImmRows, opRows], rfl,
    by rw [selects_funct3, encode, encodeLoad, opcodeF_packI, funct3F_packI]; decide⟩

theorem lbu (rd rs1 : Reg) (imm : BitVec 12) : Statement (.lbu rd rs1 imm) :=
  ⟨⟨.lbu, 0x00004003, 0x0000707F⟩, by simp [opcodeTable, upperJumpRows, controlMemoryRows, opImmRows, opRows], rfl,
    by rw [selects_funct3, encode, encodeLoad, opcodeF_packI, funct3F_packI]; decide⟩

theorem lhu (rd rs1 : Reg) (imm : BitVec 12) : Statement (.lhu rd rs1 imm) :=
  ⟨⟨.lhu, 0x00005003, 0x0000707F⟩, by simp [opcodeTable, upperJumpRows, controlMemoryRows, opImmRows, opRows], rfl,
    by rw [selects_funct3, encode, encodeLoad, opcodeF_packI, funct3F_packI]; decide⟩

theorem sb (rs1 rs2 : Reg) (imm : BitVec 12) : Statement (.sb rs1 rs2 imm) :=
  ⟨⟨.sb, 0x00000023, 0x0000707F⟩, by simp [opcodeTable, upperJumpRows, controlMemoryRows, opImmRows, opRows], rfl,
    by rw [selects_funct3, encode, encodeStore, opcodeF_packS, funct3F_packS]; decide⟩

theorem sh (rs1 rs2 : Reg) (imm : BitVec 12) : Statement (.sh rs1 rs2 imm) :=
  ⟨⟨.sh, 0x00001023, 0x0000707F⟩, by simp [opcodeTable, upperJumpRows, controlMemoryRows, opImmRows, opRows], rfl,
    by rw [selects_funct3, encode, encodeStore, opcodeF_packS, funct3F_packS]; decide⟩

theorem sw (rs1 rs2 : Reg) (imm : BitVec 12) : Statement (.sw rs1 rs2 imm) :=
  ⟨⟨.sw, 0x00002023, 0x0000707F⟩, by simp [opcodeTable, upperJumpRows, controlMemoryRows, opImmRows, opRows], rfl,
    by rw [selects_funct3, encode, encodeStore, opcodeF_packS, funct3F_packS]; decide⟩

theorem addi (rd rs1 : Reg) (imm : BitVec 12) : Statement (.addi rd rs1 imm) :=
  ⟨⟨.addi, 0x00000013, 0x0000707F⟩, by simp [opcodeTable, upperJumpRows, controlMemoryRows, opImmRows, opRows], rfl,
    by rw [selects_funct3, encode, encodeOpImm, opcodeF_packI, funct3F_packI]; decide⟩

theorem slti (rd rs1 : Reg) (imm : BitVec 12) : Statement (.slti rd rs1 imm) :=
  ⟨⟨.slti, 0x00002013, 0x0000707F⟩, by simp [opcodeTable, upperJumpRows, controlMemoryRows, opImmRows, opRows], rfl,
    by rw [selects_funct3, encode, encodeOpImm, opcodeF_packI, funct3F_packI]; decide⟩

theorem sltiu (rd rs1 : Reg) (imm : BitVec 12) : Statement (.sltiu rd rs1 imm) :=
  ⟨⟨.sltiu, 0x00003013, 0x0000707F⟩, by simp [opcodeTable, upperJumpRows, controlMemoryRows, opImmRows, opRows], rfl,
    by rw [selects_funct3, encode, encodeOpImm, opcodeF_packI, funct3F_packI]; decide⟩

theorem xori (rd rs1 : Reg) (imm : BitVec 12) : Statement (.xori rd rs1 imm) :=
  ⟨⟨.xori, 0x00004013, 0x0000707F⟩, by simp [opcodeTable, upperJumpRows, controlMemoryRows, opImmRows, opRows], rfl,
    by rw [selects_funct3, encode, encodeOpImm, opcodeF_packI, funct3F_packI]; decide⟩

theorem ori (rd rs1 : Reg) (imm : BitVec 12) : Statement (.ori rd rs1 imm) :=
  ⟨⟨.ori, 0x00006013, 0x0000707F⟩, by simp [opcodeTable, upperJumpRows, controlMemoryRows, opImmRows, opRows], rfl,
    by rw [selects_funct3, encode, encodeOpImm, opcodeF_packI, funct3F_packI]; decide⟩

theorem andi (rd rs1 : Reg) (imm : BitVec 12) : Statement (.andi rd rs1 imm) :=
  ⟨⟨.andi, 0x00007013, 0x0000707F⟩, by simp [opcodeTable, upperJumpRows, controlMemoryRows, opImmRows, opRows], rfl,
    by rw [selects_funct3, encode, encodeOpImm, opcodeF_packI, funct3F_packI]; decide⟩

theorem slli (rd rs1 : Reg) (shamt : BitVec 5) : Statement (.slli rd rs1 shamt) :=
  ⟨⟨.slli, 0x00001013, 0xFE00707F⟩, by simp [opcodeTable, upperJumpRows, controlMemoryRows, opImmRows, opRows], rfl,
    by rw [selects_funct7, encode, encodeShift, opcodeF_packR, funct3F_packR, funct7F_packR]; decide⟩

theorem srli (rd rs1 : Reg) (shamt : BitVec 5) : Statement (.srli rd rs1 shamt) :=
  ⟨⟨.srli, 0x00005013, 0xFE00707F⟩, by simp [opcodeTable, upperJumpRows, controlMemoryRows, opImmRows, opRows], rfl,
    by rw [selects_funct7, encode, encodeShift, opcodeF_packR, funct3F_packR, funct7F_packR]; decide⟩

theorem srai (rd rs1 : Reg) (shamt : BitVec 5) : Statement (.srai rd rs1 shamt) :=
  ⟨⟨.srai, 0x40005013, 0xFE00707F⟩, by simp [opcodeTable, upperJumpRows, controlMemoryRows, opImmRows, opRows], rfl,
    by rw [selects_funct7, encode, encodeShift, opcodeF_packR, funct3F_packR, funct7F_packR]; decide⟩

theorem add (rd rs1 rs2 : Reg) : Statement (.add rd rs1 rs2) :=
  ⟨⟨.add, 0x00000033, 0xFE00707F⟩, by simp [opcodeTable, upperJumpRows, controlMemoryRows, opImmRows, opRows], rfl,
    by rw [selects_funct7, encode, encodeOp, opcodeF_packR, funct3F_packR, funct7F_packR]; decide⟩

theorem sub (rd rs1 rs2 : Reg) : Statement (.sub rd rs1 rs2) :=
  ⟨⟨.sub, 0x40000033, 0xFE00707F⟩, by simp [opcodeTable, upperJumpRows, controlMemoryRows, opImmRows, opRows], rfl,
    by rw [selects_funct7, encode, encodeOp, opcodeF_packR, funct3F_packR, funct7F_packR]; decide⟩

theorem sll (rd rs1 rs2 : Reg) : Statement (.sll rd rs1 rs2) :=
  ⟨⟨.sll, 0x00001033, 0xFE00707F⟩, by simp [opcodeTable, upperJumpRows, controlMemoryRows, opImmRows, opRows], rfl,
    by rw [selects_funct7, encode, encodeOp, opcodeF_packR, funct3F_packR, funct7F_packR]; decide⟩

theorem slt (rd rs1 rs2 : Reg) : Statement (.slt rd rs1 rs2) :=
  ⟨⟨.slt, 0x00002033, 0xFE00707F⟩, by simp [opcodeTable, upperJumpRows, controlMemoryRows, opImmRows, opRows], rfl,
    by rw [selects_funct7, encode, encodeOp, opcodeF_packR, funct3F_packR, funct7F_packR]; decide⟩

theorem sltu (rd rs1 rs2 : Reg) : Statement (.sltu rd rs1 rs2) :=
  ⟨⟨.sltu, 0x00003033, 0xFE00707F⟩, by simp [opcodeTable, upperJumpRows, controlMemoryRows, opImmRows, opRows], rfl,
    by rw [selects_funct7, encode, encodeOp, opcodeF_packR, funct3F_packR, funct7F_packR]; decide⟩

theorem xor (rd rs1 rs2 : Reg) : Statement (.xor rd rs1 rs2) :=
  ⟨⟨.xor, 0x00004033, 0xFE00707F⟩, by simp [opcodeTable, upperJumpRows, controlMemoryRows, opImmRows, opRows], rfl,
    by rw [selects_funct7, encode, encodeOp, opcodeF_packR, funct3F_packR, funct7F_packR]; decide⟩

theorem srl (rd rs1 rs2 : Reg) : Statement (.srl rd rs1 rs2) :=
  ⟨⟨.srl, 0x00005033, 0xFE00707F⟩, by simp [opcodeTable, upperJumpRows, controlMemoryRows, opImmRows, opRows], rfl,
    by rw [selects_funct7, encode, encodeOp, opcodeF_packR, funct3F_packR, funct7F_packR]; decide⟩

theorem sra (rd rs1 rs2 : Reg) : Statement (.sra rd rs1 rs2) :=
  ⟨⟨.sra, 0x40005033, 0xFE00707F⟩, by simp [opcodeTable, upperJumpRows, controlMemoryRows, opImmRows, opRows], rfl,
    by rw [selects_funct7, encode, encodeOp, opcodeF_packR, funct3F_packR, funct7F_packR]; decide⟩

theorem or (rd rs1 rs2 : Reg) : Statement (.or rd rs1 rs2) :=
  ⟨⟨.or, 0x00006033, 0xFE00707F⟩, by simp [opcodeTable, upperJumpRows, controlMemoryRows, opImmRows, opRows], rfl,
    by rw [selects_funct7, encode, encodeOp, opcodeF_packR, funct3F_packR, funct7F_packR]; decide⟩

theorem and (rd rs1 rs2 : Reg) : Statement (.and rd rs1 rs2) :=
  ⟨⟨.and, 0x00007033, 0xFE00707F⟩, by simp [opcodeTable, upperJumpRows, controlMemoryRows, opImmRows, opRows], rfl,
    by rw [selects_funct7, encode, encodeOp, opcodeF_packR, funct3F_packR, funct7F_packR]; decide⟩

end Sys2Proof.Laws.EncodesRow
end

