-- ==== Sys2Proof/Tests/Slice0.lean ====
section
/-! SUPPORT. The model's own tests.  Every expected value stands in `95_test_vectors.md` of the spec (the table is named
above each group) or is worked out by hand from the rule named.  The `witness_` theorems show, for each obligation with
hypotheses, a state and operands that meet them, each clause at a boundary of its range. -/

namespace Sys2Proof.Machine.Tests

/-! ### WellFormed: one ill-formed term for each check -/

theorem test_odd_branch_offset_refused : (Instr.beq 1 2 3).wf = false := by decide
theorem test_odd_branch_offset_refused_everywhere :
    (Instr.bne 1 2 1).wf = false ∧ (Instr.blt 1 2 1).wf = false ∧ (Instr.bge 1 2 1).wf = false ∧
    (Instr.bltu 1 2 1).wf = false ∧ (Instr.bgeu 1 2 4095).wf = false := by decide
theorem test_odd_jump_offset_refused : (Instr.jal 1 7).wf = false := by decide
theorem test_even_offsets_admitted : (Instr.jal 0 0x100000).wf = true ∧ (Instr.bgeu 1 2 4094).wf = true := by decide

/-! ### Decode: a word of every constructor (V-ENC), and words with no handler (V-DEC) -/

theorem test_decode_upper_and_jumps :
    decode 0xFFFFFFB7 = .handler (.lui 31 0xFFFFF) ∧ decode 0x00001297 = .handler (.auipc 5 1) ∧
    decode 0xFFDFF06F = .handler (.jal 0 (BitVec.ofInt 21 (-4))) ∧ decode 0x7FFFF06F = .handler (.jal 0 1048574) ∧
    decode 0x8000006F = .handler (.jal 0 (BitVec.ofInt 21 (-1048576))) ∧
    decode 0x800100E7 = .handler (.jalr 1 2 (BitVec.ofInt 12 (-2048))) := by decide

theorem test_decode_branches :
    decode 0x7E000FE3 = .handler (.beq 0 0 4094) ∧ decode 0xFE209CE3 = .handler (.bne 1 2 (BitVec.ofInt 13 (-8))) ∧
    decode 0x0020C663 = .handler (.blt 1 2 12) ∧ decode 0x0020D863 = .handler (.bge 1 2 16) ∧
    decode 0x0020E463 = .handler (.bltu 1 2 8) ∧
    decode 0x8020F063 = .handler (.bgeu 1 2 (BitVec.ofInt 13 (-4096))) := by decide

theorem test_decode_loads_and_stores :
    decode 0x00010083 = .handler (.lb 1 2 0) ∧ decode 0x00211083 = .handler (.lh 1 2 2) ∧
    decode 0xFFC12083 = .handler (.lw 1 2 (BitVec.ofInt 12 (-4))) ∧ decode 0x00114083 = .handler (.lbu 1 2 1) ∧
    decode 0x00215083 = .handler (.lhu 1 2 2) ∧ decode 0x00110023 = .handler (.sb 2 1 0) ∧
    decode 0x00111123 = .handler (.sh 2 1 2) ∧ decode 0x7E112FA3 = .handler (.sw 2 1 2047) ∧
    decode 0x81FFA023 = .handler (.sw 31 31 (BitVec.ofInt 12 (-2048))) := by decide

theorem test_decode_op_imm :
    decode 0xFFF10093 = .handler (.addi 1 2 (BitVec.ofInt 12 (-1))) ∧
    decode 0xFFF12093 = .handler (.slti 1 2 (BitVec.ofInt 12 (-1))) ∧
    decode 0xFFF13093 = .handler (.sltiu 1 2 (BitVec.ofInt 12 (-1))) ∧
    decode 0xFFF14093 = .handler (.xori 1 2 (BitVec.ofInt 12 (-1))) ∧ decode 0x0F016093 = .handler (.ori 1 2 0xF0) ∧
    decode 0x0FF17093 = .handler (.andi 1 2 0xFF) ∧ decode 0x01F11093 = .handler (.slli 1 2 31) ∧
    decode 0x00415093 = .handler (.srli 1 2 4) ∧ decode 0x40415093 = .handler (.srai 1 2 4) := by decide

theorem test_decode_op :
    decode 0x002081B3 = .handler (.add 3 1 2) ∧ decode 0x402081B3 = .handler (.sub 3 1 2) ∧
    decode 0x002091B3 = .handler (.sll 3 1 2) ∧ decode 0x0020A1B3 = .handler (.slt 3 1 2) ∧
    decode 0x0020B1B3 = .handler (.sltu 3 1 2) ∧ decode 0x0020C1B3 = .handler (.xor 3 1 2) ∧
    decode 0x0020D1B3 = .handler (.srl 3 1 2) ∧ decode 0x4020D1B3 = .handler (.sra 3 1 2) ∧
    decode 0x0020E1B3 = .handler (.or 3 1 2) ∧ decode 0x0020F1B3 = .handler (.and 3 1 2) := by decide

theorem test_no_handler_system_fence_and_op :
    decode 0x00000000 = .noHandler 0x00000000 ∧ decode 0xFFFFFFFF = .noHandler 0xFFFFFFFF ∧
    decode 0x00000073 = .noHandler 0x00000073 ∧ decode 0x00100073 = .noHandler 0x00100073 ∧
    decode 0x30200073 = .noHandler 0x30200073 ∧ decode 0x00001073 = .noHandler 0x00001073 ∧
    decode 0x0000000F = .noHandler 0x0000000F ∧ decode 0x0000100F = .noHandler 0x0000100F ∧
    decode 0x02000033 = .noHandler 0x02000033 ∧ decode 0x02004033 = .noHandler 0x02004033 ∧
    decode 0x40001033 = .noHandler 0x40001033 := by decide
theorem test_no_handler_op_shift_and_load :
    decode 0x40006033 = .noHandler 0x40006033 ∧ decode 0xC0000033 = .noHandler 0xC0000033 ∧
    decode 0x40001013 = .noHandler 0x40001013 ∧ decode 0x02001013 = .noHandler 0x02001013 ∧
    decode 0x02005013 = .noHandler 0x02005013 ∧ decode 0x42005013 = .noHandler 0x42005013 ∧
    decode 0x00003003 = .noHandler 0x00003003 ∧ decode 0x00006003 = .noHandler 0x00006003 ∧
    decode 0x00007003 = .noHandler 0x00007003 := by decide
theorem test_no_handler_store_jalr_and_branch :
    decode 0x00003023 = .noHandler 0x00003023 ∧ decode 0x00004023 = .noHandler 0x00004023 ∧
    decode 0x00001067 = .noHandler 0x00001067 ∧ decode 0xFFFFFFE7 = .noHandler 0xFFFFFFE7 ∧
    decode 0x00002063 = .noHandler 0x00002063 ∧ decode 0x00003063 = .noHandler 0x00003063 := by decide
theorem test_no_handler_other_opcodes :
    decode 0x00000001 = .noHandler 0x00000001 ∧ decode 0x00000002 = .noHandler 0x00000002 ∧
    decode 0x0000001B = .noHandler 0x0000001B ∧ decode 0x0000003B = .noHandler 0x0000003B ∧
    decode 0x0000002F = .noHandler 0x0000002F ∧ decode 0x00000007 = .noHandler 0x00000007 ∧
    decode 0x0000007F = .noHandler 0x0000007F := by decide

/-- V-IMM: one word read through every immediate. -/
theorem test_immediates_of_one_word :
    (immI 0xFE000FA3).toInt = -32 ∧ (immS 0xFE000FA3).toInt = -1 ∧ (immB 0xFE000FA3).toInt = -2 ∧
    immU 0xFE000FA3 = 0xFE000000 ∧ (immJ 0xFE000FA3).toInt = -1046560 := by decide
theorem test_immediates_of_another_word :
    (immI 0x01F11093).toInt = 31 ∧ (immS 0x01F11093).toInt = 1 ∧ (immB 0x01F11093).toInt = 2048 ∧
    immU 0x01F11093 = 0x01F11000 ∧ (immJ 0x01F11093).toInt = 71710 ∧ shamtF 0x01F11093 = 31 := by decide

/-! ### One step -/

/-- The reset machine with these registers and bytes, its pc at `pc` and the word `w` there. -/
def machine (regs : List (Reg × Word)) (bytes : List (Word × Byte)) (pc w : Word) : State :=
  State.withFetchWord
    { State.reset with
      regs := regs.foldl (fun rs x => rs.set x.1.val x.2 x.1.isLt) State.reset.regs
      mem := bytes.foldl (fun m x => m.write x.1.toNat x.2) []
      pc := pc } 32 w.toNat

/-- The next state where there is one, else the state itself. -/
def stepped (s : State) : State :=
  match step s with
  | .next t => t
  | .fault _ => s
  | .refused _ => s

/-- What one step of that machine answers. -/
def answered (regs : List (Reg × Word)) (bytes : List (Word × Byte)) (pc w : Word) : Option StepResult :=
  (stepped (machine regs bytes pc w)).result

/-- The state steps. -/
def steps (s : State) : Bool :=
  match step s with
  | .next _ => true
  | .fault _ => false
  | .refused _ => false

theorem step_stepped {s : State} (h : steps s = true) : step s = .next (stepped s) := by
  unfold steps at h
  unfold stepped
  split at h
  · rename_i t ht; rw [ht]
  · exact absurd h (by decide)
  · exact absurd h (by decide)

theorem step_faulted {s : State} {a w : Word} (h : s.faulted = some (a, w)) :
    step s = .fault (.invalidInstruction a w) := by
  simp only [step, h]

/-- The example memory of V-LS. -/
def memBytes : List (Word × Byte) :=
  [(0x10000000, 0x80), (0x10000001, 0x7F), (0x10000002, 0x34), (0x10000003, 0x92)]

/-! Integer instructions (V-INT) -/

/-- `lui x5, 0xFFFFF` -/
theorem test_lui_sets_bit_31 :
    answered [(5, 0x7)] [] 0 0xFFFFF2B7 = some (.ok [.reg 5 0xFFFFF000, .pc 0x4]) := by decide

/-- `auipc x5, 0x80000` -/
theorem test_auipc_wraps :
    answered [] [] 0x100 0x80000297 = some (.ok [.reg 5 0x80000100, .pc 0x104]) := by decide

/-- `addi x1, x2, 1` -/
theorem test_addi_overflow_wraps :
    answered [(2, 0x7FFFFFFF)] [] 0 0x00110093 = some (.ok [.reg 1 0x80000000, .pc 0x4]) := by decide

/-- `addi x1, x2, -2048` -/
theorem test_addi_minimum_immediate :
    answered [(2, 0)] [] 0 0x80010093 = some (.ok [.reg 1 0xFFFFF800, .pc 0x4]) := by decide

/-- `slti x1, x2, 0` -/
theorem test_slti_signed :
    answered [(2, 0xFFFFFFFF)] [] 0 0x00012093 = some (.ok [.reg 1 0x1, .pc 0x4]) := by decide

/-- `slti x1, x2, -1` -/
theorem test_slti_zero_not_below_minus_one :
    answered [(2, 0)] [] 0 0xFFF12093 = some (.ok [.reg 1 0, .pc 0x4]) := by decide

/-- `sltiu x1, x2, -1` -/
theorem test_sltiu_sign_extends_then_compares :
    answered [(2, 0xFFFFFFFE)] [] 0 0xFFF13093 = some (.ok [.reg 1 0x1, .pc 0x4]) := by decide

/-- `sltiu x1, x2, 1` -/
theorem test_sltiu_seqz :
    answered [(2, 0)] [] 0 0x00113093 = some (.ok [.reg 1 0x1, .pc 0x4]) := by decide

/-- `xori x1, x2, -1` -/
theorem test_xori_not :
    answered [(2, 0xF0F0F0F)] [] 0 0xFFF14093 = some (.ok [.reg 1 0xF0F0F0F0, .pc 0x4]) := by decide

/-- `ori x1, x2, -2048` -/
theorem test_ori_sign_extends :
    answered [(2, 0xF)] [] 0 0x80016093 = some (.ok [.reg 1 0xFFFFF80F, .pc 0x4]) := by decide

/-- `andi x1, x2, 0x7FF` -/
theorem test_andi_mask :
    answered [(2, 0xFFFFFFFF)] [] 0 0x7FF17093 = some (.ok [.reg 1 0x7FF, .pc 0x4]) := by decide

/-- `slli x1, x2, 31` -/
theorem test_slli_31 :
    answered [(2, 0x3)] [] 0 0x01F11093 = some (.ok [.reg 1 0x80000000, .pc 0x4]) := by decide

/-- `srli x1, x2, 31` -/
theorem test_srli_31 :
    answered [(2, 0x80000000)] [] 0 0x01F15093 = some (.ok [.reg 1 0x1, .pc 0x4]) := by decide

/-- `srai x1, x2, 31` -/
theorem test_srai_31 :
    answered [(2, 0x80000000)] [] 0 0x41F15093 = some (.ok [.reg 1 0xFFFFFFFF, .pc 0x4]) := by decide

/-- `add x3, x1, x2` -/
theorem test_add_carry_lost :
    answered [(1, 0xFFFFFFFF), (2, 0x1)] [] 0 0x002081B3 = some (.ok [.reg 3 0, .pc 0x4]) := by decide

/-- `sub x3, x1, x2` -/
theorem test_sub_borrow :
    answered [(1, 0), (2, 0x1)] [] 0 0x402081B3 = some (.ok [.reg 3 0xFFFFFFFF, .pc 0x4]) := by decide

/-- `sll x3, x1, x2` -/
theorem test_sll_low_five_bits :
    answered [(1, 0x1), (2, 0x21)] [] 0 0x002091B3 = some (.ok [.reg 3 0x2, .pc 0x4]) := by decide

/-- `slt x3, x1, x2` -/
theorem test_slt_signed :
    answered [(1, 0x80000000), (2, 0x7FFFFFFF)] [] 0 0x0020A1B3 = some (.ok [.reg 3 0x1, .pc 0x4]) := by decide

/-- `sltu x3, x1, x2` -/
theorem test_sltu_unsigned :
    answered [(1, 0x80000000), (2, 0x7FFFFFFF)] [] 0 0x0020B1B3 = some (.ok [.reg 3 0, .pc 0x4]) := by decide

/-- `xor x3, x1, x2` -/
theorem test_xor :
    answered [(1, 0xFF00FF00), (2, 0xFF00FF0)] [] 0 0x0020C1B3 = some (.ok [.reg 3 0xF0F0F0F0, .pc 0x4]) := by decide

/-- `srl x3, x1, x2` -/
theorem test_srl_low_five_bits :
    answered [(1, 0x80000000), (2, 0xFFFFFFE4)] [] 0 0x0020D1B3 = some (.ok [.reg 3 0x8000000, .pc 0x4]) := by decide

/-- `sra x3, x1, x2` -/
theorem test_sra_low_five_bits :
    answered [(1, 0x80000000), (2, 0xFFFFFFE4)] [] 0 0x4020D1B3 = some (.ok [.reg 3 0xF8000000, .pc 0x4]) := by decide

/-- `or x3, x1, x2` -/
theorem test_or :
    answered [(1, 0xF0), (2, 0xF)] [] 0 0x0020E1B3 = some (.ok [.reg 3 0xFF, .pc 0x4]) := by decide

/-- `and x3, x1, x2` -/
theorem test_and :
    answered [(1, 0xF0), (2, 0x3C)] [] 0 0x0020F1B3 = some (.ok [.reg 3 0x30, .pc 0x4]) := by decide

/-! Control transfer (V-CT) -/

/-- `jal x1, 2048` -/
theorem test_jal_offset_bit_11 :
    answered [] [] 0x100 0x001000EF = some (.ok [.reg 1 0x104, .pc 0x900]) := by decide

/-- `jal x1, -1048576` -/
theorem test_jal_target_wraps :
    answered [] [] 0 0x800000EF = some (.ok [.reg 1 0x4, .pc 0xFFF00000]) := by decide

/-- `jalr x1, x1, 0` -/
theorem test_jalr_source_is_destination :
    answered [(1, 0x201)] [] 0x10 0x000080E7 = some (.ok [.reg 1 0x14, .pc 0x200]) := by decide

/-- `jalr x0, x5, -1` -/
theorem test_jalr_clears_bit_0 :
    answered [(5, 0x104)] [] 0x10 0xFFF28067 = some (.ok [.reg 0 0, .pc 0x102]) := by decide

/-- `bne x1, x2, -8` -/
theorem test_bne_backward :
    answered [(1, 0x5), (2, 0x6)] [] 0x20 0xFE209CE3 = some (.ok [.pc 0x18]) := by decide

/-- `blt x1, x2, 12` -/
theorem test_blt_signed :
    answered [(1, 0xFFFFFFFF), (2, 0)] [] 0x20 0x0020C663 = some (.ok [.pc 0x2C]) := by decide

/-- `bltu x1, x2, 12` -/
theorem test_bltu_unsigned :
    answered [(1, 0xFFFFFFFF), (2, 0)] [] 0x20 0x0020E663 = some (.ok [.pc 0x24]) := by decide

/-- `bge x1, x2, 16` -/
theorem test_bge_equal :
    answered [(1, 0x5), (2, 0x5)] [] 0x20 0x0020D863 = some (.ok [.pc 0x30]) := by decide

/-- `bgeu x1, x2, -4096` -/
theorem test_bgeu_minimum_offset :
    answered [(1, 0x80000000), (2, 0)] [] 0x2000 0x8020F063 = some (.ok [.pc 0x1000]) := by decide

/-- `beq x0, x0, -4` -/
theorem test_beq_target_wraps :
    answered [] [] 0 0xFE000EE3 = some (.ok [.pc 0xFFFFFFFC]) := by decide

/-! Loads and stores (V-LS) -/

/-- `lb x1, 0(x2)` -/
theorem test_lb_sign :
    answered [(2, 0x10000000)] memBytes 0 0x00010083 = some (.ok [.reg 1 0xFFFFFF80, .pc 0x4]) := by decide

/-- `lbu x1, 0(x2)` -/
theorem test_lbu_zero :
    answered [(2, 0x10000000)] memBytes 0 0x00014083 = some (.ok [.reg 1 0x80, .pc 0x4]) := by decide

/-- `lh x1, 1(x2)` -/
theorem test_lh_odd_address :
    answered [(2, 0x10000000)] memBytes 0 0x00111083 = some (.ok [.reg 1 0x347F, .pc 0x4]) := by decide

/-- `lh x1, 2(x2)` -/
theorem test_lh_sign :
    answered [(2, 0x10000000)] memBytes 0 0x00211083 = some (.ok [.reg 1 0xFFFF9234, .pc 0x4]) := by decide

/-- `lhu x1, 2(x2)` -/
theorem test_lhu_zero :
    answered [(2, 0x10000000)] memBytes 0 0x00215083 = some (.ok [.reg 1 0x9234, .pc 0x4]) := by decide

/-- `lw x2, 0(x2)` -/
theorem test_lw_source_is_destination :
    answered [(2, 0x10000000)] memBytes 0 0x00012103 = some (.ok [.reg 2 0x92347F80, .pc 0x4]) := by decide

/-- `sb x1, 3(x2)` -/
theorem test_sb_low_byte :
    answered [(1, 0x12345678), (2, 0x10000000)] memBytes 0 0x001101A3 = some (.ok [.mem 0x10000003 .byte 0x78, .pc 0x4]) := by decide

/-- `sh x1, 1(x2)` -/
theorem test_sh_odd_address :
    answered [(1, 0x12345678), (2, 0x10000000)] memBytes 0 0x001110A3 = some (.ok [.mem 0x10000001 .half 0x5678, .pc 0x4]) := by decide

/-- `sw x2, 0(x2)` -/
theorem test_sw_value_is_address :
    answered [(2, 0x10000000)] memBytes 0 0x00212023 = some (.ok [.mem 0x10000000 .word 0x10000000, .pc 0x4]) := by decide

/-- `lw x1, -1(x2)` -/
theorem test_lw_address_wraps :
    answered [(2, 0)] (memBytes ++ [(0xFFFFFFFF, 0xAA)]) 0 0xFFF12083 = some (.ok [.reg 1 0xF12083AA, .pc 0x4]) := by decide

/-! Writes to x0 (W6) -/

/-- `add x0, x2, x3` -/
theorem test_add_to_x0_discards :
    answered [] [] 0 0x00310033 = some (.ok [.reg 0 0, .pc 0x4]) := by decide

/-- A store's bytes, and a byte beside them (V-LS, after the `sh x1, 1(x2)` row). -/
theorem test_sh_bytes :
    let t := stepped (machine [(1, 0x12345678), (2, 0x10000000)] memBytes 0 0x001110A3)
    (List.range 4).map (fun j => t.byteAt (0x10000000 + BitVec.ofNat 32 j)) = [0x80, 0x78, 0x56, 0x92] := by decide

/-! ### Invalid words, undo and run (V-DIFF, P3) -/

/-- Program Q of V-DIFF. -/
def programQ : Program := ⟨[0x00500093, 0x00000073, 0x00100313], [], [], []⟩
def failQ : State := State.construct suggestedParams programQ
def skipQ : State := State.construct { suggestedParams with maxCycles := 10, invalidPolicy := .skip } programQ
/-- Program P3, with `jal x0, 0` beside `beq x0, x0, 0`. -/
def selfLoop (w : Word) : State := State.construct { suggestedParams with maxCycles := 1 } ⟨[w], [], [], []⟩

theorem test_fail_records_pc_and_word :
    (stepped (stepped failQ)).faulted = some (4, 0x00000073) ∧ (stepped (stepped failQ)).pc = 4 ∧
    (stepped (stepped failQ)).history = (stepped failQ).history := by decide
theorem test_fail_is_sticky : step (stepped (stepped failQ)) = .fault (.invalidInstruction 4 0x00000073) :=
  step_faulted (by decide)
theorem test_undo_keeps_fault :
    (stepped (stepped failQ)).undo.pc = 0 ∧ (stepped (stepped failQ)).undo.getReg 1 = 0 ∧
    (stepped (stepped failQ)).undo.history = [] ∧ (stepped (stepped failQ)).undo.faulted = some (4, 0x00000073) := by decide
theorem test_skip_pushes_empty_set :
    (stepped (stepped skipQ)).history = [[], [.reg 1 0, .pc 0]] ∧ (stepped (stepped skipQ)).pc = 4 ∧
    (stepped (stepped skipQ)).result = some (.ok []) := by decide
theorem test_undo_of_empty_history : failQ.undo = failQ := by decide

/-! ### Encoder and assembler (V-ENC errors, V-ASM, W3, W8) -/

/-- A context with the label `l` at 0x0000000C. -/
def ctx : EncodeCtx := ⟨0, fun name => if name = "l" then some 0xC else none⟩

theorem test_mnemonic_is_case_insensitive : encodeLine "ADD" ["ra", "sp", "gp"] ctx = .ok 0x003100B3 := by decide
theorem test_signed_hex_literal : encodeLine "addi" ["x1", "x0", "-0x10"] ctx = .ok 0xFF000093 := by decide
theorem test_binary_literal : encodeLine "addi" ["x1", "x0", "0b101"] ctx = .ok 0x00500093 := by decide
theorem test_label_target : encodeLine "beq" ["x0", "x0", "l"] ctx = .ok 0x00000663 := by decide
theorem test_no_such_instruction : encodeLine "mul" ["x1", "x2", "x3"] ctx = .error ⟨.noSuchInstruction, "mul"⟩ := by decide
theorem test_operand_count : encodeLine "addi" ["x1", "x2"] ctx = .error ⟨.wrongOperandCount, "addi"⟩ := by decide
theorem test_register_names_are_case_sensitive :
    encodeLine "addi" ["X1", "x0", "1"] ctx = .error ⟨.badRegister, "X1"⟩ := by decide
theorem test_syntax_before_range : encodeLine "lw" ["x1", "5000", "foo"] ctx = .error ⟨.badRegister, "foo"⟩ := by decide
theorem test_bad_immediate : encodeLine "addi" ["x1", "x0", "0x"] ctx = .error ⟨.badImmediate, "0x"⟩ := by decide
theorem test_range_before_evenness :
    encodeLine "beq" ["x1", "x2", "4095"] ctx = .error ⟨.immediateOutOfRange, "4095"⟩ := by decide
theorem test_odd_offset : encodeLine "jal" ["x0", "7"] ctx = .error ⟨.misalignedOffset, "7"⟩ := by decide
theorem test_undefined_label :
    encodeLine "beq" ["x1", "x2", "nowhere"] ctx = .error ⟨.undefinedLabel, "nowhere"⟩ := by decide

theorem test_li_carries :
    expandLine "li" ["x5", "0x12345FFF"] = [["lui", "x5", "74566"], ["addi", "x5", "x5", "-1"]] := by decide
theorem test_li_negative :
    expandLine "LI" ["x5", "-2049"] = [["lui", "x5", "1048575"], ["addi", "x5", "x5", "2047"]] := by decide
theorem test_li_out_of_range_passes_through : expandLine "li" ["x5", "0x100000000"] = [["li", "x5", "0x100000000"]] := by decide
theorem test_pseudo_operand_count : expandLine "nop" ["x1"] = [["nop", "x1"]] := by decide

theorem test_asciiz :
    asciizBytes ".asciiz" (some [0x68, 0x69]) = .ok [0x68, 0x69, 0x00] ∧ asciizBytes ".asciiz" (some []) = .ok [0x00] ∧
    asciizBytes ".asciiz" (some [0x68, 233]) = .error ⟨.nonAsciiString, ".asciiz"⟩ ∧
    asciizBytes ".asciiz" none = .error ⟨.missingString, ".asciiz"⟩ := by decide
theorem test_byte_arguments :
    byteArgs ["1", "-1", "255", "0x80"] = .ok [0x01, 0xFF, 0xFF, 0x80] ∧
    byteArgs ["256"] = .error ⟨.immediateOutOfRange, "256"⟩ ∧
    byteArgs ["-129"] = .error ⟨.immediateOutOfRange, "-129"⟩ := by decide

/-- V-ASM, third row: `a: nop / a: nop / beq x0, x0, a`. -/
def twiceLabelled : List Line :=
  [⟨some "a", ["nop"], none⟩, ⟨some "a", ["nop"], none⟩, ⟨none, ["beq", "x0", "x0", "a"], none⟩]
theorem test_last_label_wins :
    assemble suggestedParams twiceLabelled = .ok ⟨[0x00000013, 0x00000013, 0xFE000EE3], [], [("a", 4)], []⟩ := by decide
/-- V-ASM, fourth row: the two cursors advance separately. -/
theorem test_segment_cursors :
    assemble suggestedParams
      [⟨none, [".data"], none⟩, ⟨some "x", [".byte", "1"], none⟩, ⟨none, [".text"], none⟩, ⟨some "y", ["nop"], none⟩,
       ⟨none, [".data"], none⟩, ⟨some "z", [".byte", "2"], none⟩] =
      .ok ⟨[0x00000013], [0x01, 0x02], [("x", 0x10000000), ("y", 0), ("z", 0x10000001)], []⟩ := by decide
theorem test_unknown_directive :
    assemble suggestedParams [⟨none, ["nop"], none⟩, ⟨none, [".word", "5"], none⟩] =
      .error ⟨.unknownDirective, 2, ".word"⟩ := by decide

/-! ### Witnesses -/

theorem witness_DecodeEncodeRoundTrip : (Instr.bgeu 31 31 (BitVec.ofInt 13 (-4096))).wf = true := by decide
theorem witness_EncodeDecodeRoundTrip : decode 0xFFFFFFB7 = .handler (.lui 31 0xFFFFF) := by decide

/-- A word that selects a row, and one that selects none. -/
theorem witness_DecodeMatchesOpcodeTable :
    (∃ r ∈ opcodeTable, 0x40005013#32 &&& r.mask = r.pattern) ∧
    ∀ r ∈ opcodeTable, 0x42005013#32 &&& r.mask ≠ r.pattern := by decide

/-- A word for each clause, in the order of the clauses. -/
theorem witness_UnmatchedWordsHaveNoHandler_opcodes :
    selectRow 0x00000073 = none ∧ (0x00000002 : Word).extractLsb' 0 2 ≠ 0b11#2 ∧
    opcodeF 0xFFFFFFFF ∉ ([0x37, 0x17, 0x6F, 0x67, 0x63, 0x03, 0x23, 0x13, 0x33] : List (BitVec 7)) ∧
    opcodeF 0x0000000F ∈ ([0x0F, 0x73, 0x2F, 0x07, 0x27, 0x53, 0x43, 0x47, 0x4B, 0x4F, 0x3B, 0x1B, 0x0B, 0x2B, 0x5B, 0x7B] :
      List (BitVec 7)) ∧
    (0x0000007F : Word).extractLsb' 2 3 = 0b111#3 := by
  decide
theorem witness_UnmatchedWordsHaveNoHandler_funct3 :
    (opcodeF 0x00001067 = 0x67 ∧ funct3F 0x00001067 ≠ 0) ∧ (opcodeF 0x00002063 = 0x63 ∧ funct3F 0x00002063 = 2) ∧
    (opcodeF 0x00007003 = 0x03 ∧ funct3F 0x00007003 = 7) ∧
    (opcodeF 0x00003023 = 0x23 ∧ 3 ≤ (funct3F 0x00003023).toNat) := by
  decide
theorem witness_UnmatchedWordsHaveNoHandler_funct7 :
    (opcodeF 0x02001013 = 0x13 ∧ funct3F 0x02001013 = 1 ∧ funct7F 0x02001013 ≠ 0) ∧
    (opcodeF 0x42005013 = 0x13 ∧ funct3F 0x42005013 = 5 ∧ funct7F 0x42005013 ≠ 0 ∧ funct7F 0x42005013 ≠ 0x20) ∧
    (opcodeF 0x02000033 = 0x33 ∧ funct7F 0x02000033 ≠ 0 ∧ funct7F 0x02000033 ≠ 0x20) ∧
    (opcodeF 0x40001033 = 0x33 ∧ funct7F 0x40001033 = 0x20 ∧ funct3F 0x40001033 ≠ 0 ∧ funct3F 0x40001033 ≠ 5) := by
  decide

/-- A hint of each of the four opcodes. -/
theorem witness_HintsOnlyAdvancePc :
    (decode 0xFFFFF037 = .handler (.lui 0 0xFFFFF) ∧ decode 0x00001017 = .handler (.auipc 0 1) ∧
      decode 0x00500013 = .handler (.addi 0 0 5) ∧ decode 0x00310033 = .handler (.add 0 2 3)) ∧
    (rdF 0xFFFFF037 = 0 ∧ rdF 0x00001017 = 0 ∧ rdF 0x00500013 = 0 ∧ rdF 0x00310033 = 0) ∧
    opcodeF 0xFFFFF037 = 0x37 ∧ opcodeF 0x00001017 = 0x17 ∧ opcodeF 0x00500013 = 0x13 ∧ opcodeF 0x00310033 = 0x33 := by decide

theorem witness_ShiftImmediateResults :
    opcodeF 0x02001013 = 0x13 ∧ funct3F 0x02001013 = 1 ∧ funct7F 0x02001013 ≠ 0 := by decide
theorem witness_JumpAndLinkRegisterResult : opcodeF 0xFFFFFFE7 = 0x67 ∧ funct3F 0xFFFFFFE7 ≠ 0 := by decide
theorem witness_JumpAndLinkResult :
    evenOffset (1048574 : BitVec 21) = true ∧ evenOffset (BitVec.ofInt 21 (-1048576)) = true := by decide
theorem witness_BranchResults :
    evenOffset (4094 : BitVec 13) = true ∧ evenOffset (BitVec.ofInt 13 (-4096)) = true := by decide
/-- The effective address wraps. -/
theorem witness_LoadResults :
    (0xFFFFFFFF : Word) = BitVec.ofInt 32 ((State.reset.getReg 0).toInt + (BitVec.ofInt 12 (-1)).toInt) := by decide

/-- A machine whose memory lists bytes, in canonical form. -/
def loaded : State := State.construct suggestedParams ⟨[0x0001A283, 0x00212223], [0x11, 0x00, 0x33], [], []⟩
theorem witness_canonical_memory :
    loaded.mem = [(0, 0x83), (1, 0xA2), (2, 0x01), (4, 0x23), (5, 0x22), (6, 0x21), (0x10000000, 0x11), (0x10000002, 0x33)] ∧
    loaded.mem.wf := by decide
theorem witness_StoreResults : loaded.mem.wf := witness_canonical_memory.2
theorem witness_MemoryIsLittleEndian : loaded.mem.wf ∧ 3 < Width.word.bytes ∧ 0 < Width.byte.bytes := by
  exact ⟨witness_canonical_memory.2, by decide⟩
theorem witness_MixedWidthAccess : loaded.mem.wf ∧ (3 : Nat) < 4 := ⟨witness_canonical_memory.2, by decide⟩
theorem witness_StoreRecordsBothDiffs : loaded.mem.wf := witness_canonical_memory.2
/-- Two states of the same memory, in different states otherwise. -/
theorem witness_CanonicalMemoryIsUnique :
    loaded.mem.wf ∧ (stepped loaded).mem.wf ∧ SameMem loaded (stepped loaded) ∧ stepped loaded ≠ loaded :=
  ⟨witness_canonical_memory.2, by decide, fun _ => rfl, by decide⟩
/-- `sb x2, -1(x0)`: the fetch at 0xFFFFFFFE has the stored byte as its second. -/
theorem witness_FetchSeesTheStore :
    loaded.mem.wf ∧ (1 : Nat) < 4 ∧ 0 < Width.byte.bytes ∧
    accessAddr 0xFFFFFFFE 1 = accessAddr (effectiveAddr loaded 0 (BitVec.ofInt 12 (-1))) 0 := by
  exact ⟨witness_canonical_memory.2, by decide⟩
/-- No diff of a branch's set names a register or a byte. -/
theorem witness_UnnamedLocationsUnchanged :
    loaded.mem.wf ∧ (∀ d ∈ ([.pc 0] : DiffSet), ¬ d.namesReg 1) ∧ ∀ d ∈ ([.pc 0] : DiffSet), ¬ d.namesByte 0 :=
  ⟨witness_canonical_memory.2, by simp [Diff.namesReg], by simp [Diff.namesByte]⟩

theorem witness_StepRunsDecodedInstruction :
    failQ.faulted = none ∧ failQ.byteAt failQ.pc = 0x93 ∧ failQ.byteAt (failQ.pc + 1) = 0x00 ∧
    failQ.byteAt (failQ.pc + 2) = 0x50 ∧ failQ.byteAt (failQ.pc + 3) = 0x00 ∧
    decodeBytes 0x93 0x00 0x50 0x00 = .handler (.addi 1 0 5) := by decide
theorem witness_StepRunsDecodedInstruction_other_clauses :
    (stepped failQ).faulted = none ∧ (stepped failQ).byteAt (stepped failQ).pc = 0x73 ∧
    (stepped failQ).byteAt ((stepped failQ).pc + 1) = 0x00 ∧ decodeBytes 0x73 0x00 0x00 0x00 = .noHandler 0x00000073 ∧
    (stepped (stepped failQ)).faulted = some (4, 0x00000073) := by decide
theorem witness_StepIgnoresIsDone : ∀ k < 4, State.reset.byteAt (accessAddr State.reset.pc k) = 0 := by decide
theorem witness_StepStopsOnlyWhenFaulted :
    failQ.faulted = none ∧ (stepped (stepped failQ)).faulted = some (4, 0x00000073) := by decide
theorem witness_InvalidUnderFailIsPreciseAndSticky :
    (stepped failQ).faulted = none ∧ (stepped failQ).params.invalidPolicy = .fail ∧
    decode (stepped failQ).fetchWord = .noHandler 0x00000073 ∧ (stepped (stepped failQ)).isDone = false := by decide
theorem witness_InvalidUnderSkipPushesEmptySet :
    (stepped skipQ).faulted = none ∧ (stepped skipQ).params.invalidPolicy = .skip ∧
    decode (stepped skipQ).fetchWord = .noHandler 0x00000073 := by decide
theorem witness_RegisterZeroIsHardwired : step failQ = .next (stepped failQ) := step_stepped (by decide)

/-- A step at the text end of an empty Program leaves a state that is `isDone` and faulted (log entry 19). -/
theorem witness_RunFollowsItsLoop_isDone_and_faulted :
    (stepped State.reset).isDone = true ∧ (stepped State.reset).faulted = some (0, 0) := by decide
/-- `isDone` at the text end and one word before it, at MAX_CYCLES and one cycle past it. -/
theorem witness_RunFollowsItsLoop_isDone :
    State.isDone { failQ with pc := 12 } = true ∧ State.isDone { failQ with pc := 8 } = false ∧
    State.isDone { failQ with cycles := 1001 } = true ∧ State.isDone { failQ with cycles := 1000 } = false := by decide
/-- A step that returned Ok, one that returned Invalid, and a faulted machine. -/
theorem witness_RunFollowsItsLoop_steps :
    (failQ.isDone = false ∧ step failQ = .next (stepped failQ) ∧ (stepped failQ).result = some (.ok [.reg 1 5, .pc 4])) ∧
    ((stepped failQ).isDone = false ∧ step (stepped failQ) = .next (stepped (stepped failQ)) ∧
      (stepped (stepped failQ)).result = some (.invalid 4 0x00000073)) ∧
    (stepped (stepped failQ)).isDone = false ∧
    step (stepped (stepped failQ)) = .fault (.invalidInstruction 4 0x00000073) :=
  ⟨⟨by decide, step_stepped (by decide), by decide⟩, ⟨by decide, step_stepped (by decide), by decide⟩, by decide,
    step_faulted (by decide)⟩

/-- Both words of W5. -/
theorem witness_SelfBranchRunsToCeiling :
    (decode (selfLoop 0x0000006F).fetchWord = .handler (.jal 0 0) ∧
      decode (selfLoop 0x00000063).fetchWord = .handler (.beq 0 0 0)) ∧
    (selfLoop 0x0000006F).faulted = none ∧ (selfLoop 0x0000006F).cycles ≤ (selfLoop 0x0000006F).params.maxCycles ∧
    (selfLoop 0x0000006F).pc.toNat <
      (selfLoop 0x0000006F).params.textBase.toNat + 4 * (selfLoop 0x0000006F).numInstrs := by decide
theorem witness_SkipRunsToCeiling :
    (stepped skipQ).faulted = none ∧ (stepped skipQ).params.invalidPolicy = .skip ∧
    (stepped skipQ).cycles ≤ (stepped skipQ).params.maxCycles ∧
    (stepped skipQ).pc.toNat < (stepped skipQ).params.textBase.toNat + 4 * (stepped skipQ).numInstrs ∧
    decode (stepped skipQ).fetchWord = .noHandler 0x00000073 := by decide

theorem witness_UndoKeepsCountersAndFault : failQ.history = [] ∧ (stepped failQ).history ≠ [] := by decide
/-- A load and a store, both stepped. -/
theorem witness_UndoReversesStep :
    loaded.mem.wf ∧ step loaded = .next (stepped loaded) ∧ (stepped loaded).faulted = none ∧
    step (stepped loaded) = .next (stepped (stepped loaded)) ∧ (stepped (stepped loaded)).faulted = none ∧
    (stepped (stepped loaded)).mem ≠ loaded.mem := by
  exact ⟨witness_canonical_memory.2, step_stepped (by decide), by decide, step_stepped (by decide), by decide, by decide⟩
theorem witness_UndoRoundTrip :
    loaded.mem.wf ∧ stepN 2 loaded = .next (stepped (stepped loaded)) ∧ (stepped (stepped loaded)).faulted = none := by
  refine ⟨witness_canonical_memory.2, ?_, by decide⟩
  simp only [stepN, step_stepped (s := loaded) (by decide), step_stepped (s := stepped loaded) (by decide)]
/-- R35: constructed is Ready, a step leaves Ready, its undo comes back to the constructed vector; a counted cycle stays. -/
theorem test_ready :
    loaded.isReady = true ∧ (stepped loaded).isReady = false ∧ (stepped loaded).undo.isReady = true ∧
    (State.undo { stepped loaded with cycles := 1 }).isReady = false := by decide
/-- A step, a counted cycle, an undo and a step again. -/
theorem witness_WholeHistoryUnwinds :
    Reachable failQ (stepped { stepped failQ with cycles := 1 }.undo) := by
  exact .step (.undo (.count (.step .start (step_stepped (by decide))))) (step_stepped (by decide))

/-- A machine that has stepped and steps again, with the invariant. -/
theorem witness_StepKeepsInvariant : (stepped loaded).Inv ∧ step (stepped loaded) = .next (stepped (stepped loaded)) := by
  refine ⟨⟨by decide, by decide, by decide, by decide, ?_, by decide, by decide, ?_⟩, step_stepped (by decide)⟩
  · have h : (stepped loaded).history = [[.reg 5 0, .pc 0]] := by decide
    rw [h]
    intro set hs
    rw [List.mem_singleton.mp hs]
    exact fun h5 => absurd h5 (by decide)
  · have h1 : (stepped loaded).faulted = none := by decide
    have h2 : (stepped loaded).result = some (.ok [.reg 5 0x00330011, .pc 4]) := by decide
    rw [h1, h2]; simp
theorem witness_UndoKeepsInvariant : (stepped loaded).Inv ∧ (stepped loaded).undo ≠ stepped loaded :=
  ⟨witness_StepKeepsInvariant.1, by decide⟩

/-- The last byte of the last word and of the data segment, and bytes outside both. -/
theorem witness_ConstructionState :
    load suggestedParams ⟨[0x0001A283, 0x00212223], [0x11, 0x00, 0x33], [], []⟩ = .next loaded ∧
    ([0x0001A283, 0x00212223] : List Word)[1]? = some 0x00212223 ∧ (3 : Nat) < 4 ∧
    ([0x11, 0x00, 0x33] : List Byte)[2]? = some 0x33 ∧
    (∀ k < 8, (0x00000008 : Word) ≠ accessAddr 0x00000000 k) ∧ ∀ k < 3, (0x10000003 : Word) ≠ accessAddr 0x10000000 k := by
  refine ⟨?_, by decide⟩
  unfold load
  rw [if_pos (by decide)]; rfl
/-- Text that ends exactly at 2^32 is allowed; text that runs past it, data that touches text, and STACK_BASE in the last
byte of data are not. -/
theorem witness_LoadRefusesOtherConfigurations :
    admits { suggestedParams with textBase := 0xFFFFFFFC } ⟨[0x13], [], [], []⟩ = true ∧
    admits { suggestedParams with textBase := 0xFFFFFFFD } ⟨[0x13], [], [], []⟩ = false ∧
    admits { suggestedParams with staticBase := 0x00000004 } ⟨[0x13], [0x01], [], []⟩ = true ∧
    admits { suggestedParams with staticBase := 0x00000003 } ⟨[0x13], [0x01], [], []⟩ = false ∧
    admits { suggestedParams with stackBase := 0x10000000 } ⟨[0x13], [0x01], [], []⟩ = false := by decide

theorem witness_EncoderWordsDecode : encodeLine "Sw" ["x1", "-4", "x2"] ctx = .ok 0xFE112E23 := by decide
/-- The ends of each range, and the values just outside. -/
theorem witness_ImmediateRangesEnforced :
    imm12Field "" (-2048) = .ok 0x800 ∧ imm12Field "" 2047 = .ok 0x7FF ∧
    imm12Field "" 2048 = .error ⟨.immediateOutOfRange, ""⟩ ∧ shamtField "" 31 = .ok 31 ∧
    shamtField "" 32 = .error ⟨.immediateOutOfRange, ""⟩ ∧ imm20Field "" 1048575 = .ok 0xFFFFF ∧
    imm20Field "" (-1) = .error ⟨.immediateOutOfRange, ""⟩ ∧
    offsetField 13 (-4096) 4094 "" 4094 = .ok 4094 ∧ offsetField 13 (-4096) 4094 "" 3 = .error ⟨.misalignedOffset, ""⟩ ∧
    offsetField 13 (-4096) 4094 "" 4095 = .error ⟨.immediateOutOfRange, ""⟩ ∧
    offsetField 21 (-1048576) 1048574 "" (-1048576) = .ok 0x100000 := by decide
theorem witness_RegisterOperandsParse : ("fp", (8 : Reg)) ∈ regNames ∧ ∀ r : Reg, ("q1", r) ∉ regNames := by decide
theorem witness_LabelTargetsAreReached :
    ctx.symbols "l" = some 0xC ∧ encodeLine "jal" ["x1", "l"] ctx = .ok 0x00C000EF ∧
    encodeLine "beq" ["x0", "x0", "l"] ctx = .ok 0x00000663 ∧ realTable[5]?.map Prod.fst = some "bne" ∧
    encodeLine "bne" ["x0", "x0", "l"] ctx = .ok 0x00001663 := by decide
theorem witness_LoadImmediateLoadsItsValue :
    parseReg "x5" = .ok 5 ∧ literal "-2147483648" = some (-(2 ^ 31)) ∧ literal "0xFFFFFFFF" = some (2 ^ 32 - 1) := by decide
/-- The program of `test_last_label_wins` assembles, with a queue of three. -/
theorem witness_AssemblyIsAddressNeutral :
    assemble suggestedParams twiceLabelled = .ok ⟨[0x00000013, 0x00000013, 0xFE000EE3], [], [("a", 4)], []⟩ :=
  test_last_label_wins
/-- Labels at the start and at the end of each segment (R291, C7). -/
def labelledEnds : List Line :=
  [⟨none, [".data"], none⟩, ⟨some "d", [".byte", "1", "2"], none⟩, ⟨some "dEnd", [], none⟩,
   ⟨none, [".text"], none⟩, ⟨some "t", ["nop"], none⟩, ⟨some "tEnd", [], none⟩]
theorem witness_AssembledSymbolTable_segment_ends :
    assemble suggestedParams labelledEnds =
      .ok ⟨[0x00000013], [1, 2], [("d", 0x10000000), ("dEnd", 0x10000002), ("t", 0), ("tEnd", 4)], []⟩ := by decide
theorem witness_AssembledSymbolTable :
    assemble suggestedParams twiceLabelled = .ok ⟨[0x00000013, 0x00000013, 0xFE000EE3], [], [("a", 4)], []⟩ :=
  test_last_label_wins

/-- What pass 1 leaves of two lines. -/
def afterTwo : Asm := ⟨8, 0x10000000, .text, [(["addi", "x0", "x0", "0"], 1), (["mul", "x1"], 2)], [], [], []⟩
/-- A failing third line in pass 1; a failing second list in pass 2. -/
theorem witness_AssemblyStopsAtFirstError :
    pass1 suggestedParams 1 [⟨none, ["nop"], none⟩, ⟨none, ["mul", "x1"], none⟩] (Asm.start suggestedParams) = .ok afterTwo ∧
    afterTwo.line suggestedParams 3 ⟨none, [".word"], none⟩ = .error ⟨.unknownDirective, ".word"⟩ ∧
    afterTwo.queue[1]? = some (["mul", "x1"], 2) ∧
    encodeTokens 0 afterTwo.flush.symbols ["addi", "x0", "x0", "0"] = .ok 0x00000013 ∧
    encodeTokens 4 afterTwo.flush.symbols ["mul", "x1"] = .error ⟨.noSuchInstruction, "mul"⟩ := by decide

end Sys2Proof.Machine.Tests
end

section
/-! Register zero (`10_state.md` R23): the stored x0 is written by no accessor, no `undo` and no step. -/

namespace Sys2Proof.Machine

theorem State.putReg_zeroReg (s : State) (i : Reg) (v : Word) : (s.putReg i v).regs[0] = s.regs[0] := by
  by_cases h : i = 0
  · simp [h]
  · have hv : i.val ≠ 0 := fun e => h (Fin.ext e)
    simp [h, Vector.getElem_set_ne _ _ hv]

theorem Diff.apply_zeroReg (d : Diff) (s : State) : (d.apply s).regs[0] = s.regs[0] := by
  cases d with
  | reg i v => exact s.putReg_zeroReg i v
  | pc v => rfl
  | mem a width v => rfl

theorem applyReversed_zeroReg (set : DiffSet) (s : State) : (applyReversed set s).regs[0] = s.regs[0] := by
  unfold applyReversed
  induction set.reverse generalizing s with
  | nil => rfl
  | cons d ds ih => rw [List.foldl_cons, ih, Diff.apply_zeroReg]

theorem State.undo_zeroReg (s : State) : s.undo.regs[0] = s.regs[0] := by
  unfold State.undo
  split
  · rfl
  · exact applyReversed_zeroReg _ _

theorem noHandler_regs (s : State) (a w : Word) : (s.noHandler a w).regs = s.regs := by
  unfold State.noHandler
  split <;> rfl

theorem exec_zeroReg {i : Instr} {s t : State} (h : exec i s = .next t) : t.regs[0] = s.regs[0] := by
  rcases exec_next_cases h with ⟨rd, v, p, rfl⟩ | ⟨p, rfl⟩ | ⟨width, a, v, rfl⟩
  · simpa only [regStep_regs] using s.putReg_zeroReg rd v
  · simp only [pcStep_regs]
  · simp only [memStep_regs]

theorem step_zeroReg {s t : State} (h : step s = .next t) : t.regs[0] = s.regs[0] := by
  obtain ⟨-, ⟨i, -, hi⟩ | ⟨w, -, rfl⟩⟩ := step_next_cases h
  · exact exec_zeroReg hi
  · simp only [noHandler_regs]

/-- Settles O38: every way to change a register goes through `putReg`, which leaves the stored x0. -/
theorem registerZeroIsHardwired : Obligations.RegisterZeroIsHardwired := by
  intro s
  refine ⟨s.getReg_zero, fun v => ⟨?_, ?_, ?_⟩, s.undo_zeroReg, fun t => step_zeroReg⟩
  · exact s.putReg_zeroReg 0 v
  · rw [State.setReg_preList, State.getReg_zero]
  · rw [State.setReg_postList, State.getReg_zero]

end Sys2Proof.Machine
end

section
/-! Construction (`70_reset_and_hazards.md` R350, R355): the addresses of the text and data segments, what memory reads
after each is placed, and the initial registers. -/

namespace Sys2Proof.Machine

/-! ### The configurations `load` admits -/

theorem disjointRanges_iff (lo1 hi1 lo2 hi2 : Nat) :
    disjointRanges lo1 hi1 lo2 hi2 = true ↔ ∀ a, ¬ ((lo1 ≤ a ∧ a < hi1) ∧ lo2 ≤ a ∧ a < hi2) := by
  simp only [disjointRanges, Bool.or_eq_true, decide_eq_true_eq]
  constructor
  · intro h a ha
    omega
  · intro h
    have hmax := h (max lo1 lo2)
    omega

theorem load_eq_next_iff {p : Params} {prog : Program} {s : State} :
    load p prog = .next s ↔ admits p prog = true ∧ s = State.construct p prog := by
  unfold load
  split
  · next h => simp [h, eq_comm]
  · next h => simp [h]

/-- The part of R355 that placing text and data needs: neither segment wraps, and no address lies in both. -/
theorem segments_of_admits {p : Params} {prog : Program} (h : admits p prog = true) :
    p.textBase.toNat + 4 * prog.instructions.length ≤ 2 ^ 32 ∧
    p.staticBase.toNat + prog.dataSegment.length ≤ 2 ^ 32 ∧
    disjointRanges p.textBase.toNat (p.textBase.toNat + 4 * prog.instructions.length)
      p.staticBase.toNat (p.staticBase.toNat + prog.dataSegment.length) = true := by
  simp only [admits, Bool.and_eq_true, decide_eq_true_eq] at h
  obtain ⟨⟨⟨⟨htext, hdata⟩, hdisj⟩, -⟩, -⟩ := h
  exact ⟨htext, hdata, hdisj⟩

/-! ### Addresses of consecutive bytes -/

theorem byteAddr_zero (a : Word) : byteAddr a 0 = a.toNat := by simp [byteAddr]

theorem byteAddr_add (a : Word) (i j : Nat) : byteAddr (a + BitVec.ofNat 32 i) j = byteAddr a (i + j) := by
  simp only [byteAddr, BitVec.ofNat_add, BitVec.add_assoc]

theorem byteAddr_next_byte (a : Word) (j : Nat) : byteAddr (a + 1) j = byteAddr a (j + 1) :=
  (byteAddr_add a 1 j).trans (by rw [Nat.add_comm])

theorem byteAddr_next_word (a : Word) (j : Nat) : byteAddr (a + ilen) j = byteAddr a (j + 4) :=
  (byteAddr_add a 4 j).trans (by rw [Nat.add_comm])

theorem byteAddr_of_lt {a : Word} {j : Nat} (h : a.toNat + j < 2 ^ 32) : byteAddr a j = a.toNat + j := by
  simp only [byteAddr, BitVec.toNat_add, BitVec.toNat_ofNat]
  omega

/-- In an admitted configuration no byte of text shares its address with a byte of data. -/
theorem text_ne_data_of_admits {p : Params} {prog : Program} (h : admits p prog = true) {i k : Nat}
    (hi : i < 4 * prog.instructions.length) (hk : k < prog.dataSegment.length) :
    byteAddr p.textBase i ≠ byteAddr p.staticBase k := by
  obtain ⟨htext, hdata, hdisj⟩ := segments_of_admits h
  rw [byteAddr_of_lt (by omega), byteAddr_of_lt (by omega)]
  intro he
  exact (disjointRanges_iff _ _ _ _).mp hdisj (p.textBase.toNat + i) (by omega)

/-! ### Memory after a segment is placed -/

theorem Memory.read_placeBytes_outside {m : Memory} (h : m.wf) {a : Word} {bs : List Byte} {b : Nat}
    (hb : ∀ k < bs.length, b ≠ byteAddr a k) : (m.placeBytes a bs).read b = m.read b := by
  induction bs generalizing m a with
  | nil => rfl
  | cons c bs ih =>
    have hhead : b ≠ a.toNat := byteAddr_zero a ▸ hb 0 (by simp)
    have htail : ∀ k < bs.length, b ≠ byteAddr (a + 1) k := fun k hk => by
      rw [byteAddr_next_byte]
      exact hb (k + 1) (by simpa using hk)
    rw [Memory.placeBytes, ih (Memory.wf_write h a.isLt c) htail, Memory.read_write h, if_neg hhead]

theorem Memory.read_placeBytes_inside {m : Memory} (h : m.wf) {a : Word} {bs : List Byte} (hlen : bs.length ≤ 2 ^ 32)
    {k : Nat} {b : Byte} (hk : bs[k]? = some b) : (m.placeBytes a bs).read (byteAddr a k) = b := by
  induction bs generalizing m a k with
  | nil => simp at hk
  | cons c bs ih =>
    rw [List.length_cons] at hlen
    have hw := Memory.wf_write h a.isLt c
    rw [Memory.placeBytes]
    cases k with
    | zero =>
      have hcb : c = b := by simpa using hk
      rw [Memory.read_placeBytes_outside hw, Memory.read_write h, byteAddr_zero, if_pos rfl, hcb]
      intro k hk he
      rw [byteAddr_next_byte] at he
      have := byteAddr_inj (by omega) (by omega) he
      omega
    | succ k =>
      rw [← byteAddr_next_byte]
      exact ih hw (by omega) (by simpa using hk)

theorem Memory.read_placeWords_outside {m : Memory} (h : m.wf) {a : Word} {ws : List Word} {b : Nat}
    (hb : ∀ k < 4 * ws.length, b ≠ byteAddr a k) : (m.placeWords a ws).read b = m.read b := by
  induction ws generalizing m a with
  | nil => rfl
  | cons w ws ih =>
    rw [List.length_cons] at hb
    have hhead : ∀ j < Width.word.bytes, b ≠ byteAddr a j := fun j hj => hb j (by simp only [Width.bytes] at hj; omega)
    have htail : ∀ k < 4 * ws.length, b ≠ byteAddr (a + ilen) k := fun k hk => by
      rw [byteAddr_next_word]
      exact hb (k + 4) (by omega)
    rw [Memory.placeWords, ih (Memory.wf_store h .word a w) htail, Memory.read_store_outside h hhead]

theorem Memory.read_placeWords_inside {m : Memory} (h : m.wf) {a : Word} {ws : List Word}
    (hlen : 4 * ws.length ≤ 2 ^ 32) {k j : Nat} {w : Word} (hk : ws[k]? = some w) (hj : j < 4) :
    (m.placeWords a ws).read (byteAddr a (4 * k + j)) = byteOf w j := by
  induction ws generalizing m a k with
  | nil => simp at hk
  | cons v ws ih =>
    rw [List.length_cons] at hlen
    have hw := Memory.wf_store h .word a v
    rw [Memory.placeWords]
    cases k with
    | zero =>
      have hvw : v = w := by simpa using hk
      rw [Memory.read_placeWords_outside hw, Nat.mul_zero, Nat.zero_add, Memory.read_store_inside h hj, hvw]
      intro i hi he
      rw [byteAddr_next_word] at he
      have := byteAddr_inj (by omega) (by omega) he
      omega
    | succ k =>
      have hshift : 4 * (k + 1) + j = 4 * k + j + 4 := by omega
      rw [hshift, ← byteAddr_next_word]
      exact ih hw (by omega) (by simpa using hk)

/-! ### Memory and registers after construction -/

theorem initialMem_read_text {p : Params} {prog : Program} (h : admits p prog = true) {k j : Nat} {w : Word}
    (hk : prog.instructions[k]? = some w) (hj : j < 4) :
    (initialMem p prog).read (byteAddr p.textBase (4 * k + j)) = byteOf w j := by
  obtain ⟨htext, -, -⟩ := segments_of_admits h
  obtain ⟨hlt, -⟩ := List.getElem?_eq_some_iff.mp hk
  have hdata : ∀ i < prog.dataSegment.length, byteAddr p.textBase (4 * k + j) ≠ byteAddr p.staticBase i :=
    fun i hi => text_ne_data_of_admits h (by omega) hi
  rw [initialMem, Memory.read_placeBytes_outside (Memory.wf_placeWords Memory.wf_nil _ _) hdata,
    Memory.read_placeWords_inside Memory.wf_nil (by omega) hk hj]

theorem initialMem_read_data {p : Params} {prog : Program} (h : admits p prog = true) {k : Nat} {b : Byte}
    (hk : prog.dataSegment[k]? = some b) : (initialMem p prog).read (byteAddr p.staticBase k) = b := by
  obtain ⟨-, hdata, -⟩ := segments_of_admits h
  exact Memory.read_placeBytes_inside (Memory.wf_placeWords Memory.wf_nil _ _) (by omega) hk

theorem initialMem_read_outside {p : Params} {prog : Program} {b : Nat}
    (htext : ∀ k < 4 * prog.instructions.length, b ≠ byteAddr p.textBase k)
    (hdata : ∀ k < prog.dataSegment.length, b ≠ byteAddr p.staticBase k) :
    (initialMem p prog).read b = unlistedByte := by
  rw [initialMem, Memory.read_placeBytes_outside (Memory.wf_placeWords Memory.wf_nil _ _) hdata,
    Memory.read_placeWords_outside Memory.wf_nil htext, Memory.read_nil]

theorem ne_byteAddr_of_ne_accessAddr {a b : Word} {k : Nat} (h : b ≠ accessAddr a k) : b.toNat ≠ byteAddr a k :=
  fun he => h (BitVec.eq_of_toNat_eq he)

theorem construct_getReg_sp (p : Params) (prog : Program) : (State.construct p prog).getReg 2 = p.stackBase := rfl

theorem construct_getReg_gp (p : Params) (prog : Program) : (State.construct p prog).getReg 3 = p.staticBase := rfl

theorem construct_getReg_other (p : Params) (prog : Program) {r : Reg} (hsp : r ≠ 2) (hgp : r ≠ 3) :
    (State.construct p prog).getReg r = 0 := by
  have h2 : 2 ≠ r.val := fun e => hsp (Fin.ext e.symm)
  have h3 : 3 ≠ r.val := fun e => hgp (Fin.ext e.symm)
  simp [State.getReg, initialRegs, Vector.getElem_set_ne _ _ h2, Vector.getElem_set_ne _ _ h3]

/-- Settles O51: text and data lie apart and without wrap (R355), so that each byte is the last one placed at its address. -/
theorem constructionState : Obligations.ConstructionState := by
  intro p prog s hload
  obtain ⟨hadm, rfl⟩ := load_eq_next_iff.mp hload
  refine ⟨State.getReg_zero _, construct_getReg_sp p prog, construct_getReg_gp p prog,
    fun r => construct_getReg_other p prog, State.construct_pc p prog, fun k w hk j hj => ?_,
    fun k b => initialMem_read_data hadm, fun a htext hdata => ?_, State.construct_cycles p prog,
    State.construct_history p prog, State.construct_numInstrs p prog, State.construct_faulted p prog⟩
  · rw [State.byteAt_eq, State.construct_mem, ← byteAddr_eq_accessAddr, initialMem_read_text hadm hk hj, byteOf_toNat]
  · exact initialMem_read_outside (fun k hk => ne_byteAddr_of_ne_accessAddr (htext k hk))
      fun k hk => ne_byteAddr_of_ne_accessAddr (hdata k hk)

end Sys2Proof.Machine
end

section
/-! Little-endian memory (`20_memory.md` R50): the value of each read in the bytes an observer reads, and the bytes of a
store. -/

namespace Sys2Proof.Machine

theorem State.byteAt_eq_read_byteAddr_zero (s : State) (a : Word) : s.byteAt a = s.mem.read (byteAddr a 0) := by
  rw [State.byteAt_eq, byteAddr_zero]

theorem State.byteAt_accessAddr (s : State) (a : Word) (j : Nat) :
    s.byteAt (accessAddr a j) = s.mem.read (byteAddr a j) := rfl

theorem State.loadByte_toNat (s : State) (a : Word) : (s.loadByte a).toNat = (s.byteAt a).toNat := by
  rw [State.byteAt_eq_read_byteAddr_zero]
  exact wordOfBytes_toNat _ _ _ _

theorem State.loadHalfWord_toNat (s : State) (a : Word) :
    (s.loadHalfWord a).toNat = (s.byteAt a).toNat + 256 * (s.byteAt (a + 1)).toNat := by
  rw [State.byteAt_eq_read_byteAddr_zero]
  exact wordOfBytes_toNat _ _ _ _

theorem State.loadWord_toNat (s : State) (a : Word) :
    (s.loadWord a).toNat = (s.byteAt a).toNat + 256 * (s.byteAt (a + 1)).toNat
      + 65536 * (s.byteAt (a + 2)).toNat + 16777216 * (s.byteAt (a + 3)).toNat := by
  rw [State.byteAt_eq_read_byteAddr_zero]
  exact wordOfBytes_toNat _ _ _ _

theorem State.store_byteAt_inside {s : State} (h : s.mem.wf) {width : Width} {a v : Word} {j : Nat}
    (hj : j < width.bytes) : ((s.store width a v).byteAt (accessAddr a j)).toNat = v.toNat / 256 ^ j % 256 := by
  rw [State.byteAt_accessAddr, State.store_mem, Memory.read_store_inside h hj, byteOf_toNat]

/-- Settles O23: a read is `wordOfBytes` of the bytes from `a` on, whose value is their weighted sum, and a store puts
`byteOf v j` at `a + j`. -/
theorem memoryIsLittleEndian : Obligations.MemoryIsLittleEndian := by
  intro s a v
  exact ⟨s.loadByte_toNat a, s.loadHalfWord_toNat a, s.loadWord_toNat a,
    fun hwf width j hj => State.store_byteAt_inside hwf hj⟩

end Sys2Proof.Machine
end

section
/-! The decoder, the other way round (`30_encoding.md` R85 to R91): a decoded word is the word of its instruction, so it
selects a row of the opcode table, and the words of each kind that R91 lists select none. -/

namespace Sys2Proof.Machine

/-! ### `decode` in terms of `decodeWord` -/

theorem decode_handler_iff {w : Word} {i : Instr} : decode w = .handler i ↔ decodeWord w = some i := by
  cases h : decodeWord w <;> simp [decode, h]

theorem decode_of_decodeWord_none {w : Word} (h : decodeWord w = none) : decode w = .noHandler w := by
  simp only [decode, h]

/-! ### The major opcode map (R87) -/

section
variable {w : Word}

theorem decodeWord_lui (h : opcodeF w = 0x37) : decodeWord w = some (.lui (rdF w) (immUF w)) := by
  simp [decodeWord, h]

theorem decodeWord_auipc (h : opcodeF w = 0x17) : decodeWord w = some (.auipc (rdF w) (immUF w)) := by
  simp [decodeWord, h]

theorem decodeWord_jalr (h : opcodeF w = 0x67) :
    decodeWord w = if funct3F w = 0 then some (.jalr (rdF w) (rs1F w) (immIF w)) else none := by
  simp [decodeWord, h]

theorem decodeWord_branch (h : opcodeF w = 0x63) : decodeWord w = decodeBranch w := by simp [decodeWord, h]

theorem decodeWord_load (h : opcodeF w = 0x03) : decodeWord w = decodeLoad w := by simp [decodeWord, h]

theorem decodeWord_store (h : opcodeF w = 0x23) : decodeWord w = decodeStore w := by simp [decodeWord, h]

theorem decodeWord_opImm (h : opcodeF w = 0x13) : decodeWord w = decodeOpImm w := by simp [decodeWord, h]

theorem decodeWord_op (h : opcodeF w = 0x33) : decodeWord w = decodeOp w := by simp [decodeWord, h]

/-- The major opcodes that have an instruction (R87). -/
def majorOpcodes : List (BitVec 7) := [0x37, 0x17, 0x6F, 0x67, 0x63, 0x03, 0x23, 0x13, 0x33]

theorem decodeWord_of_other_opcode (h : opcodeF w ∉ majorOpcodes) : decodeWord w = none := by
  unfold decodeWord
  split
  case h_10 => rfl
  all_goals
    next hop => exact absurd (hop ▸ by decide) h

end

/-! ### A decoded word is the word of its instruction -/

section
variable {w : Word} {i : Instr} {op : BitVec 7} {f3 : BitVec 3} {f7 : BitVec 7}

theorem packR_of_fields (hop : opcodeF w = op) (h3 : funct3F w = f3) (h7 : funct7F w = f7) :
    packR op f3 f7 (regField (rdF w)) (regField (rs1F w)) (regField (rs2F w)) = w := by
  rw [← hop, ← h3, ← h7, packR_fields]

theorem packI_of_fields (hop : opcodeF w = op) (h3 : funct3F w = f3) :
    packI op f3 (regField (rdF w)) (regField (rs1F w)) (immIF w) = w := by
  rw [← hop, ← h3, packI_fields]

theorem packS_of_fields (hop : opcodeF w = op) (h3 : funct3F w = f3) :
    packS op f3 (regField (rs1F w)) (regField (rs2F w)) (immSF w) = w := by
  rw [← hop, ← h3, packS_fields]

theorem packB_of_fields (hop : opcodeF w = op) (h3 : funct3F w = f3) :
    packB op f3 (regField (rs1F w)) (regField (rs2F w)) (immBF w) = w := by
  rw [← hop, ← h3, packB_fields]

theorem packU_of_fields (hop : opcodeF w = op) : packU op (regField (rdF w)) (immUF w) = w := by
  rw [← hop, packU_fields]

theorem packJ_of_fields (hop : opcodeF w = op) : packJ op (regField (rdF w)) (immJF w) = w := by
  rw [← hop, packJ_fields]

theorem encode_of_decodeBranch (hop : opcodeF w = 0x63) (h : decodeBranch w = some i) : encode i = w := by
  unfold decodeBranch at h
  split at h <;> cases h <;> exact packB_of_fields hop ‹_›

theorem encode_of_decodeLoad (hop : opcodeF w = 0x03) (h : decodeLoad w = some i) : encode i = w := by
  unfold decodeLoad at h
  split at h <;> cases h <;> exact packI_of_fields hop ‹_›

theorem encode_of_decodeStore (hop : opcodeF w = 0x23) (h : decodeStore w = some i) : encode i = w := by
  unfold decodeStore at h
  split at h <;> cases h <;> exact packS_of_fields hop ‹_›

theorem encode_of_decodeOpImm (hop : opcodeF w = 0x13) (h : decodeOpImm w = some i) : encode i = w := by
  unfold decodeOpImm at h
  split at h
  case h_7 h3 =>
    split_ifs at h with h7
    cases h
    exact packR_of_fields hop h3 h7
  case h_8 h3 =>
    split_ifs at h with h7 h7 <;> cases h <;> exact packR_of_fields hop h3 h7
  all_goals cases h <;> exact packI_of_fields hop ‹_›

theorem encode_of_decodeOp (hop : opcodeF w = 0x33) (h : decodeOp w = some i) : encode i = w := by
  unfold decodeOp at h
  split_ifs at h with h7 h7 <;> split at h <;> cases h <;> exact packR_of_fields hop ‹_› h7

/-- No bit of a decoded word is ignored (R74 to R79). -/
theorem encode_of_decodeWord (h : decodeWord w = some i) : encode i = w := by
  unfold decodeWord at h
  split at h
  case h_1 hop => cases h; exact packU_of_fields hop
  case h_2 hop => cases h; exact packU_of_fields hop
  case h_3 hop => cases h; exact packJ_of_fields hop
  case h_4 hop =>
    split_ifs at h with h3
    cases h
    exact packI_of_fields hop h3
  case h_5 hop => exact encode_of_decodeBranch hop h
  case h_6 hop => exact encode_of_decodeLoad hop h
  case h_7 hop => exact encode_of_decodeStore hop h
  case h_8 hop => exact encode_of_decodeOpImm hop h
  case h_9 hop => exact encode_of_decodeOp hop h
  case h_10 => cases h

end

/-! ### A word that selects no row (R86) -/

/-- The lemmas of `Laws/PerInstr.lean`, gathered. -/
theorem encode_selects_row : ∀ i : Instr, Laws.EncodesRow.Statement i
  | .lui rd imm => Laws.EncodesRow.lui rd imm
  | .auipc rd imm => Laws.EncodesRow.auipc rd imm
  | .jal rd off => Laws.EncodesRow.jal rd off
  | .jalr rd rs1 imm => Laws.EncodesRow.jalr rd rs1 imm
  | .beq rs1 rs2 off => Laws.EncodesRow.beq rs1 rs2 off
  | .bne rs1 rs2 off => Laws.EncodesRow.bne rs1 rs2 off
  | .blt rs1 rs2 off => Laws.EncodesRow.blt rs1 rs2 off
  | .bge rs1 rs2 off => Laws.EncodesRow.bge rs1 rs2 off
  | .bltu rs1 rs2 off => Laws.EncodesRow.bltu rs1 rs2 off
  | .bgeu rs1 rs2 off => Laws.EncodesRow.bgeu rs1 rs2 off
  | .lb rd rs1 imm => Laws.EncodesRow.lb rd rs1 imm
  | .lh rd rs1 imm => Laws.EncodesRow.lh rd rs1 imm
  | .lw rd rs1 imm => Laws.EncodesRow.lw rd rs1 imm
  | .lbu rd rs1 imm => Laws.EncodesRow.lbu rd rs1 imm
  | .lhu rd rs1 imm => Laws.EncodesRow.lhu rd rs1 imm
  | .sb rs1 rs2 imm => Laws.EncodesRow.sb rs1 rs2 imm
  | .sh rs1 rs2 imm => Laws.EncodesRow.sh rs1 rs2 imm
  | .sw rs1 rs2 imm => Laws.EncodesRow.sw rs1 rs2 imm
  | .addi rd rs1 imm => Laws.EncodesRow.addi rd rs1 imm
  | .slti rd rs1 imm => Laws.EncodesRow.slti rd rs1 imm
  | .sltiu rd rs1 imm => Laws.EncodesRow.sltiu rd rs1 imm
  | .xori rd rs1 imm => Laws.EncodesRow.xori rd rs1 imm
  | .ori rd rs1 imm => Laws.EncodesRow.ori rd rs1 imm
  | .andi rd rs1 imm => Laws.EncodesRow.andi rd rs1 imm
  | .slli rd rs1 shamt => Laws.EncodesRow.slli rd rs1 shamt
  | .srli rd rs1 shamt => Laws.EncodesRow.srli rd rs1 shamt
  | .srai rd rs1 shamt => Laws.EncodesRow.srai rd rs1 shamt
  | .add rd rs1 rs2 => Laws.EncodesRow.add rd rs1 rs2
  | .sub rd rs1 rs2 => Laws.EncodesRow.sub rd rs1 rs2
  | .sll rd rs1 rs2 => Laws.EncodesRow.sll rd rs1 rs2
  | .slt rd rs1 rs2 => Laws.EncodesRow.slt rd rs1 rs2
  | .sltu rd rs1 rs2 => Laws.EncodesRow.sltu rd rs1 rs2
  | .xor rd rs1 rs2 => Laws.EncodesRow.xor rd rs1 rs2
  | .srl rd rs1 rs2 => Laws.EncodesRow.srl rd rs1 rs2
  | .sra rd rs1 rs2 => Laws.EncodesRow.sra rd rs1 rs2
  | .or rd rs1 rs2 => Laws.EncodesRow.or rd rs1 rs2
  | .and rd rs1 rs2 => Laws.EncodesRow.and rd rs1 rs2

theorem selectRow_eq_none_iff {w : Word} : selectRow w = none ↔ ∀ r ∈ opcodeTable, ¬ r.selects w = true := by
  rw [selectRow, Option.map_eq_none_iff, List.find?_eq_none]

theorem decodeWord_none_of_selectRow_none {w : Word} (h : selectRow w = none) : decodeWord w = none := by
  rcases hd : decodeWord w with - | i
  · rfl
  · obtain ⟨r, hr, -, hsel⟩ := encode_selects_row i
    rw [encode_of_decodeWord hd] at hsel
    exact absurd hsel (selectRow_eq_none_iff.mp h r hr)

/-! ### The kinds of word that R91 lists -/

section
variable {w : Word}

theorem opcodeF_lowBits (w : Word) : (opcodeF w).extractLsb' 0 2 = w.extractLsb' 0 2 :=
  BitVec.extractLsb'_extractLsb'_of_le (by decide)

theorem opcodeF_lengthBits (w : Word) : (opcodeF w).extractLsb' 2 3 = w.extractLsb' 2 3 :=
  BitVec.extractLsb'_extractLsb'_of_le (by decide)

theorem lowBits_of_majorOpcode : ∀ op ∈ majorOpcodes, op.extractLsb' 0 2 = 0b11#2 := by decide

theorem lengthBits_of_majorOpcode : ∀ op ∈ majorOpcodes, op.extractLsb' 2 3 ≠ 0b111#3 := by decide

theorem decodeWord_none_of_lowBits (h : w.extractLsb' 0 2 ≠ 0b11#2) : decodeWord w = none :=
  decodeWord_of_other_opcode fun hop => h (opcodeF_lowBits w ▸ lowBits_of_majorOpcode _ hop)

theorem decodeWord_none_of_longerEncoding (h : w.extractLsb' 2 3 = 0b111#3) : decodeWord w = none :=
  decodeWord_of_other_opcode fun hop => lengthBits_of_majorOpcode _ hop ((opcodeF_lengthBits w).trans h)

/-- The opcodes of the extensions the machine leaves out, as R91 names them. -/
def leftOutOpcodes : List (BitVec 7) :=
  [0x0F, 0x73, 0x2F, 0x07, 0x27, 0x53, 0x43, 0x47, 0x4B, 0x4F, 0x3B, 0x1B, 0x0B, 0x2B, 0x5B, 0x7B]

theorem leftOutOpcodes_not_major : ∀ op ∈ leftOutOpcodes, op ∉ majorOpcodes := by decide

theorem decodeWord_none_of_leftOutOpcode (h : opcodeF w ∈ leftOutOpcodes) : decodeWord w = none :=
  decodeWord_of_other_opcode (leftOutOpcodes_not_major _ h)

theorem decodeBranch_none (h : funct3F w = 2 ∨ funct3F w = 3) : decodeBranch w = none := by
  rcases h with h | h <;> simp [decodeBranch, h]

theorem decodeLoad_none (h : funct3F w = 3 ∨ funct3F w = 6 ∨ funct3F w = 7) : decodeLoad w = none := by
  rcases h with h | h | h <;> simp [decodeLoad, h]

theorem decodeStore_none (h : 3 ≤ (funct3F w).toNat) : decodeStore w = none := by
  unfold decodeStore
  split
  case h_4 => rfl
  all_goals
    next h3 => exact absurd (h3 ▸ h) (by decide)

theorem decodeOpImm_slli_none (h3 : funct3F w = 1) (h7 : funct7F w ≠ 0) : decodeOpImm w = none := by
  rw [decodeOpImm, h3]
  exact if_neg h7

theorem decodeOpImm_right_shift_none (h3 : funct3F w = 5) (h0 : funct7F w ≠ 0) (h20 : funct7F w ≠ 0x20) :
    decodeOpImm w = none := by
  rw [decodeOpImm, h3]
  exact (if_neg h0).trans (if_neg h20)

theorem decodeOp_none_of_funct7 (h0 : funct7F w ≠ 0) (h20 : funct7F w ≠ 0x20) : decodeOp w = none :=
  (if_neg h0).trans (if_neg h20)

theorem decodeOp_none_of_funct3 (h7 : funct7F w = 0x20) (h0 : funct3F w ≠ 0) (h5 : funct3F w ≠ 5) :
    decodeOp w = none := by
  refine (if_neg (h7 ▸ by decide)).trans ((if_pos h7).trans ?_)
  split
  case h_1 h3 => exact absurd h3 h0
  case h_2 h3 => exact absurd h3 h5
  case h_3 => rfl

theorem decodeWord_none_of_zeros_or_ones (h : w = 0x00000000 ∨ w = 0xFFFFFFFF) : decodeWord w = none := by
  rcases h with rfl | rfl
  · exact decodeWord_none_of_lowBits (by decide)
  · exact decodeWord_none_of_longerEncoding (by decide)

end

/-- Settles O5: a decoded word is the word of its instruction, which selects a row; each kind of R91 is ruled out by the
opcode map or by the funct3 and funct7 of its opcode. -/
theorem unmatchedWordsHaveNoHandler : Obligations.UnmatchedWordsHaveNoHandler := by
  intro w
  have no := @decode_of_decodeWord_none w
  exact ⟨fun h => no (decodeWord_none_of_selectRow_none h),
    fun h => no (decodeWord_none_of_lowBits h),
    fun h => no (decodeWord_of_other_opcode h),
    fun h => no (decodeWord_none_of_leftOutOpcode h),
    fun h => no (decodeWord_none_of_longerEncoding h),
    fun hop h3 => no ((decodeWord_jalr hop).trans (if_neg h3)),
    fun hop h3 => no ((decodeWord_branch hop).trans (decodeBranch_none h3)),
    fun hop h3 => no ((decodeWord_load hop).trans (decodeLoad_none h3)),
    fun hop h3 => no ((decodeWord_store hop).trans (decodeStore_none h3)),
    fun hop h3 h7 => no ((decodeWord_opImm hop).trans (decodeOpImm_slli_none h3 h7)),
    fun hop h3 h0 h20 => no ((decodeWord_opImm hop).trans (decodeOpImm_right_shift_none h3 h0 h20)),
    fun hop h0 h20 => no ((decodeWord_op hop).trans (decodeOp_none_of_funct7 h0 h20)),
    fun hop h7 h0 h5 => no ((decodeWord_op hop).trans (decodeOp_none_of_funct3 h7 h0 h5)),
    fun h => no (decodeWord_none_of_zeros_or_ones h)⟩

end Sys2Proof.Machine
end

section
/-! The values of the immediates (`30_encoding.md` R80 to R83): each field is its sign bit before the bits below it, and
sign extension keeps the integer. -/

namespace Sys2Proof.Machine

theorem signExt_toInt {n : Nat} (hn : n ≤ 32) (v : BitVec n) : (signExt v).toInt = v.toInt :=
  BitVec.toInt_signExtend_of_le hn

theorem signBit_toInt : ∀ b : BitVec 1, b.toInt = -(b.toNat : Int) := by decide

/-- Bits below other bits add their unsigned value; `toInt_append` without the case of an empty upper part. -/
theorem toInt_append_of_pos {n m : Nat} (hn : 0 < n) (x : BitVec n) (y : BitVec m) :
    (x ++ y).toInt = 2 ^ m * x.toInt + y.toNat := by
  rw [BitVec.toInt_append, if_neg (by simpa using hn.ne')]

theorem immIF_eq_append (w : Word) : immIF w = w.extractLsb' 31 1 ++ w.extractLsb' 20 11 := by
  symm
  exact BitVec.extractLsb'_append_extractLsb'_eq_extractLsb' (by decide)

theorem immSF_eq_append (w : Word) :
    immSF w = w.extractLsb' 31 1 ++ w.extractLsb' 25 6 ++ w.extractLsb' 7 5 := by
  symm
  exact congrArg (· ++ w.extractLsb' 7 5) (BitVec.extractLsb'_append_extractLsb'_eq_extractLsb' (by decide))

theorem immI_toInt (w : Word) :
    (immI w).toInt = (w.extractLsb' 20 11).toNat - 2048 * (w.extractLsb' 31 1).toNat := by
  rw [immI, signExt_toInt (by decide), immIF_eq_append, toInt_append_of_pos (by decide), signBit_toInt]
  omega

theorem immS_toInt (w : Word) :
    (immS w).toInt =
      32 * (w.extractLsb' 25 6).toNat + (w.extractLsb' 7 5).toNat - 2048 * (w.extractLsb' 31 1).toNat := by
  rw [immS, signExt_toInt (by decide), immSF_eq_append, toInt_append_of_pos (by decide),
    toInt_append_of_pos (by decide), signBit_toInt]
  omega

theorem immB_toInt (w : Word) :
    (immB w).toInt =
      2048 * (w.extractLsb' 7 1).toNat + 32 * (w.extractLsb' 25 6).toNat + 2 * (w.extractLsb' 8 4).toNat
        - 4096 * (w.extractLsb' 31 1).toNat := by
  rw [immB, signExt_toInt (by decide), immBF, BitVec.toInt_append_zero, toInt_append_of_pos (by decide),
    toInt_append_of_pos (by decide), toInt_append_of_pos (by decide), signBit_toInt]
  omega

theorem immU_toNat (w : Word) : (immU w).toNat = 4096 * (w.extractLsb' 12 20).toNat := by
  rw [immU, upper, immUF, BitVec.toNat_append, BitVec.toNat_ofNat, Nat.zero_mod, Nat.or_zero, Nat.shiftLeft_eq]
  omega

theorem immJ_toInt (w : Word) :
    (immJ w).toInt =
      4096 * (w.extractLsb' 12 8).toNat + 2048 * (w.extractLsb' 20 1).toNat + 2 * (w.extractLsb' 21 10).toNat
        - 1048576 * (w.extractLsb' 31 1).toNat := by
  rw [immJ, signExt_toInt (by decide), immJF, BitVec.toInt_append_zero, toInt_append_of_pos (by decide),
    toInt_append_of_pos (by decide), toInt_append_of_pos (by decide), signBit_toInt]
  omega

/-- Settles O6: each field is a concatenation, whose value is the weighted sum of its parts with the sign bit negative. -/
theorem immediateReconstruction : Obligations.ImmediateReconstruction := fun w =>
  ⟨immI_toInt w, immS_toInt w, immB_toInt w, immU_toNat w, immJ_toInt w⟩

end Sys2Proof.Machine
end

section
/-! Integer instructions by opcode (`30_encoding.md` R92, `42_integer.md`): each writes rd and advances the pc by 4, which
leaves the registers as they are when rd is x0. -/

namespace Sys2Proof.Machine

theorem exec_of_decodeOpImm {w : Word} {i : Instr} (h : decodeOpImm w = some i) (s : State) :
    ∃ v, exec i s = .next (regStep s (rdF w) v (s.pc + 4)) := by
  unfold decodeOpImm at h
  split at h
  case h_7 =>
    split_ifs at h
    cases h
    exact ⟨_, rfl⟩
  case h_8 => split_ifs at h <;> cases h <;> exact ⟨_, rfl⟩
  all_goals cases h <;> exact ⟨_, rfl⟩

theorem exec_of_decodeOp {w : Word} {i : Instr} (h : decodeOp w = some i) (s : State) :
    ∃ v, exec i s = .next (regStep s (rdF w) v (s.pc + 4)) := by
  unfold decodeOp at h
  split_ifs at h <;> split at h <;> cases h <;> exact ⟨_, rfl⟩

theorem exec_of_integerOpcode {w : Word} {i : Instr} (h : decodeWord w = some i)
    (hop : opcodeF w ∈ ([0x37, 0x17, 0x13, 0x33] : List (BitVec 7))) (s : State) :
    ∃ v, exec i s = .next (regStep s (rdF w) v (s.pc + 4)) := by
  simp only [List.mem_cons, List.not_mem_nil, or_false] at hop
  rcases hop with hop | hop | hop | hop
  · cases (decodeWord_lui hop).symm.trans h
    exact ⟨_, rfl⟩
  · cases (decodeWord_auipc hop).symm.trans h
    exact ⟨_, rfl⟩
  · exact exec_of_decodeOpImm ((decodeWord_opImm hop).symm.trans h) s
  · exact exec_of_decodeOp ((decodeWord_op hop).symm.trans h) s

/-- A write to x0 leaves the register file (`10_state.md` R23). -/
theorem State.putReg_zero (s : State) (v : Word) : s.putReg 0 v = s := rfl

theorem regStep_zero_sameArch (s : State) (v p : Word) : SameArch { s with pc := p } (regStep s 0 v p) where
  regs := by rw [regStep_regs, State.putReg_zero]
  pc := regStep_pc s 0 v p
  mem := regStep_mem s 0 v p

/-- Settles O17: the instruction of such a word is one register write and pc + 4, and the register is x0. -/
theorem hintsOnlyAdvancePc : Obligations.HintsOnlyAdvancePc := by
  intro s w i hdec hrd hop
  obtain ⟨v, hv⟩ := exec_of_integerOpcode (decode_handler_iff.mp hdec) hop s
  rw [hrd] at hv
  have heff := regStep_effect s 0 v (s.pc + 4)
  exact ⟨_, hv, regStep_zero_sameArch s v _, heff.history, heff.result, heff.rest⟩

end Sys2Proof.Machine
end

section
/-! A step and the run's counters (`40_simulator_step.md` R120): cycles, N and MAX_CYCLES are what `isDone` compares and
what no step reads, so changing them before a step or after it is the same. -/

namespace Sys2Proof.Machine

/-! ### `step` of a machine that is not faulted, by the clauses of R110 -/

theorem step_of_handler {s : State} {i : Instr} (hf : s.faulted = none) (hd : decode s.fetchWord = .handler i) :
    step s = exec i s := by
  simp only [step, hf, hd]

theorem step_of_noHandler {s : State} {w : Word} (hf : s.faulted = none) (hd : decode s.fetchWord = .noHandler w) :
    step s = .next (s.noHandler s.pc w) := by
  simp only [step, hf, hd, State.getPC_eq]

/-! ### Replacing the counters -/

/-- The state with other values of cycles, N and MAX_CYCLES, the fields `isDone` reads beside the pc and TEXT_BASE. -/
def State.withCounters (c n m : Nat) (s : State) : State :=
  { s with cycles := c, numInstrs := n, params := { s.params with maxCycles := m } }

/-- Change the next state of an outcome, if there is one. -/
def mapNext (f : State → State) : Host.Outcome State Fault Refusal → Host.Outcome State Fault Refusal
  | .next t => .next (f t)
  | .fault r => .fault r
  | .refused r => .refused r

section
variable (c n m : Nat) (s : State)

theorem State.withCounters_faulted : (s.withCounters c n m).faulted = s.faulted := rfl

theorem State.withCounters_invalidPolicy :
    (s.withCounters c n m).params.invalidPolicy = s.params.invalidPolicy := rfl

theorem State.withCounters_fetchWord : (s.withCounters c n m).fetchWord = s.fetchWord := rfl

/-! Each shared operation reads its operands from registers, pc and memory, and writes no counter. -/

theorem writeResult_withCounters (rd : Reg) (v : Word) :
    writeResult rd v (s.withCounters c n m) = mapNext (·.withCounters c n m) (writeResult rd v s) := rfl

theorem linkAndJump_withCounters (rd : Reg) (target : Word) :
    linkAndJump rd target (s.withCounters c n m) = mapNext (·.withCounters c n m) (linkAndJump rd target s) := rfl

theorem branchIf_withCounters (cond : Bool) (off : BitVec 13) :
    branchIf cond off (s.withCounters c n m) = mapNext (·.withCounters c n m) (branchIf cond off s) := rfl

theorem loadInto_withCounters (width : Width) (ext : Word → Word) (rd rs1 : Reg) (imm : BitVec 12) :
    loadInto width ext rd rs1 imm (s.withCounters c n m) =
      mapNext (·.withCounters c n m) (loadInto width ext rd rs1 imm s) := rfl

theorem storeFrom_withCounters (width : Width) (rs1 rs2 : Reg) (imm : BitVec 12) :
    storeFrom width rs1 rs2 imm (s.withCounters c n m) =
      mapNext (·.withCounters c n m) (storeFrom width rs1 rs2 imm s) := rfl

theorem exec_withCounters (i : Instr) :
    exec i (s.withCounters c n m) = mapNext (·.withCounters c n m) (exec i s) := by
  cases i with
  | jal | jalr => exact linkAndJump_withCounters c n m s _ _
  | beq | bne | blt | bge | bltu | bgeu => exact branchIf_withCounters c n m s _ _
  | lb | lh | lw | lbu | lhu => exact loadInto_withCounters c n m s _ _ _ _ _
  | sb | sh | sw => exact storeFrom_withCounters c n m s _ _ _ _
  | _ => exact writeResult_withCounters c n m s _ _

theorem noHandler_withCounters (a w : Word) :
    (s.withCounters c n m).noHandler a w = (s.noHandler a w).withCounters c n m := by
  have hpolicy := s.withCounters_invalidPolicy c n m
  cases hp : s.params.invalidPolicy with
  | fail =>
    rw [noHandler_fail hp, noHandler_fail (hpolicy.trans hp)]
    rfl
  | skip =>
    rw [noHandler_skip hp, noHandler_skip (hpolicy.trans hp)]
    rfl

theorem step_withCounters : step (s.withCounters c n m) = mapNext (·.withCounters c n m) (step s) := by
  have hfault := s.withCounters_faulted c n m
  have hfetch := congrArg decode (s.withCounters_fetchWord c n m)
  rcases hf : s.faulted with - | ⟨a, w⟩
  · rcases hd : decode s.fetchWord with i | w
    · rw [step_of_handler hf hd, step_of_handler (hfault.trans hf) (hfetch.trans hd)]
      exact exec_withCounters c n m s i
    · rw [step_of_noHandler hf hd, step_of_noHandler (hfault.trans hf) (hfetch.trans hd)]
      exact congrArg Host.Outcome.next (noHandler_withCounters c n m s s.pc w)
  · rw [Tests.step_faulted hf, Tests.step_faulted (hfault.trans hf)]
    rfl

end

/-! ### Fetching zero bytes -/

theorem State.fetchWord_eq_wordOfBytes (s : State) :
    s.fetchWord = wordOfBytes (s.byteAt (accessAddr s.pc 0)) (s.byteAt (accessAddr s.pc 1))
      (s.byteAt (accessAddr s.pc 2)) (s.byteAt (accessAddr s.pc 3)) := rfl

theorem State.fetchWord_of_zero_bytes {s : State} (h : ∀ k < 4, s.byteAt (accessAddr s.pc k) = 0) :
    s.fetchWord = 0 := by
  rw [State.fetchWord_eq_wordOfBytes, h 0 (by decide), h 1 (by decide), h 2 (by decide), h 3 (by decide)]
  decide

/-- Settles O37: no clause of `step` reads a counter or writes one, and the word 0 is one of those R91 lists. -/
theorem stepIgnoresIsDone : Obligations.StepIgnoresIsDone := by
  refine ⟨fun s c n m => ?_, fun _ => State.fetchWord_of_zero_bytes,
    decode_of_decodeWord_none (decodeWord_none_of_zeros_or_ones (.inl rfl))⟩
  refine (step_withCounters c n m s).trans ?_
  cases step s <;> rfl

end Sys2Proof.Machine
end

section
/-! The accessors and `undo` (`41_accessors_and_diffs.md`): what each writing accessor writes, records and leaves (R133
to R137), and what no diff and no `undo` changes (R141 to R143). -/

namespace Sys2Proof.Machine

/-! ### Register and pc writes -/

theorem State.getReg_setReg (s : State) (i r : Reg) (v : Word) : (s.setReg i v).getReg r = (s.putReg i v).getReg r :=
  State.getReg_congr (s.setReg_regs i v) r

theorem State.setReg_sameRegsBut (s : State) (i : Reg) (v : Word) : SameRegsBut i s (s.setReg i v) := fun r hr =>
  (s.getReg_setReg i r v).trans (s.getReg_putReg_of_ne v hr)

theorem State.putReg_zero_sameArch (s : State) (v : Word) : SameArch s (s.putReg 0 v) := by
  rw [State.putReg_zero]
  exact ⟨rfl, rfl, rfl⟩

theorem State.incrementPC_eq_setPC (s : State) (d : Word) :
    s.incrementPC d = s.setPC (BitVec.ofNat 32 (s.pc.toNat + d.toNat)) := by
  rw [BitVec.ofNat_add, BitVec.ofNat_toNat, BitVec.ofNat_toNat, BitVec.setWidth_eq, BitVec.setWidth_eq]
  rfl

/-- Settles O27: both accessors are a plain write between two records, and the plain write to x0 changes nothing. -/
theorem registerAndPcWritesRecordBothDiffs : Obligations.RegisterAndPcWritesRecordBothDiffs := by
  intro s i v
  exact ⟨(s.getReg_setReg i i v).trans (s.getReg_putReg_self i v), s.setReg_sameRegsBut i v,
    s.setReg_preList i v, (s.setReg_postList i v).trans (by rw [State.getReg_setReg]),
    (s.setReg_regs 0 v).trans (if_pos rfl), s.setReg_preList 0 v, s.setReg_postList 0 v, s.putReg_zero_sameArch 0,
    s.setReg_pc i v, State.byteAt_congr (s.setReg_mem i v),
    s.setPC_pc v, s.setPC_preList v, s.setPC_postList v,
    State.getReg_congr (s.setPC_regs v), State.byteAt_congr (s.setPC_mem v), s.incrementPC_eq_setPC v⟩

/-! ### Stores -/

theorem State.store_sameMemBut {s : State} (h : s.mem.wf) (width : Width) (a v : Word) :
    SameMemBut a width s (s.store width a v) := by
  intro b hb
  rw [State.byteAt_eq, State.store_mem, State.byteAt_eq]
  exact Memory.read_store_outside h fun j hj => ne_byteAddr_of_ne_accessAddr (hb j hj)

theorem State.store_postList_lowBytes {s : State} (h : s.mem.wf) (width : Width) (a v : Word) :
    (s.store width a v).postList = s.postList ++ [.mem a width (lowBytes width v)] := by
  rw [State.store_postList, Memory.load_store_same h]

/-- Settles O28: the value read back is the one stored, cut to the width of the access. -/
theorem storeRecordsBothDiffs : Obligations.StoreRecordsBothDiffs := by
  intro s width a v h
  exact ⟨fun j => State.store_byteAt_inside h, State.store_sameMemBut h width a v, s.store_preList width a v,
    State.store_postList_lowBytes h width a v, s.mem.load_lt width a, State.getReg_congr (s.store_regs width a v),
    s.store_pc width a v⟩

/-! ### Undo -/

theorem Diff.apply_params (d : Diff) (s : State) : (d.apply s).params = s.params := by cases d <;> rfl
theorem Diff.apply_cycles (d : Diff) (s : State) : (d.apply s).cycles = s.cycles := by cases d <;> rfl
theorem Diff.apply_history (d : Diff) (s : State) : (d.apply s).history = s.history := by cases d <;> rfl
theorem Diff.apply_numInstrs (d : Diff) (s : State) : (d.apply s).numInstrs = s.numInstrs := by cases d <;> rfl
theorem Diff.apply_faulted (d : Diff) (s : State) : (d.apply s).faulted = s.faulted := by cases d <;> rfl

/-- What no single diff changes, no set of diffs changes. -/
theorem applyReversed_keeps {α : Type} {f : State → α} (hf : ∀ d s, f (Diff.apply d s) = f s) (set : DiffSet)
    (s : State) : f (applyReversed set s) = f s := by
  unfold applyReversed
  induction set.reverse generalizing s with
  | nil => rfl
  | cons d ds ih => rw [List.foldl_cons, ih, hf]

theorem State.undo_of_nil {s : State} (h : s.history = []) : s.undo = s := by
  simp only [State.undo, h]

theorem State.undo_of_cons {s : State} {set : DiffSet} {rest : List DiffSet} (h : s.history = set :: rest) :
    s.undo = applyReversed set { s with history := rest } := by
  simp only [State.undo, h]

/-- What neither a diff nor the pop of the history changes, `undo` does not change. -/
theorem State.undo_keeps {α : Type} {f : State → α} (hf : ∀ d s, f (Diff.apply d s) = f s)
    (hpop : ∀ (s : State) rest, f { s with history := rest } = f s) (s : State) : f s.undo = f s := by
  cases h : s.history with
  | nil => rw [State.undo_of_nil h]
  | cons set rest => rw [State.undo_of_cons h, applyReversed_keeps hf, hpop]

theorem State.undo_history (s : State) : s.undo.history = s.history.tail := by
  cases h : s.history with
  | nil => rw [State.undo_of_nil h, h, List.tail_nil]
  | cons set rest => rw [State.undo_of_cons h, applyReversed_keeps Diff.apply_history, List.tail_cons]

theorem State.undo_params (s : State) : s.undo.params = s.params :=
  State.undo_keeps Diff.apply_params (fun _ _ => rfl) s

theorem State.undo_cycles (s : State) : s.undo.cycles = s.cycles :=
  State.undo_keeps Diff.apply_cycles (fun _ _ => rfl) s

theorem State.undo_numInstrs (s : State) : s.undo.numInstrs = s.numInstrs :=
  State.undo_keeps Diff.apply_numInstrs (fun _ _ => rfl) s

theorem State.undo_faulted (s : State) : s.undo.faulted = s.faulted :=
  State.undo_keeps Diff.apply_faulted (fun _ _ => rfl) s

/-- Settles O43: a diff overwrites a register, the pc or memory, so an `undo` changes these and pops the history. -/
theorem undoKeepsCountersAndFault : Obligations.UndoKeepsCountersAndFault := fun s =>
  ⟨State.undo_of_nil, s.undo_history, s.undo_cycles, s.undo_faulted, s.undo_numInstrs, s.undo_params⟩

end Sys2Proof.Machine
end

section
/-! The decoder on the encoder's words (`45_encoder.md` R248): each instruction rule names the packed word of its
instruction, and `decode` reads the operands back from it. -/

namespace Sys2Proof.Machine

theorem decodeWord_jal {w : Word} (h : opcodeF w = 0x6F) : decodeWord w = some (.jal (rdF w) (immJF w)) := by
  simp [decodeWord, h]

/-- The packer of each format keeps every field, so the opcode, funct3 and funct7 select the instruction's own row. -/
theorem decode_encode {i : Instr} (h : i.wf = true) : decode (encode i) = .handler i := by
  rw [decode_handler_iff]
  cases i with
  | lui => simp [encode, decodeWord_lui]
  | auipc => simp [encode, decodeWord_auipc]
  | jal => simp [encode, decodeWord_jal, immJF_packJ _ _ _ h]
  | jalr => simp [encode, decodeWord_jalr]
  | beq | bne | blt | bge | bltu | bgeu =>
    simp [encode, encodeBranch, decodeWord_branch, decodeBranch, immBF_packB _ _ _ _ _ h]
  | lb | lh | lw | lbu | lhu => simp [encode, encodeLoad, decodeWord_load, decodeLoad]
  | sb | sh | sw => simp [encode, encodeStore, decodeWord_store, decodeStore]
  | slli | srli | srai => simp [encode, encodeShift, decodeWord_opImm, decodeOpImm]
  | addi | slti | sltiu | xori | ori | andi => simp [encode, encodeOpImm, decodeWord_opImm, decodeOpImm]
  | add | sub | sll | slt | sltu | xor | srl | sra | or | and => simp [encode, encodeOp, decodeWord_op, decodeOp]

end Sys2Proof.Machine
end

section
/-! The integer instructions (`42_integer.md` R160 to R180): each is one `writeResult`, and its value is the integer
formula of its rule reduced modulo 2^32. -/

namespace Sys2Proof.Machine

/-! ### Operands and results as integers -/

theorem signExt_eq_ofInt {n : Nat} (v : BitVec n) : signExt v = BitVec.ofInt 32 v.toInt := rfl

/-- The unsigned value of a sign-extended immediate. -/
theorem signExt_toNat {n : Nat} (v : BitVec n) : ((signExt v).toNat : Int) = v.toInt % 2 ^ 32 := by
  rw [signExt_eq_ofInt, BitVec.toNat_ofInt]
  omega

theorem upper_eq_ofNat (imm : BitVec 20) : upper imm = BitVec.ofNat 32 (4096 * imm.toNat) := by
  apply BitVec.eq_of_toNat_eq
  rw [upper, BitVec.toNat_append, BitVec.toNat_ofNat, BitVec.toNat_ofNat, Nat.zero_mod, Nat.or_zero, Nat.shiftLeft_eq]
  omega

theorem oneIf_ltSigned (x y : Word) : oneIf (ltSigned x y) = if x.toInt < y.toInt then 1 else 0 := by
  simp only [oneIf, ltSigned, decide_eq_true_eq]

theorem oneIf_ltUnsigned (x y : Word) : oneIf (ltUnsigned x y) = if x.toNat < y.toNat then 1 else 0 := by
  simp only [oneIf, ltUnsigned, decide_eq_true_eq]

section
variable {n : Nat} (x y : BitVec n)

theorem add_eq_ofNat : x + y = BitVec.ofNat n (x.toNat + y.toNat) := by
  rw [BitVec.ofNat_add, BitVec.ofNat_toNat, BitVec.ofNat_toNat, BitVec.setWidth_eq, BitVec.setWidth_eq]

theorem sub_eq_ofInt : x - y = BitVec.ofInt n (x.toInt - y.toInt) := by
  rw [Int.sub_eq_add_neg, BitVec.ofInt_add, BitVec.ofInt_neg, BitVec.ofInt_toInt, BitVec.ofInt_toInt,
    BitVec.sub_eq_add_neg]

/-- A left shift multiplies. -/
theorem shiftLeft_eq_ofNat (k : Nat) : x <<< k = BitVec.ofNat n (x.toNat * 2 ^ k) :=
  congrArg (BitVec.ofNat n) (Nat.shiftLeft_eq x.toNat k)

/-- A logical right shift is the unsigned quotient. -/
theorem ushiftRight_eq_ofNat (k : Nat) : x >>> k = BitVec.ofNat n (x.toNat / 2 ^ k) := by
  rw [← Nat.shiftRight_eq_div_pow, ← BitVec.toNat_ushiftRight, BitVec.ofNat_toNat, BitVec.setWidth_eq]

/-- An arithmetic right shift is the signed quotient, rounded down. -/
theorem sshiftRight_eq_ofInt (k : Nat) : x.sshiftRight k = BitVec.ofInt n (x.toInt / 2 ^ k) := by
  rw [BitVec.sshiftRight_eq, Int.shiftRight_eq_div_pow, Nat.cast_pow, Nat.cast_ofNat]

end

/-- The low five bits are the remainder modulo 32 (`30_encoding.md` R84). -/
theorem shiftAmount_eq_mod (v : Word) : shiftAmount v = v.toNat % 32 := by
  rw [shiftAmount, BitVec.extractLsb'_toNat, Nat.shiftRight_zero]

/-! ### The obligations -/

/-- An instruction whose meaning is one `writeResult` has the register effect of the value written. -/
theorem completes_of_writeResult {i : Instr} {s : State} {rd : Reg} {v v' : Word}
    (hexec : exec i s = writeResult rd v s) (hv : v = v') :
    Completes i s (fun t => RegisterEffect s t rd v' (s.pc + 4)) :=
  ⟨_, hexec.trans (writeResult_eq rd v s), hv ▸ regStep_effect s rd v (s.pc + 4)⟩

/-- Settles O8: an upper immediate is 4096 times its field. -/
theorem upperImmediateResults : Obligations.UpperImmediateResults := by
  intro s rd imm
  have hauipc : s.getPC + upper imm = BitVec.ofNat 32 (s.pc.toNat + 4096 * imm.toNat) := by
    rw [upper_eq_ofNat, BitVec.ofNat_add, BitVec.ofNat_toNat, BitVec.setWidth_eq, State.getPC_eq]
  exact ⟨decode_encode (i := .lui rd imm) rfl, completes_of_writeResult rfl (upper_eq_ofNat imm),
    decode_encode (i := .auipc rd imm) rfl, completes_of_writeResult rfl hauipc⟩

/-- Settles O9: the sum of the words is the reduced sum of the integers. -/
theorem addImmediateResult : Obligations.AddImmediateResult := by
  intro s rd rs1 imm
  have haddi : s.getReg rs1 + signExt imm = BitVec.ofInt 32 ((s.getReg rs1).toInt + imm.toInt) := by
    rw [BitVec.ofInt_add, BitVec.ofInt_toInt, signExt_eq_ofInt]
  exact ⟨decode_encode (i := .addi rd rs1 imm) rfl, completes_of_writeResult rfl haddi⟩

/-- Settles O10: sign extension keeps the integer, and its unsigned value is that integer modulo 2^32. -/
theorem setLessThanImmediateResults : Obligations.SetLessThanImmediateResults := by
  intro s rd rs1 imm
  have hslti : oneIf (ltSigned (s.getReg rs1) (signExt imm)) =
      if (s.getReg rs1).toInt < imm.toInt then 1 else 0 := by
    rw [oneIf_ltSigned, signExt_toInt (by decide)]
  have hsltiu : oneIf (ltUnsigned (s.getReg rs1) (signExt imm)) =
      if ((s.getReg rs1).toNat : Int) < imm.toInt % 2 ^ 32 then 1 else 0 := by
    simp only [oneIf_ltUnsigned, ← signExt_toNat, Nat.cast_lt]
  exact ⟨decode_encode (i := .slti rd rs1 imm) rfl, completes_of_writeResult rfl hslti,
    decode_encode (i := .sltiu rd rs1 imm) rfl, completes_of_writeResult rfl hsltiu⟩

/-- Settles O11: the immediate operand is the sign-extended field. -/
theorem logicImmediateResults : Obligations.LogicImmediateResults := by
  intro s rd rs1 imm
  have himm := signExt_eq_ofInt imm
  exact ⟨decode_encode (i := .xori rd rs1 imm) rfl, completes_of_writeResult rfl (congrArg (s.getReg rs1 ^^^ ·) himm),
    decode_encode (i := .ori rd rs1 imm) rfl, completes_of_writeResult rfl (congrArg (s.getReg rs1 ||| ·) himm),
    decode_encode (i := .andi rd rs1 imm) rfl, completes_of_writeResult rfl (congrArg (s.getReg rs1 &&& ·) himm)⟩

/-- Settles O12: shifts by the field's value, and the dispatch of SLLI on funct7. -/
theorem shiftImmediateResults : Obligations.ShiftImmediateResults := by
  intro s rd rs1 shamt
  exact ⟨decode_encode (i := .slli rd rs1 shamt) rfl, completes_of_writeResult rfl (shiftLeft_eq_ofNat _ _),
    decode_encode (i := .srli rd rs1 shamt) rfl, completes_of_writeResult rfl (ushiftRight_eq_ofNat _ _),
    decode_encode (i := .srai rd rs1 shamt) rfl, completes_of_writeResult rfl (sshiftRight_eq_ofInt _ _),
    fun w hop h3 h7 =>
      decode_of_decodeWord_none ((decodeWord_opImm hop).trans (decodeOpImm_slli_none h3 h7))⟩

/-- Settles O13: the sum and the difference of the words are those of the integers, reduced. -/
theorem addSubResults : Obligations.AddSubResults := by
  intro s rd rs1 rs2
  exact ⟨decode_encode (i := .add rd rs1 rs2) rfl, completes_of_writeResult rfl (add_eq_ofNat _ _),
    decode_encode (i := .sub rd rs1 rs2) rfl, completes_of_writeResult rfl (sub_eq_ofInt _ _)⟩

/-- Settles O14: the shifts of O12, by the low five bits of x[rs2]. -/
theorem shiftRegisterResults : Obligations.ShiftRegisterResults := by
  intro s rd rs1 rs2
  rw [← shiftAmount_eq_mod]
  exact ⟨decode_encode (i := .sll rd rs1 rs2) rfl, completes_of_writeResult rfl (shiftLeft_eq_ofNat _ _),
    decode_encode (i := .srl rd rs1 rs2) rfl, completes_of_writeResult rfl (ushiftRight_eq_ofNat _ _),
    decode_encode (i := .sra rd rs1 rs2) rfl, completes_of_writeResult rfl (sshiftRight_eq_ofInt _ _)⟩

/-- Settles O15: `ltSigned` and `ltUnsigned` compare the integers. -/
theorem setLessThanResults : Obligations.SetLessThanResults := by
  intro s rd rs1 rs2
  exact ⟨decode_encode (i := .slt rd rs1 rs2) rfl, completes_of_writeResult rfl (oneIf_ltSigned _ _),
    decode_encode (i := .sltu rd rs1 rs2) rfl, completes_of_writeResult rfl (oneIf_ltUnsigned _ _)⟩

/-- Settles O16: the value written is the bitwise result itself. -/
theorem logicRegisterResults : Obligations.LogicRegisterResults := by
  intro s rd rs1 rs2
  exact ⟨decode_encode (i := .xor rd rs1 rs2) rfl, completes_of_writeResult rfl rfl,
    decode_encode (i := .or rd rs1 rs2) rfl, completes_of_writeResult rfl rfl,
    decode_encode (i := .and rd rs1 rs2) rfl, completes_of_writeResult rfl rfl⟩

end Sys2Proof.Machine
end

section
/-! The control transfers (`43_control_transfer.md` R200 to R207): JAL and JALR are one `linkAndJump`, each branch one
`branchIf`, and the targets are the integer formulas of the rules reduced modulo 2^32. -/

namespace Sys2Proof.Machine

/-! ### Targets -/

/-- The target of JAL and of a taken branch: the instruction's own address plus the signed offset. -/
theorem add_signExt_eq_ofInt {n : Nat} (a : Word) (off : BitVec n) :
    a + signExt off = BitVec.ofInt 32 (a.toNat + off.toInt) := by
  rw [BitVec.ofInt_add, BitVec.ofInt_natCast, BitVec.ofNat_toNat, BitVec.setWidth_eq, signExt_eq_ofInt]

/-- Clearing bit 0 shifts it out and a zero in. -/
theorem and_clearBit0_eq_shift (v : Word) : v &&& 0xFFFFFFFE#32 = v >>> 1 <<< 1 := by
  rw [BitVec.shiftLeft_ushiftRight]
  rfl

/-- Clearing bit 0 rounds down to an even integer; bit 0 lies below the modulus, so the wrap does not matter. -/
theorem ofInt_and_clearBit0 (k : Int) : BitVec.ofInt 32 k &&& 0xFFFFFFFE#32 = BitVec.ofInt 32 (2 * (k / 2)) := by
  rw [and_clearBit0_eq_shift, shiftLeft_eq_ofNat, BitVec.toNat_ushiftRight, Nat.shiftRight_eq_div_pow]
  apply BitVec.eq_of_toNat_eq
  rw [BitVec.toNat_ofNat, BitVec.toNat_ofInt, BitVec.toNat_ofInt]
  omega

theorem jalrTarget_eq_ofInt (s : State) (rs1 : Reg) (imm : BitVec 12) :
    jalrTarget s rs1 imm = BitVec.ofInt 32 (2 * (((s.getReg rs1).toInt + imm.toInt) / 2)) := by
  rw [jalrTarget, ← ofInt_and_clearBit0, BitVec.ofInt_add, BitVec.ofInt_toInt, signExt_eq_ofInt]

/-! ### Branch conditions -/

section
variable {x y : Word}

theorem ltSigned_iff : ltSigned x y = true ↔ x.toInt < y.toInt := decide_eq_true_iff

theorem not_ltSigned_iff : (!ltSigned x y) = true ↔ x.toInt ≥ y.toInt := by
  rw [Bool.not_eq_true', ← Bool.not_eq_true, ltSigned_iff, Int.not_lt]

theorem ltUnsigned_iff : ltUnsigned x y = true ↔ x.toNat < y.toNat := decide_eq_true_iff

theorem not_ltUnsigned_iff : (!ltUnsigned x y) = true ↔ x.toNat ≥ y.toNat := by
  rw [Bool.not_eq_true', ← Bool.not_eq_true, ltUnsigned_iff, Nat.not_lt]

end

/-! ### The obligations -/

/-- An instruction whose meaning is one `linkAndJump` has the register effect of the link, at the target. -/
theorem completes_of_linkAndJump {i : Instr} {s : State} {rd : Reg} {target target' : Word}
    (hexec : exec i s = linkAndJump rd target s) (htarget : target = target') :
    Completes i s (fun t => RegisterEffect s t rd (s.pc + 4) target') :=
  ⟨_, hexec.trans (linkAndJump_eq rd target s), htarget ▸ regStep_effect s rd (s.pc + 4) target⟩

/-- An instruction whose meaning is one `branchIf` moves the pc by its offset where the condition holds, and by 4 where
it does not. -/
theorem completes_of_branchIf {i : Instr} {s : State} {taken : Bool} {off : BitVec 13} {cond : Prop} [Decidable cond]
    (hexec : exec i s = branchIf taken off s) (hcond : taken = true ↔ cond) :
    Completes i s (fun t => PcEffect s t
      (if cond then BitVec.ofInt 32 (s.pc.toNat + off.toInt) else s.pc + 4)) := by
  have hpc : (if taken then s.pc + signExt off else s.pc + 4) =
      if cond then BitVec.ofInt 32 (s.pc.toNat + off.toInt) else s.pc + 4 := by
    simp only [hcond, add_signExt_eq_ofInt]
  exact ⟨_, hexec.trans (branchIf_eq taken off s), hpc ▸ pcStep_effect s _⟩

/-- Settles O18: the target is the old pc plus the sign-extended offset, and the link the old pc + 4. -/
theorem jumpAndLinkResult : Obligations.JumpAndLinkResult := by
  intro s rd off
  exact ⟨decode_encode (i := .jal rd off), completes_of_linkAndJump rfl (add_signExt_eq_ofInt s.pc off)⟩

/-- Settles O19: the target is read from the state before the link is written. -/
theorem jumpAndLinkRegisterResult : Obligations.JumpAndLinkRegisterResult := by
  intro s rd rs1 imm
  exact ⟨decode_encode (i := .jalr rd rs1 imm) rfl, completes_of_linkAndJump rfl (jalrTarget_eq_ofInt s rs1 imm),
    fun w hop h3 => decode_of_decodeWord_none ((decodeWord_jalr hop).trans (if_neg h3))⟩

/-- Settles O20: each condition is the Bool its rule computes, and one lemma says what a branch does with it. -/
theorem branchResults : Obligations.BranchResults := by
  intro s rs1 rs2 off
  refine ⟨fun heven => ?_, completes_of_branchIf rfl beq_iff_eq, completes_of_branchIf rfl bne_iff_ne,
    completes_of_branchIf rfl ltSigned_iff, completes_of_branchIf rfl not_ltSigned_iff,
    completes_of_branchIf rfl ltUnsigned_iff, completes_of_branchIf rfl not_ltUnsigned_iff⟩
  exact ⟨decode_encode (i := .beq rs1 rs2 off) heven, decode_encode (i := .bne rs1 rs2 off) heven,
    decode_encode (i := .blt rs1 rs2 off) heven, decode_encode (i := .bge rs1 rs2 off) heven,
    decode_encode (i := .bltu rs1 rs2 off) heven, decode_encode (i := .bgeu rs1 rs2 off) heven⟩

end Sys2Proof.Machine
end

section
/-! The loads and stores (`44_load_store.md` R220 to R227): each load is one `writeResult`, whose value is the integer
formula of its rule in the bytes an observer reads, and each store one `storeFrom`, with the effect of its width. -/

namespace Sys2Proof.Machine

/-! ### Addresses and loaded values -/

theorem effectiveAddr_eq_ofInt (s : State) (rs1 : Reg) (imm : BitVec 12) :
    effectiveAddr s rs1 imm = BitVec.ofInt 32 ((s.getReg rs1).toInt + imm.toInt) := by
  rw [effectiveAddr, BitVec.ofInt_add, BitVec.ofInt_toInt, signExt_eq_ofInt]

theorem eq_ofNat_of_toNat_eq {n k : Nat} {x : BitVec n} (h : x.toNat = k) : x = BitVec.ofNat n k := by
  rw [← h, BitVec.ofNat_toNat, BitVec.setWidth_eq]

/-- The low halfword of four bytes is the first two. -/
theorem lowHalf_wordOfBytes (b0 b1 b2 b3 : Byte) : (wordOfBytes b0 b1 b2 b3).extractLsb' 0 16 = b1 ++ b0 := by
  rw [wordOfBytes, BitVec.append_assoc, BitVec.cast_eq]
  exact BitVec.extractLsb'_append_eq_right

/-- LB: the byte's own sign is extended (R220). -/
theorem State.sext8_load_byte (s : State) (a : Word) :
    sext8 (s.load .byte a) = BitVec.ofInt 32 (s.byteAt a).toInt := by
  obtain ⟨hlow, -⟩ := byteOf_wordOfBytes (s.mem.read (byteAddr a 0)) 0#8 0#8 0#8
  rw [State.byteAt_eq_read_byteAddr_zero, ← hlow]
  rfl

/-- LH: the sign is that of the byte at `a + 1` (R221). -/
theorem State.sext16_load_half (s : State) (a : Word) :
    sext16 (s.load .half a) = BitVec.ofInt 32 (256 * (s.byteAt (a + 1)).toInt + (s.byteAt a).toNat) := by
  have hlow : (s.load .half a).extractLsb' 0 16 = s.byteAt (a + 1) ++ s.byteAt a := by
    rw [s.byteAt_eq_read_byteAddr_zero a]
    exact lowHalf_wordOfBytes _ _ _ _
  have hsum : (s.byteAt (a + 1) ++ s.byteAt a).toInt = 256 * (s.byteAt (a + 1)).toInt + (s.byteAt a).toNat := by
    rw [toInt_append_of_pos (by decide)]
    omega
  rw [← hsum, ← hlow]
  rfl

/-! ### The obligations -/

/-- An instruction whose meaning is one `storeFrom` has the store effect of its width at its address. -/
theorem completes_of_storeFrom {i : Instr} {s : State} {width : Width} {rs1 rs2 : Reg} {imm : BitVec 12}
    (hwf : s.mem.wf) (hexec : exec i s = storeFrom width rs1 rs2 imm s) :
    Completes i s (fun t => StoreEffect s t width (effectiveAddr s rs1 imm) (s.getReg rs2)) :=
  ⟨_, hexec.trans (storeFrom_eq width rs1 rs2 imm s), memStep_effect hwf width _ _⟩

/-- Settles O21: the address is the reduced sum of the integers, and each load writes the weighted sum of its bytes. -/
theorem loadResults : Obligations.LoadResults := by
  intro s rd rs1 imm ea hea
  obtain rfl : ea = effectiveAddr s rs1 imm := hea.trans (effectiveAddr_eq_ofInt s rs1 imm).symm
  exact ⟨decode_encode (i := .lb rd rs1 imm) rfl, completes_of_writeResult rfl (s.sext8_load_byte _),
    decode_encode (i := .lh rd rs1 imm) rfl, completes_of_writeResult rfl (s.sext16_load_half _),
    decode_encode (i := .lw rd rs1 imm) rfl,
    completes_of_writeResult rfl (eq_ofNat_of_toNat_eq (s.loadWord_toNat _)),
    decode_encode (i := .lbu rd rs1 imm) rfl,
    completes_of_writeResult rfl (eq_ofNat_of_toNat_eq (s.loadByte_toNat _)),
    decode_encode (i := .lhu rd rs1 imm) rfl,
    completes_of_writeResult rfl (eq_ofNat_of_toNat_eq (s.loadHalfWord_toNat _))⟩

/-- Settles O22: one lemma gives the store effect for every width. -/
theorem storeResults : Obligations.StoreResults := by
  intro s rs1 rs2 imm hwf
  exact ⟨effectiveAddr_eq_ofInt s rs1 imm,
    decode_encode (i := .sb rs1 rs2 imm) rfl, completes_of_storeFrom hwf rfl,
    decode_encode (i := .sh rs1 rs2 imm) rfl, completes_of_storeFrom hwf rfl,
    decode_encode (i := .sw rs1 rs2 imm) rfl, completes_of_storeFrom hwf rfl⟩

end Sys2Proof.Machine
end

section
/-! The packers (`45_encoder.md` R242 to R247): a concatenation of fields is the OR of the fields, each shifted left by the
widths to its right. -/

namespace Sys2Proof.Machine

/-- Widened to `k` bits, a concatenation is its upper part shifted over its lower one. -/
theorem setWidth_append_eq_or {k n m : Nat} (x : BitVec n) (y : BitVec m) :
    (x ++ y).setWidth k = x.setWidth k <<< m ||| y.setWidth k := by
  apply BitVec.eq_of_getLsbD_eq
  intro i hi
  simp only [BitVec.getLsbD_setWidth, BitVec.getLsbD_append, BitVec.getLsbD_or, BitVec.getLsbD_shiftLeft, hi]
  by_cases him : i < m
  · simp [him]
  · have hik : i - m < k := by omega
    have hy : y.getLsbD i = false := BitVec.getLsbD_of_ge y i (not_lt.mp him)
    simp [him, hik, hy]

/-- The last field of a word stands unshifted. -/
theorem append_eq_or {n m : Nat} (x : BitVec n) (y : BitVec m) :
    x ++ y = x.setWidth (n + m) <<< m ||| y.setWidth (n + m) := by
  rw [← setWidth_append_eq_or, BitVec.setWidth_eq]

/-- The last of the fields that remain stands at the shift, and those before it are shifted by its width more. -/
theorem setWidth_append_shiftLeft {k n m s : Nat} (x : BitVec n) (y : BitVec m) :
    (x ++ y).setWidth k <<< s = x.setWidth k <<< (m + s) ||| y.setWidth k <<< s := by
  rw [setWidth_append_eq_or, BitVec.shiftLeft_or_distrib, BitVec.shiftLeft_add]

/-- The upper field of a store's immediate is the immediate shifted right (R244). -/
theorem setWidth_immUpper (imm : BitVec 12) : (imm.extractLsb' 5 7).setWidth 32 = imm.setWidth 32 >>> 5 := by
  apply BitVec.eq_of_toNat_eq
  simp only [BitVec.toNat_setWidth, BitVec.extractLsb'_toNat, BitVec.toNat_ushiftRight, Nat.shiftRight_eq_div_pow]
  have himm := imm.isLt
  omega

/-- The lower field of a store's immediate is the immediate under the mask of R244. -/
theorem setWidth_immLower (imm : BitVec 12) : (imm.extractLsb' 0 5).setWidth 32 = imm.setWidth 32 &&& 0x1F#32 := by
  have hmask : (imm.setWidth 32 &&& 0x1F#32).toNat = (imm.setWidth 32).toNat % 2 ^ 5 :=
    Nat.and_two_pow_sub_one_eq_mod _ 5
  apply BitVec.eq_of_toNat_eq
  rw [hmask]
  simp only [BitVec.toNat_setWidth, BitVec.extractLsb'_toNat, Nat.shiftRight_zero]
  omega

/-- Settles O7: each format is taken apart from its last field on, once the shift and the mask of a store's immediate are
read as its two fields. -/
theorem packersFollowFormulas : Obligations.PackersFollowFormulas := by
  intro op f3 f7 rd rs1 rs2 imm12 imm20 b j
  rw [← setWidth_immUpper, ← setWidth_immLower, packR, packI, packS, packB, packU, packJ]
  refine ⟨?_, ?_, ?_, ?_, ?_, ?_⟩
  all_goals
    rw [append_eq_or]
    simp only [setWidth_append_shiftLeft]

end Sys2Proof.Machine
end

section
/-! The round trip of encoding and the opcode table (`30_encoding.md` R86 to R90, `45_encoder.md` R248): a decoded
instruction is well formed, the 37 rows are disjoint, and a word decodes to an instruction of the row it selects. -/

namespace Sys2Proof.Machine

/-- Settles O1: each word is decoded by evaluation. -/
theorem specWordsDecode : Obligations.SpecWordsDecode := by
  unfold Obligations.SpecWordsDecode
  decide

/-! ### The round trip -/

/-- Settles O2: the packers keep every field, and the fields dispatch to the instruction's own row. -/
theorem decodeEncodeRoundTrip : Obligations.DecodeEncodeRoundTrip := fun _ => decode_encode

theorem wf_of_decodeBranch {w : Word} {i : Instr} (h : decodeBranch w = some i) : i.wf = true := by
  unfold decodeBranch at h
  split at h <;> cases h <;> exact even_immBF w

theorem wf_of_decodeLoad {w : Word} {i : Instr} (h : decodeLoad w = some i) : i.wf = true := by
  unfold decodeLoad at h
  split at h <;> cases h <;> rfl

theorem wf_of_decodeStore {w : Word} {i : Instr} (h : decodeStore w = some i) : i.wf = true := by
  unfold decodeStore at h
  split at h <;> cases h <;> rfl

theorem wf_of_decodeOpImm {w : Word} {i : Instr} (h : decodeOpImm w = some i) : i.wf = true := by
  unfold decodeOpImm at h
  split at h
  case h_7 => split_ifs at h; cases h; rfl
  case h_8 => split_ifs at h <;> cases h <;> rfl
  all_goals cases h <;> rfl

theorem wf_of_decodeOp {w : Word} {i : Instr} (h : decodeOp w = some i) : i.wf = true := by
  unfold decodeOp at h
  split_ifs at h <;> split at h <;> cases h <;> rfl

/-- The offsets a decoder reads are even, so every decoded instruction has an encoding. -/
theorem wf_of_decodeWord {w : Word} {i : Instr} (h : decodeWord w = some i) : i.wf = true := by
  unfold decodeWord at h
  split at h
  case h_1 => cases h; rfl
  case h_2 => cases h; rfl
  case h_3 => cases h; exact even_immJF w
  case h_4 => split_ifs at h; cases h; rfl
  case h_5 => exact wf_of_decodeBranch h
  case h_6 => exact wf_of_decodeLoad h
  case h_7 => exact wf_of_decodeStore h
  case h_8 => exact wf_of_decodeOpImm h
  case h_9 => exact wf_of_decodeOp h
  case h_10 => cases h

/-- Settles O3: the fields of a word and its dispatch key cover all its bits. -/
theorem encodeDecodeRoundTrip : Obligations.EncodeDecodeRoundTrip := fun _ _ h =>
  have hd := decode_handler_iff.mp h
  ⟨wf_of_decodeWord hd, encode_of_decodeWord hd⟩

/-! ### The 37 rows -/

theorem opcodeTable_has_every_mnemonic (m : Mnemonic) : ∃ r ∈ opcodeTable, r.mnemonic = m := by
  cases m <;> decide

/-- Any two rows ask for different values of some bit that both their masks have. -/
theorem opcodeTable_patterns_conflict :
    ∀ r ∈ opcodeTable, ∀ q ∈ opcodeTable, r.pattern &&& q.mask = q.pattern &&& r.mask → r = q := by
  decide

theorem eq_of_selects_both {w : Word} {r q : OpcodeRow} (hr : r ∈ opcodeTable) (hq : q ∈ opcodeTable)
    (hrw : w &&& r.mask = r.pattern) (hqw : w &&& q.mask = q.pattern) : r = q := by
  refine opcodeTable_patterns_conflict r hr q hq ?_
  rw [← hrw, ← hqw, BitVec.and_assoc, BitVec.and_assoc, BitVec.and_comm r.mask]

/-! What a word that selects a row has in its fields -/

section
variable {m : Mnemonic} {pat w : Word}

theorem opcodeF_of_selects (h : OpcodeRow.selects ⟨m, pat, 0x0000007F⟩ w = true) : opcodeF w = opcodeF pat := by
  rw [selects_opcode, beq_iff_eq] at h
  rw [← h, opcodeF_packU]

theorem funct3F_of_selects (h : OpcodeRow.selects ⟨m, pat, 0x0000707F⟩ w = true) :
    opcodeF w = opcodeF pat ∧ funct3F w = funct3F pat := by
  rw [selects_funct3, beq_iff_eq] at h
  rw [← h, opcodeF_packI, funct3F_packI]
  exact ⟨rfl, rfl⟩

theorem funct7F_of_selects (h : OpcodeRow.selects ⟨m, pat, 0xFE00707F⟩ w = true) :
    opcodeF w = opcodeF pat ∧ funct3F w = funct3F pat ∧ funct7F w = funct7F pat := by
  rw [selects_funct7, beq_iff_eq] at h
  rw [← h, opcodeF_packR, funct3F_packR, funct7F_packR]
  exact ⟨rfl, rfl, rfl⟩

end

/-! A word that selects a row decodes to an instruction of that row: the row's opcode, funct3 and funct7 are those the
dispatch of R87 to R89 tests. -/

section
variable {w : Word} {r : OpcodeRow}

theorem decodeWord_of_selects_upperJump (hr : r ∈ upperJumpRows) (h : r.selects w = true) :
    ∃ i, decodeWord w = some i ∧ i.mnemonic = r.mnemonic := by
  simp only [upperJumpRows, List.mem_cons, List.not_mem_nil, or_false] at hr
  rcases hr with rfl | rfl | rfl
  · exact ⟨_, decodeWord_lui (opcodeF_of_selects h), rfl⟩
  · exact ⟨_, decodeWord_auipc (opcodeF_of_selects h), rfl⟩
  · exact ⟨_, decodeWord_jal (opcodeF_of_selects h), rfl⟩

theorem decodeWord_of_selects_controlMemory (hr : r ∈ controlMemoryRows) (h : r.selects w = true) :
    ∃ i, decodeWord w = some i ∧ i.mnemonic = r.mnemonic := by
  simp only [controlMemoryRows, List.mem_cons, List.not_mem_nil, or_false] at hr
  rcases hr with rfl | rfl | rfl | rfl | rfl | rfl | rfl | rfl | rfl | rfl | rfl | rfl | rfl | rfl | rfl
  all_goals
    obtain ⟨hop, h3⟩ := funct3F_of_selects h
    simp only [opcodeF, funct3F, BitVec.reduceExtractLsb'] at hop h3
    simp [decodeWord, decodeBranch, decodeLoad, decodeStore, opcodeF, funct3F, hop, h3, Instr.mnemonic]

theorem decodeWord_of_selects_opImm (hr : r ∈ opImmRows) (h : r.selects w = true) :
    ∃ i, decodeWord w = some i ∧ i.mnemonic = r.mnemonic := by
  simp only [opImmRows, List.mem_cons, List.not_mem_nil, or_false] at hr
  rcases hr with rfl | rfl | rfl | rfl | rfl | rfl | rfl | rfl | rfl
  iterate 6
    next =>
      obtain ⟨hop, h3⟩ := funct3F_of_selects h
      simp only [opcodeF, funct3F, BitVec.reduceExtractLsb'] at hop h3
      simp [decodeWord, decodeOpImm, opcodeF, funct3F, hop, h3, Instr.mnemonic]
  all_goals
    obtain ⟨hop, h3, h7⟩ := funct7F_of_selects h
    simp only [opcodeF, funct3F, funct7F, BitVec.reduceExtractLsb'] at hop h3 h7
    simp [decodeWord, decodeOpImm, opcodeF, funct3F, funct7F, hop, h3, h7, Instr.mnemonic]

theorem decodeWord_of_selects_op (hr : r ∈ opRows) (h : r.selects w = true) :
    ∃ i, decodeWord w = some i ∧ i.mnemonic = r.mnemonic := by
  simp only [opRows, List.mem_cons, List.not_mem_nil, or_false] at hr
  rcases hr with rfl | rfl | rfl | rfl | rfl | rfl | rfl | rfl | rfl | rfl
  all_goals
    obtain ⟨hop, h3, h7⟩ := funct7F_of_selects h
    simp only [opcodeF, funct3F, funct7F, BitVec.reduceExtractLsb'] at hop h3 h7
    simp [decodeWord, decodeOp, opcodeF, funct3F, funct7F, hop, h3, h7, Instr.mnemonic]

theorem decodeWord_of_selects (hr : r ∈ opcodeTable) (h : r.selects w = true) :
    ∃ i, decodeWord w = some i ∧ i.mnemonic = r.mnemonic := by
  simp only [opcodeTable, List.mem_append] at hr
  obtain ((hr | hr) | hr) | hr := hr
  · exact decodeWord_of_selects_upperJump hr h
  · exact decodeWord_of_selects_controlMemory hr h
  · exact decodeWord_of_selects_opImm hr h
  · exact decodeWord_of_selects_op hr h

theorem OpcodeRow.selects_iff : r.selects w = true ↔ w &&& r.mask = r.pattern := beq_iff_eq

end

/-- Settles O4: the patterns of two rows conflict on a bit that both masks keep, and the dispatch key of a row is what the
decoder tests. -/
theorem decodeMatchesOpcodeTable : Obligations.DecodeMatchesOpcodeTable := by
  refine ⟨rfl, opcodeTable_has_every_mnemonic, by decide, fun w => ⟨?_, ?_, ?_⟩⟩
  · exact fun r hr q hq => eq_of_selects_both hr hq
  · intro r hr hw
    obtain ⟨i, hd, hm⟩ := decodeWord_of_selects hr (OpcodeRow.selects_iff.mpr hw)
    exact ⟨i, decode_handler_iff.mpr hd, hm⟩
  · intro h
    refine decode_of_decodeWord_none (decodeWord_none_of_selectRow_none (selectRow_eq_none_iff.mpr fun r hr hsel => ?_))
    exact h r hr (OpcodeRow.selects_iff.mp hsel)
end Sys2Proof.Machine
end

section
/-! Memory seen through accesses of different widths (`20_memory.md` R51, R61) and the uniqueness of its canonical form. -/

namespace Sys2Proof.Machine

/-! ### Mixed widths (R51) -/

theorem State.storeWord_byteAt {s : State} (h : s.mem.wf) (a v : Word) {j : Nat} (hj : j < 4) :
    ((s.storeWord a v).byteAt (accessAddr a j)).toNat = v.toNat / 256 ^ j % 256 :=
  State.store_byteAt_inside h hj

theorem accessAddr_zero (a : Word) : accessAddr a 0 = a := BitVec.add_zero a

theorem accessAddr_add (a : Word) (i j : Nat) : accessAddr (accessAddr a i) j = accessAddr a (i + j) := by
  simp only [accessAddr, BitVec.ofNat_add, BitVec.add_assoc]

/-- The halfword of a stored word that begins at its byte `i`. -/
theorem State.storeWord_loadHalfWord {s : State} (h : s.mem.wf) (a v : Word) {i : Nat} (hi : i < 3) :
    ((s.storeWord a v).loadHalfWord (accessAddr a i)).toNat = v.toNat / 256 ^ i % 65536 := by
  have hnext : accessAddr a i + 1 = accessAddr a (i + 1) := accessAddr_add a i 1
  rw [State.loadHalfWord_toNat, hnext, State.storeWord_byteAt h a v (by omega), State.storeWord_byteAt h a v (by omega),
    Nat.pow_succ, ← Nat.div_div_eq_div_mul]
  omega

/-- Settles O24: each byte of the stored word stands at its own address, and a read is made of the bytes it covers. -/
theorem mixedWidthAccess : Obligations.MixedWidthAccess := by
  intro s a v h
  refine ⟨Memory.load_store_word h a v, ?_, ?_, fun j hj => ?_, fun width => State.store_sameMemBut h width a v⟩
  · have hlow := State.storeWord_loadHalfWord h a v (i := 0) (by decide)
    rwa [accessAddr_zero, Nat.pow_zero, Nat.div_one] at hlow
  · have hhigh : _ = v.toNat / 65536 % 65536 := State.storeWord_loadHalfWord h a v (i := 2) (by decide)
    exact hhigh.trans (by omega)
  · rw [State.loadByte_toNat, State.storeWord_byteAt h a v hj]

/-! ### The canonical form -/

/-- Past the address space nothing is listed. -/
theorem Memory.read_of_ge {m : Memory} (h : m.wf) {a : Nat} (ha : 2 ^ 32 ≤ a) : m.read a = unlistedByte := by
  induction m with
  | nil => rfl
  | cons c m ih =>
    obtain ⟨k, v⟩ := c
    obtain ⟨hk, -⟩ := h.2 (k, v) (by simp)
    have hka : k ≠ a := fun e => absurd (e ▸ hk) (not_lt.mpr ha)
    rw [Memory.read_cons, if_neg hka, ih (Memory.wf_tail h)]

/-- Settles O25: the address space holds every address that a canonical list can list. -/
theorem canonicalMemoryIsUnique : Obligations.CanonicalMemoryIsUnique := by
  intro s t hs ht hmem
  refine Memory.ext_of_read ht hs fun a => ?_
  by_cases ha : a < 2 ^ 32
  · have hread := hmem (BitVec.ofNat 32 a)
    rwa [State.byteAt_eq, State.byteAt_eq, BitVec.toNat_ofNat, Nat.mod_eq_of_lt ha] at hread
  · rw [Memory.read_of_ge ht (not_lt.mp ha), Memory.read_of_ge hs (not_lt.mp ha)]

/-! ### A fetch after a store (R61) -/

/-- Byte k of the word fetched at an address is the byte memory holds there. -/
theorem State.fetchWord_byte (t : State) (a : Word) {k : Nat} (hk : k < 4) :
    (State.fetchWord { t with pc := a }).toNat / 256 ^ k % 256 = (t.byteAt (accessAddr a k)).toNat := by
  rw [← byteOf_toNat, State.byteAt_accessAddr]
  exact congrArg BitVec.toNat (Memory.byteOf_load t.mem .word a hk)

theorem exec_storeInstr (width : Width) (rs1 rs2 : Reg) (imm : BitVec 12) (s : State) :
    exec (storeInstr width rs1 rs2 imm) s = storeFrom width rs1 rs2 imm s := by
  cases width <;> rfl

/-- Settles O26: a fetch reads the memory that the store left, whatever the address. -/
theorem fetchSeesTheStore : Obligations.FetchSeesTheStore := by
  intro s width rs1 rs2 imm h
  obtain ⟨t, ht, heff⟩ := completes_of_storeFrom h (exec_storeInstr width rs1 rs2 imm s)
  refine ⟨t, ht, heff.rest.numInstrs, fun a k hk => ⟨t.fetchWord_byte a hk, fun j hj he => ?_⟩⟩
  rw [t.fetchWord_byte a hk, he, heff.stored j hj]

end Sys2Proof.Machine
end

section
/-! What every instruction does (`40_simulator_step.md` R111, R112): a completed handler has one of three shapes, and what
holds of the three holds of every instruction. -/

namespace Sys2Proof.Machine

/-- What the three shapes of a completed step have, every instruction has. -/
theorem completes_of_shapes {s : State} {effect : State → Prop} (hreg : ∀ rd v p, effect (regStep s rd v p))
    (hpc : ∀ p, effect (pcStep s p)) (hmem : ∀ width a v, effect (memStep s width a v (s.pc + 4))) (i : Instr) :
    Completes i s effect := by
  obtain ⟨rd, v, p, h⟩ | ⟨p, h⟩ | ⟨width, a, v, h⟩ := exec_cases i s
  · exact ⟨_, h, hreg rd v p⟩
  · exact ⟨_, h, hpc p⟩
  · exact ⟨_, h, hmem width a v⟩

theorem memStep_rest (s : State) (width : Width) (a v p : Word) : SameRest s (memStep s width a v p) :=
  ⟨by simp, by simp, by simp, by simp, by simp, by simp⟩

/-- Settles O33: every handler completes, and no shape of a step writes the parameters, the counters or the fault. -/
theorem instructionsNeverFail : Obligations.InstructionsNeverFail := fun i s =>
  completes_of_shapes (effect := SameRest s) (fun rd v p => (regStep_effect s rd v p).rest)
    (fun p => (pcStep_effect s p).rest) (fun width a v => memStep_rest s width a v _) i

/-! ### The diffs of a step -/

/-- Which shape a step has is decided by the major opcode. -/
theorem exec_shape_of_opcode (i : Instr) (s : State) :
    if opcodeF (encode i) = 0x63 then ∃ p, exec i s = .next (pcStep s p)
    else if opcodeF (encode i) = 0x23 then ∃ width a v, exec i s = .next (memStep s width a v (s.pc + 4))
    else ∃ rd v p, exec i s = .next (regStep s rd v p) := by
  cases i with
  | beq | bne | blt | bge | bltu | bgeu =>
    rw [if_pos (by simp [encode, encodeBranch])]
    exact ⟨_, branchIf_eq _ _ s⟩
  | sb | sh | sw =>
    rw [if_neg (by simp [encode, encodeStore]), if_pos (by simp [encode, encodeStore])]
    exact ⟨_, _, _, rfl⟩
  | _ =>
    rw [if_neg (by simp [encode, encodeLoad, encodeOpImm, encodeShift, encodeOp]),
      if_neg (by simp [encode, encodeLoad, encodeOpImm, encodeShift, encodeOp])]
    exact ⟨_, _, _, rfl⟩

/-- Settles O29: the three shapes, told apart by the opcode. -/
theorem handlersMakeOneOrTwoWrites : Obligations.HandlersMakeOneOrTwoWrites := by
  intro i s
  have hshape := exec_shape_of_opcode i s
  split_ifs at hshape with hbranch hstore
  · obtain ⟨p, h⟩ := hshape
    refine ⟨_, h, [], [], pcStep_history s p, ?_, ?_⟩
    · rw [pcStep_result, pcStep_pc, List.nil_append]
    · rw [if_pos hbranch]
      exact ⟨rfl, rfl⟩
  · obtain ⟨width, a, v, h⟩ := hshape
    refine ⟨_, h, [_], [.mem a width ((s.mem.store width a v).load width a)], memStep_history s width a v _, ?_, ?_⟩
    · rw [memStep_result, memStep_pc]
      rfl
    · rw [if_neg hbranch, if_pos hstore]
      exact ⟨a, width, _, _, rfl, rfl⟩
  · obtain ⟨rd, v, p, h⟩ := hshape
    refine ⟨_, h, [_], [.reg rd ((s.putReg rd v).getReg rd)], regStep_history s rd v p, ?_, ?_⟩
    · rw [regStep_result, regStep_pc]
      rfl
    · rw [if_neg hbranch, if_neg hstore]
      exact ⟨rd, _, _, rfl, rfl⟩

/-- Settles O30: each accessor of the three shapes reads its location before its write and after it. -/
theorem diffsHoldOldAndNewValues : Obligations.DiffsHoldOldAndNewValues := by
  intro i s
  refine completes_of_shapes (fun rd v p => ?_) (fun p => ?_) (fun width a v => ?_) i
  · refine ⟨_, _, regStep_history s rd v p, regStep_result s rd v p, ?_, ?_, ?_⟩
    · exact .cons rfl (.cons trivial .nil)
    · simp [Diff.holdsIn]
    · simp [Diff.holdsIn, State.getReg]
  · refine ⟨_, _, pcStep_history s p, pcStep_result s p, .cons trivial .nil, ?_, ?_⟩
    · simp [Diff.holdsIn]
    · simp [Diff.holdsIn]
  · refine ⟨_, _, memStep_history s width a v _, memStep_result s width a v _, ?_, ?_, ?_⟩
    · exact .cons ⟨rfl, rfl⟩ (.cons trivial .nil)
    · simp [Diff.holdsIn]
    · simp [Diff.holdsIn]

/-- Settles O31: a shape writes the register or the bytes that its first diff names, and the pc. -/
theorem unnamedLocationsUnchanged : Obligations.UnnamedLocationsUnchanged := by
  intro i s h
  refine completes_of_shapes (fun rd v p => ?_) (fun p => ?_) (fun width a v => ?_) i
  · have heff := regStep_effect s rd v p
    refine ⟨_, heff.history, fun r hr => heff.others r fun e => ?_, fun a _ => heff.mem a, heff.rest⟩
    exact hr (.reg rd (s.getReg rd)) (by simp) e.symm
  · have heff := pcStep_effect s p
    exact ⟨_, heff.history, fun r _ => heff.regs r, fun a _ => heff.mem a, heff.rest⟩
  · have heff := memStep_effect h width a v
    refine ⟨_, heff.history, fun r _ => heff.regs r, fun b hb => heff.others b fun j hj e => ?_, heff.rest⟩
    exact hb (.mem a width (s.load width a)) (by simp) ⟨j, hj, e⟩

end Sys2Proof.Machine
end

section
/-! One step (`40_simulator_step.md` R110 to R116): which states it answers, what it returns, and what it keeps. -/

namespace Sys2Proof.Machine

/-! ### The clauses of R110 -/

/-- A machine that is not faulted steps. -/
theorem step_of_not_faulted {s : State} (hf : s.faulted = none) : ∃ t, step s = .next t := by
  rcases hd : decode s.fetchWord with i | w
  · obtain ⟨t, ht, -⟩ := instructionsNeverFail i s
    exact ⟨t, (step_of_handler hf hd).trans ht⟩
  · exact ⟨_, step_of_noHandler hf hd⟩

/-- Settles O34: an instruction completes, a word with no handler is answered by a next state, and the one fault is that
of a machine already faulted. -/
theorem stepStopsOnlyWhenFaulted : Obligations.StepStopsOnlyWhenFaulted := by
  refine fun s => ⟨step_of_not_faulted, fun a w => Tests.step_faulted, fun r hr => ?_⟩
  rcases hf : s.faulted with - | ⟨a, w⟩
  · obtain ⟨t, ht⟩ := step_of_not_faulted hf
    exact nomatch ht.symm.trans hr
  · exact nomatch (Tests.step_faulted hf).symm.trans hr

/-- Settles O32: the word fetched is that of the four bytes. -/
theorem stepRunsDecodedInstruction : Obligations.StepRunsDecodedInstruction := by
  rintro s b0 b1 b2 b3 rfl rfl rfl rfl
  have hfetch : s.fetchWord =
      wordOfBytes (s.byteAt s.pc) (s.byteAt (s.pc + 1)) (s.byteAt (s.pc + 2)) (s.byteAt (s.pc + 3)) := by
    rw [State.fetchWord_eq_wordOfBytes, accessAddr_zero]
    rfl
  rw [decodeBytes, ← hfetch]
  exact ⟨fun i => step_of_handler, fun w => step_of_noHandler, fun a w => Tests.step_faulted⟩

/-! ### What a step returns and keeps -/

/-- A next state is the answer of a completed instruction, under Skip that of a word with no handler, or under Fail that
of such a word: in the last case alone it is faulted. -/
theorem step_answer {s t : State} (h : step s = .next t) :
    (t.faulted = none ∧ ∃ posts, t.result = some (.ok posts)) ∨
    (s.params.invalidPolicy = .fail ∧
      ∃ w, t = { s with faulted := some (s.pc, w), result := some (.invalid s.pc w) }) := by
  obtain ⟨hf, ⟨i, -, hi⟩ | ⟨w, -, rfl⟩⟩ := step_next_cases h
  · left
    obtain ⟨rd, v, p, rfl⟩ | ⟨p, rfl⟩ | ⟨width, a, v, rfl⟩ := exec_next_cases hi
    · exact ⟨(regStep_faulted s rd v p).trans hf, _, regStep_result s rd v p⟩
    · exact ⟨(pcStep_faulted s p).trans hf, _, pcStep_result s p⟩
    · exact ⟨(memStep_faulted s width a v _).trans hf, _, memStep_result s width a v _⟩
  · cases hp : s.params.invalidPolicy with
    | fail => exact .inr ⟨rfl, w, noHandler_fail hp s.pc w⟩
    | skip =>
      rw [noHandler_skip hp]
      exact .inl ⟨hf, [], rfl⟩

theorem noHandler_keeps (s : State) (a w : Word) :
    (s.noHandler a w).params = s.params ∧ (s.noHandler a w).cycles = s.cycles ∧
    (s.noHandler a w).numInstrs = s.numInstrs ∧ SameArch s (s.noHandler a w) := by
  unfold State.noHandler
  split <;> exact ⟨rfl, rfl, rfl, rfl, rfl, rfl⟩

/-- No step writes the parameters, `cycles` or N (R120). -/
theorem step_keeps {s t : State} (h : step s = .next t) :
    t.params = s.params ∧ t.cycles = s.cycles ∧ t.numInstrs = s.numInstrs := by
  obtain ⟨-, ⟨i, -, hi⟩ | ⟨w, -, rfl⟩⟩ := step_next_cases h
  · obtain ⟨u, hu, hrest⟩ := instructionsNeverFail i s
    cases hu.symm.trans hi
    exact ⟨hrest.params, hrest.cycles, hrest.numInstrs⟩
  · obtain ⟨hparams, hcycles, hnum, -⟩ := noHandler_keeps s s.pc w
    exact ⟨hparams, hcycles, hnum⟩

theorem step_memWf {s t : State} (hwf : s.mem.wf) (h : step s = .next t) : t.mem.wf := by
  obtain ⟨-, ⟨i, -, hi⟩ | ⟨w, -, rfl⟩⟩ := step_next_cases h
  · obtain ⟨rd, v, p, rfl⟩ | ⟨p, rfl⟩ | ⟨width, a, v, rfl⟩ := exec_next_cases hi
    · rwa [regStep_mem]
    · rwa [pcStep_mem]
    · rw [memStep_mem]
      exact Memory.wf_store hwf width a v
  · obtain ⟨-, -, -, harch⟩ := noHandler_keeps s s.pc w
    rwa [harch.mem]

end Sys2Proof.Machine
end

section
/-! Undo against step (`41_accessors_and_diffs.md` R141 to R144, `70_reset_and_hazards.md` R352): an `undo` takes back one
step, and unwinding the history takes back all of them. -/

namespace Sys2Proof.Machine

/-! ### What `undo` reads and restores -/

/-- Registers, pc, memory and history agree: all that `undo` reads or writes. -/
structure SameTrace (s t : State) : Prop where
  arch : SameArch s t
  history : t.history = s.history

theorem SameArch.refl (s : State) : SameArch s s := ⟨rfl, rfl, rfl⟩

theorem SameArch.trans {s t u : State} (h : SameArch s t) (h' : SameArch t u) : SameArch s u :=
  ⟨h'.regs.trans h.regs, h'.pc.trans h.pc, h'.mem.trans h.mem⟩

theorem SameTrace.refl (s : State) : SameTrace s s := ⟨.refl s, rfl⟩

theorem SameTrace.trans {s t u : State} (h : SameTrace s t) (h' : SameTrace t u) : SameTrace s u :=
  ⟨h.arch.trans h'.arch, h'.history.trans h.history⟩

theorem SameArch.apply {s t : State} (h : SameArch s t) (d : Diff) : SameArch (d.apply s) (d.apply t) := by
  cases d with
  | reg i v => exact ⟨by simp only [Diff.apply, State.putReg_regs, h.regs], h.pc, h.mem⟩
  | pc v => exact ⟨h.regs, rfl, h.mem⟩
  | mem a width v => exact ⟨h.regs, h.pc, by simp only [Diff.apply, State.putMem_mem, h.mem]⟩

theorem SameArch.applyReversed {s t : State} (h : SameArch s t) (set : DiffSet) :
    SameArch (applyReversed set s) (applyReversed set t) := by
  unfold Machine.applyReversed
  induction set.reverse generalizing s t with
  | nil => exact h
  | cons d ds ih => exact ih (h.apply d)

theorem SameTrace.undo {s t : State} (h : SameTrace s t) : SameTrace s.undo t.undo := by
  refine ⟨?_, by rw [State.undo_history, State.undo_history, h.history]⟩
  rcases hs : s.history with - | ⟨set, rest⟩
  · rw [State.undo_of_nil hs, State.undo_of_nil (h.history.trans hs)]
    exact h.arch
  · rw [State.undo_of_cons hs, State.undo_of_cons (h.history.trans hs)]
    have hpop : SameArch { s with history := rest } { t with history := rest } := ⟨h.arch.regs, h.arch.pc, h.arch.mem⟩
    exact hpop.applyReversed set

theorem SameTrace.undoN {s t : State} (h : SameTrace s t) (k : Nat) : SameTrace (s.undoN k) (t.undoN k) := by
  induction k generalizing s t with
  | zero => exact h
  | succ k ih => exact ih h.undo

/-- The last of `k + 1` undos. -/
theorem State.undoN_succ (s : State) (k : Nat) : s.undoN (k + 1) = (s.undoN k).undo := by
  induction k generalizing s with
  | zero => rfl
  | succ k ih => exact ih s.undo

/-- What one `undo` keeps, `k` of them keep. -/
theorem State.undoN_keeps {α : Type} {f : State → α} (hf : ∀ s : State, f s.undo = f s) (s : State) (k : Nat) :
    f (s.undoN k) = f s := by
  induction k generalizing s with
  | zero => rfl
  | succ k ih => exact (ih s.undo).trans (hf s)

theorem State.undoN_history (s : State) (k : Nat) : (s.undoN k).history = s.history.drop k := by
  induction k generalizing s with
  | zero => rfl
  | succ k ih => rw [State.undoN, ih, State.undo_history, List.drop_tail]

/-! ### One step -/

/-- Writing back what a register read undoes a write to it. -/
theorem State.putReg_putReg_getReg (s : State) (i : Reg) (v : Word) :
    ((s.putReg i v).putReg i (s.getReg i)).regs = s.regs := by
  by_cases h : i = 0
  · simp [h]
  · simp [h, State.getReg_of_ne]

/-- The second of two diffs is applied first (R142). -/
theorem applyReversed_pair (d e : Diff) (s : State) : applyReversed [d, e] s = d.apply (e.apply s) := rfl

theorem regStep_undo (s : State) (rd : Reg) (v p : Word) : SameTrace s (regStep s rd v p).undo := by
  rw [State.undo_of_cons (regStep_history s rd v p)]
  refine ⟨⟨?_, rfl, rfl⟩, rfl⟩
  simpa only [State.putReg_regs, applyReversed_pair, Diff.apply, State.putPC_regs, regStep_regs] using
    s.putReg_putReg_getReg rd v

theorem pcStep_undo (s : State) (p : Word) : SameTrace s (pcStep s p).undo := by
  rw [State.undo_of_cons (pcStep_history s p)]
  exact ⟨⟨rfl, rfl, rfl⟩, rfl⟩

theorem memStep_undo {s : State} (h : s.mem.wf) (width : Width) (a v p : Word) :
    SameTrace s (memStep s width a v p).undo := by
  refine ⟨?_, by rw [State.undo_history, memStep_history, List.tail_cons]⟩
  rw [State.undo_of_cons (memStep_history s width a v p), applyReversed_pair]
  constructor
  · simp [Diff.apply]
  · simp [Diff.apply]
  · simp [Diff.apply, Memory.store_store_load h]

/-- A step that did not fail is taken back by `undo`. -/
theorem step_undo {s t : State} (hwf : s.mem.wf) (h : step s = .next t) (hf : t.faulted = none) :
    SameTrace s t.undo := by
  obtain ⟨-, ⟨i, -, hi⟩ | ⟨w, -, rfl⟩⟩ := step_next_cases h
  · obtain ⟨rd, v, p, rfl⟩ | ⟨p, rfl⟩ | ⟨width, a, v, rfl⟩ := exec_next_cases hi
    · exact regStep_undo s rd v p
    · exact pcStep_undo s p
    · exact memStep_undo hwf width a v _
  · cases hp : s.params.invalidPolicy with
    | fail =>
      rw [noHandler_fail hp] at hf
      exact nomatch hf
    | skip =>
      rw [noHandler_skip hp]
      exact ⟨⟨rfl, rfl, rfl⟩, rfl⟩

/-- Settles O44: `undo` applies the diffs a step recorded, the pc's first, and a store's bytes are all in its diff. -/
theorem undoReversesStep : Obligations.UndoReversesStep := by
  intro s t hwf h hf
  obtain ⟨harch, hhistory⟩ := step_undo hwf h hf
  exact ⟨harch, hhistory⟩

/-! ### Many steps -/

theorem stepN_succ_eq_next {k : Nat} {s t : State} :
    stepN (k + 1) s = .next t ↔ ∃ u, step s = .next u ∧ stepN k u = .next t := by
  rw [stepN]
  cases step s <;> simp

/-- A fault is never left, so a run of steps that ends without one began without one. -/
theorem not_faulted_of_stepN {k : Nat} {s t : State} (h : stepN k s = .next t) (hf : t.faulted = none) :
    s.faulted = none := by
  cases k with
  | zero =>
    cases h
    exact hf
  | succ k =>
    obtain ⟨u, hu, -⟩ := stepN_succ_eq_next.mp h
    exact (step_next_cases hu).1

theorem stepN_undoN {k : Nat} {s t : State} (hwf : s.mem.wf) (h : stepN k s = .next t) (hf : t.faulted = none) :
    SameTrace s (t.undoN k) := by
  induction k generalizing s with
  | zero =>
    cases h
    exact .refl _
  | succ k ih =>
    obtain ⟨u, hu, hrest⟩ := stepN_succ_eq_next.mp h
    rw [State.undoN_succ]
    exact (step_undo hwf hu (not_faulted_of_stepN hrest hf)).trans (ih (step_memWf hwf hu) hrest).undo

/-- Settles O45: the first step is taken back by the last `undo`, which finds the trace that step left. -/
theorem undoRoundTrip : Obligations.UndoRoundTrip := by
  intro k s t hwf h hf
  exact (stepN_undoN hwf h hf).arch

/-! ### Words with no handler (R113, R114, R116) -/

/-- Settles O36: the pushed set names nothing, so the next step and `undo` find what was there. -/
theorem invalidUnderSkipPushesEmptySet : Obligations.InvalidUnderSkipPushesEmptySet := by
  intro s w hf hp hd
  refine ⟨?_, hd, ⟨rfl, rfl, rfl⟩, rfl, hf⟩
  rw [step_of_noHandler hf hd, noHandler_skip hp]

/-! ### The whole history (R352) -/

/-- What every state that a host reaches from `s₀` keeps of it: the parameters, N, canonical memory, and a history that
unwinds to its trace. -/
structure UnwindsTo (s₀ s : State) : Prop where
  params : s.params = s₀.params
  numInstrs : s.numInstrs = s₀.numInstrs
  memWf : s.mem.wf
  trace : SameTrace s₀ (s.undoN s.history.length)

theorem applyReversed_memWf (set : DiffSet) {s : State} (h : s.mem.wf) : (applyReversed set s).mem.wf := by
  unfold applyReversed
  induction set.reverse generalizing s with
  | nil => exact h
  | cons d ds ih =>
    refine ih ?_
    cases d with
    | reg i v => exact h
    | pc v => exact h
    | mem a width v => exact Memory.wf_store h width a v

theorem State.undo_memWf {s : State} (h : s.mem.wf) : s.undo.mem.wf := by
  rcases hs : s.history with - | ⟨set, rest⟩
  · rwa [State.undo_of_nil hs]
  · rw [State.undo_of_cons hs]
    exact applyReversed_memWf set h

theorem step_history_length {s t : State} (h : step s = .next t) (hf : t.faulted = none) :
    t.history.length = s.history.length + 1 := by
  obtain ⟨-, ⟨i, -, hi⟩ | ⟨w, -, rfl⟩⟩ := step_next_cases h
  · obtain ⟨rd, v, p, rfl⟩ | ⟨p, rfl⟩ | ⟨width, a, v, rfl⟩ := exec_next_cases hi <;> simp
  · cases hp : s.params.invalidPolicy with
    | fail =>
      rw [noHandler_fail hp] at hf
      exact nomatch hf
    | skip =>
      rw [noHandler_skip hp]
      rfl

theorem UnwindsTo.step {s₀ s t : State} (h : UnwindsTo s₀ s) (ht : step s = .next t) : UnwindsTo s₀ t := by
  obtain ⟨hparams, -, hnum⟩ := step_keeps ht
  refine ⟨hparams.trans h.params, hnum.trans h.numInstrs, step_memWf h.memWf ht, ?_⟩
  obtain ⟨hf, -⟩ | ⟨-, w, rfl⟩ := step_answer ht
  · rw [step_history_length ht hf]
    exact h.trace.trans ((step_undo h.memWf ht hf).undoN s.history.length)
  · have hsame : SameTrace s { s with faulted := some (s.pc, w), result := some (.invalid s.pc w) } :=
      ⟨⟨rfl, rfl, rfl⟩, rfl⟩
    exact h.trace.trans (hsame.undoN s.history.length)

theorem UnwindsTo.undo {s₀ s : State} (h : UnwindsTo s₀ s) : UnwindsTo s₀ s.undo := by
  refine ⟨s.undo_params.trans h.params, s.undo_numInstrs.trans h.numInstrs, State.undo_memWf h.memWf, ?_⟩
  have htrace := h.trace
  rw [State.undo_history]
  rcases hs : s.history with - | ⟨set, rest⟩
  · rwa [State.undo_of_nil hs, List.tail_nil, ← hs]
  · rwa [hs] at htrace

theorem UnwindsTo.of_reachable {s₀ s : State} (hwf : s₀.mem.wf) (hh : s₀.history = []) (h : Reachable s₀ s) :
    UnwindsTo s₀ s := by
  induction h with
  | start => exact ⟨rfl, rfl, hwf, by rw [hh]; exact .refl s₀⟩
  | step _ ht ih => exact ih.step ht
  | count _ ih =>
    rename_i t _
    have hsame : SameTrace t { t with cycles := t.cycles + 1 } := ⟨⟨rfl, rfl, rfl⟩, rfl⟩
    exact ⟨ih.params, ih.numInstrs, ih.memWf, ih.trace.trans (hsame.undoN t.history.length)⟩
  | undo _ ih => exact ih.undo

theorem construct_memWf (p : Params) (prog : Program) : (State.construct p prog).mem.wf :=
  Memory.wf_placeBytes (Memory.wf_placeWords Memory.wf_nil _ _) _ _

theorem State.isReady_iff (s : State) :
    s.isReady = true ↔ s.regs = initialRegs s.params ∧ s.pc = initialPc s.params ∧ s.cycles = 0 ∧ s.history = [] ∧
      s.faulted = none := by
  simp [State.isReady, and_assoc]

/-- With an empty history the memory is that of construction, so what Ready leaves out is there too. -/
theorem ready_iff_sameVector {p : Params} {prog : Program} {s : State} (h : UnwindsTo (State.construct p prog) s) :
    s.isReady = true ↔ SameVector (State.construct p prog) s := by
  rw [State.isReady_iff, h.params, State.construct_params]
  constructor
  · rintro ⟨-, -, hcycles, hhistory, hfault⟩
    have htrace := h.trace
    rw [hhistory] at htrace
    exact ⟨htrace.arch, hcycles, hhistory, h.numInstrs, hfault⟩
  · rintro ⟨harch, hcycles, hhistory, -, hfault⟩
    exact ⟨harch.regs, harch.pc, hcycles, hhistory, hfault⟩

/-- Settles O46: every call a host may make keeps a history that unwinds to construction. -/
theorem wholeHistoryUnwinds : Obligations.WholeHistoryUnwinds := by
  intro p prog s hreach
  have h := UnwindsTo.of_reachable (construct_memWf p prog) (State.construct_history p prog) hreach
  exact ⟨h.trace.arch, h.trace.history, State.undoN_keeps State.undo_cycles s _, State.undoN_keeps State.undo_faulted s _,
    ready_iff_sameVector h⟩

end Sys2Proof.Machine
end

section
/-! The invariant (`10_state.md` R20 to R23, `40_simulator_step.md` R111 to R116): construction has it, and every step and
every `undo` keeps it. -/

namespace Sys2Proof.Machine

/-- Settles O48: memory is built by canonical writes, and everything else is as its field says. -/
theorem constructionInvariant : Obligations.ConstructionInvariant := fun p prog =>
  { memWf := construct_memWf p prog
    zeroReg := by simp [initialRegs]
    noPre := rfl
    noPost := rfl
    sets := by simp
    emptySets := by simp
    faultPolicy := by simp
    faultResult := by simp }

/-- Settles O47: reset is construction from the empty Program. -/
theorem resetInvariant : Obligations.ResetInvariant :=
  ⟨constructionInvariant suggestedParams Program.empty, by decide⟩

/-! ### Steps -/

/-- What a completed step must show for the invariant: a set a handler records on top of the history, and an answer Ok. -/
theorem State.Inv.of_completed {s t : State} {set : DiffSet} {posts : DiffSet} (h : s.Inv) (hf : s.faulted = none)
    (hwf : t.mem.wf) (hzero : t.regs[0] = s.regs[0]) (hrest : SameRest s t) (hhistory : t.history = set :: s.history)
    (hset : recordedSet set) (hne : set ≠ []) (hresult : t.result = some (.ok posts)) : t.Inv where
  memWf := hwf
  zeroReg := hzero.trans h.zeroReg
  noPre := hrest.noPre
  noPost := hrest.noPost
  sets := by
    rw [hhistory]
    exact List.forall_mem_cons.mpr ⟨hset, h.sets⟩
  emptySets := by
    rw [hhistory, hrest.params, List.mem_cons]
    rintro (he | he)
    · exact absurd he.symm hne
    · exact h.emptySets he
  faultPolicy := by simp [hrest.faulted, hf]
  faultResult := by simp [hrest.faulted, hf, hresult]

theorem State.Inv.exec {s t : State} {i : Instr} (h : s.Inv) (hf : s.faulted = none) (hi : exec i s = .next t) :
    t.Inv := by
  have hzero := exec_zeroReg hi
  obtain ⟨rd, v, p, rfl⟩ | ⟨p, rfl⟩ | ⟨width, a, v, rfl⟩ := exec_next_cases hi
  · have heff := regStep_effect s rd v p
    refine h.of_completed hf (by simpa using h.memWf) hzero heff.rest heff.history ?_ (by simp) heff.result
    rintro rfl
    exact State.getReg_zero s
  · have heff := pcStep_effect s p
    exact h.of_completed hf (by simpa using h.memWf) hzero heff.rest heff.history trivial (by simp) heff.result
  · have heff := memStep_effect h.memWf width a v
    refine h.of_completed hf ?_ hzero heff.rest heff.history (Memory.load_lt s.mem width a) (by simp) heff.result
    rw [memStep_mem]
    exact Memory.wf_store h.memWf width a v

theorem State.Inv.noHandler {s : State} (h : s.Inv) (hf : s.faulted = none) (a w : Word) : (s.noHandler a w).Inv := by
  cases hp : s.params.invalidPolicy with
  | fail =>
    rw [noHandler_fail hp]
    exact { h with faultPolicy := fun _ => hp, faultResult := by simp }
  | skip =>
    rw [noHandler_skip hp]
    exact
      { h with
        sets := List.forall_mem_cons.mpr ⟨trivial, h.sets⟩
        emptySets := fun _ => hp
        faultResult := by simp [hf] }

/-- Settles O49: a step runs a handler, in one of the three shapes, or answers a word with no handler. -/
theorem stepKeepsInvariant : Obligations.StepKeepsInvariant := by
  intro s t h hstep
  obtain ⟨hf, ⟨i, -, hi⟩ | ⟨w, -, rfl⟩⟩ := step_next_cases hstep
  · exact h.exec hf hi
  · exact h.noHandler hf s.pc w

/-! ### Undo -/

theorem Diff.apply_preList (d : Diff) (s : State) : (d.apply s).preList = s.preList := by cases d <;> rfl
theorem Diff.apply_postList (d : Diff) (s : State) : (d.apply s).postList = s.postList := by cases d <;> rfl
theorem Diff.apply_result (d : Diff) (s : State) : (d.apply s).result = s.result := by cases d <;> rfl

/-- Settles O50: an `undo` writes registers, pc and memory, and pops a set. -/
theorem undoKeepsInvariant : Obligations.UndoKeepsInvariant := fun s h =>
  { memWf := State.undo_memWf h.memWf
    zeroReg := s.undo_zeroReg.trans h.zeroReg
    noPre := (State.undo_keeps Diff.apply_preList (fun _ _ => rfl) s).trans h.noPre
    noPost := (State.undo_keeps Diff.apply_postList (fun _ _ => rfl) s).trans h.noPost
    sets := fun set hset => h.sets set (List.mem_of_mem_tail (s.undo_history ▸ hset))
    emptySets := fun he => s.undo_params ▸ h.emptySets (List.mem_of_mem_tail (s.undo_history ▸ he))
    faultPolicy := by
      rw [State.undo_faulted, State.undo_params]
      exact h.faultPolicy
    faultResult := by
      rw [State.undo_faulted, State.undo_keeps Diff.apply_result (fun _ _ => rfl) s]
      exact h.faultResult }

end Sys2Proof.Machine
end

section
/-! The loop of `run` (`40_simulator_step.md` R117 to R119): its turns, one equation each, then where every run ends and
where a program that stays in place does. -/

namespace Sys2Proof.Machine

/-! ### One turn -/

theorem State.isDone_iff (s : State) :
    s.isDone = true ↔ s.params.textBase.toNat + 4 * s.numInstrs ≤ s.pc.toNat ∨ s.params.maxCycles < s.cycles := by
  rw [State.isDone, Bool.or_eq_true, decide_eq_true_eq, decide_eq_true_eq]
  rfl

theorem State.isDone_eq_false_iff (s : State) :
    s.isDone = false ↔ s.pc.toNat < s.params.textBase.toNat + 4 * s.numInstrs ∧ s.cycles ≤ s.params.maxCycles := by
  rw [← Bool.not_eq_true, State.isDone_iff]
  omega

/-- The state of the next turn: the step's, with the cycle counted. -/
def State.counted (t : State) : State := { t with cycles := t.cycles + 1 }

theorem runLoop_of_isDone {s : State} (h : s.isDone = true) (k : Nat) : runLoop k s = .next (s, .done) := by
  cases k with
  | zero => rfl
  | succ k => rw [runLoop, if_pos h]

theorem run_of_isDone {s : State} (h : s.isDone = true) : s.run = .next (s, .done) := runLoop_of_isDone h _

section
variable {s t : State}

/-- Where `isDone` is false the bound leaves a turn (R119). -/
theorem run_of_not_isDone (h : s.isDone = false) : s.run = runLoop (s.params.maxCycles - s.cycles + 1) s := by
  obtain ⟨-, hcycles⟩ := s.isDone_eq_false_iff.mp h
  rw [State.run, Nat.sub_add_comm hcycles]

theorem run_of_invalid {a w : Word} (h : s.isDone = false) (hs : step s = .next t)
    (hr : t.result = some (.invalid a w)) : s.run = .next (t, .invalid a w) := by
  simp [run_of_not_isDone h, runLoop, h, hs, hr]

theorem run_of_fault {a w : Word} (h : s.isDone = false) (hs : step s = .fault (.invalidInstruction a w)) :
    s.run = .next (s, .invalid a w) := by
  simp [run_of_not_isDone h, runLoop, h, hs]

theorem run_of_ok {posts : DiffSet} (h : s.isDone = false) (hs : step s = .next t)
    (hr : t.result = some (.ok posts)) : s.run = t.counted.run := by
  obtain ⟨-, hcycles⟩ := s.isDone_eq_false_iff.mp h
  obtain ⟨hparams, hcount, -⟩ := step_keeps hs
  have hturns : s.params.maxCycles - s.cycles = t.counted.params.maxCycles + 1 - t.counted.cycles := by
    simp only [State.counted, hparams, hcount]
    omega
  rw [run_of_not_isDone h, hturns]
  simp only [runLoop, h, Bool.false_eq_true, if_false, hs, hr]
  rw [← hr]
  rfl

end

/-- Settles O39: one equation for each way a turn can go. -/
theorem runFollowsItsLoop : Obligations.RunFollowsItsLoop := fun s =>
  ⟨s.isDone_iff, run_of_isDone, fun h _ hs => ⟨fun _ _ => run_of_invalid h hs, fun _ => run_of_ok h hs⟩,
    fun h _ _ => run_of_fault h⟩

/-! ### Every run ends (R119) -/

/-- How `run` from `s` may end: in `t`, with `r`. -/
def EndsWithinCeiling (s t : State) (r : RunResult) : Prop :=
  t.params = s.params ∧ s.cycles ≤ t.cycles ∧ t.cycles ≤ max s.cycles (s.params.maxCycles + 1) ∧
  match r with
  | .done => t.params.textBase.toNat + 4 * t.numInstrs ≤ t.pc.toNat ∨ t.params.maxCycles < t.cycles
  | .invalid a w => t.faulted = some (a, w) ∧ t.cycles ≤ s.params.maxCycles

/-- A turn that goes on starts from a state with the same parameters and one cycle more. -/
theorem EndsWithinCeiling.of_turn {s u t : State} {r : RunResult} (hcycles : s.cycles ≤ s.params.maxCycles)
    (hparams : u.params = s.params) (hcount : u.cycles = s.cycles + 1) (h : EndsWithinCeiling u t r) :
    EndsWithinCeiling s t r := by
  obtain ⟨hp, hlow, hhigh, hr⟩ := h
  refine ⟨hp.trans hparams, by omega, by rw [hparams] at hhigh; omega, ?_⟩
  cases r with
  | done => exact hr
  | invalid a w =>
    rw [hparams] at hr
    exact hr

theorem ends_of_isDone {s : State} (h : s.isDone = true) : ∃ t r, s.run = .next (t, r) ∧ EndsWithinCeiling s t r :=
  ⟨s, .done, run_of_isDone h, rfl, le_rfl, le_max_left _ _, s.isDone_iff.mp h⟩

theorem run_ends (s : State) : ∃ t r, s.run = .next (t, r) ∧ EndsWithinCeiling s t r := by
  induction hk : s.params.maxCycles + 1 - s.cycles generalizing s with
  | zero => exact ends_of_isDone (s.isDone_iff.mpr (.inr (by omega)))
  | succ k ih =>
    cases hdone : s.isDone with
    | true => exact ends_of_isDone hdone
    | false =>
      obtain ⟨-, hcycles⟩ := s.isDone_eq_false_iff.mp hdone
      rcases hf : s.faulted with - | ⟨a, w⟩
      · obtain ⟨t, ht⟩ := step_of_not_faulted hf
        obtain ⟨hparams, hcount, -⟩ := step_keeps ht
        obtain ⟨-, posts, hr⟩ | ⟨-, w, rfl⟩ := step_answer ht
        · have hcounted : t.counted.cycles = s.cycles + 1 := congrArg (· + 1) hcount
          have hcountedParams : t.counted.params = s.params := hparams
          obtain ⟨u, r, hrun, hends⟩ := ih t.counted (by rw [hcounted, hcountedParams]; omega)
          exact ⟨u, r, (run_of_ok hdone ht hr).trans hrun, hends.of_turn hcycles hcountedParams hcounted⟩
        · exact ⟨_, _, run_of_invalid hdone ht rfl, rfl, le_rfl, le_max_left _ _, rfl, hcycles⟩
      · exact ⟨s, _, run_of_fault hdone (Tests.step_faulted hf), rfl, le_rfl, le_max_left _ _, hf, hcycles⟩

/-- Settles O40: each turn that goes on counts a cycle, and `isDone` holds past the ceiling. -/
theorem runEndsWithinCeiling : Obligations.RunEndsWithinCeiling := run_ends

/-! ### A program that stays in place runs to the ceiling (R119, `70_reset_and_hazards.md` R358) -/

/-- A step that returned Ok, left registers, pc and memory as they were and pushed `set`. -/
def StaysInPlace (set : DiffSet) (s : State) : Prop :=
  ∃ t posts, step s = .next t ∧ t.result = some (.ok posts) ∧ t.faulted = none ∧ SameArch s t ∧
    t.history = set :: s.history

/-- If every state with the fault record, the parameters, the registers, the pc and the memory of `s` stays in place, `run`
turns until the ceiling and each turn pushes the same set. -/
theorem run_to_ceiling {s : State} {set : DiffSet}
    (hstay : ∀ u, u.faulted = s.faulted → u.params = s.params → SameArch s u → StaysInPlace set u)
    (hf : s.faulted = none) (hcycles : s.cycles ≤ s.params.maxCycles + 1)
    (hpc : s.pc.toNat < s.params.textBase.toNat + 4 * s.numInstrs) :
    ∃ t, s.run = .next (t, .done) ∧ t.cycles = s.params.maxCycles + 1 ∧ SameArch s t ∧
      t.history = List.replicate (s.params.maxCycles + 1 - s.cycles) set ++ s.history := by
  induction hk : s.params.maxCycles + 1 - s.cycles generalizing s with
  | zero => exact ⟨s, run_of_isDone (s.isDone_iff.mpr (.inr (by omega))), by omega, .refl s, rfl⟩
  | succ k ih =>
    have hdone : s.isDone = false := s.isDone_eq_false_iff.mpr ⟨hpc, by omega⟩
    obtain ⟨t, posts, ht, hr, htf, harch, hhistory⟩ := hstay s rfl rfl (.refl s)
    obtain ⟨hparams, hcount, hnum⟩ := step_keeps ht
    have hcountedArch : SameArch s t.counted := ⟨harch.regs, harch.pc, harch.mem⟩
    have hcounted : t.counted.cycles = s.cycles + 1 := congrArg (· + 1) hcount
    have hcountedParams : t.counted.params = s.params := hparams
    have hcountedNum : t.counted.numInstrs = s.numInstrs := hnum
    have hcountedHistory : t.counted.history = set :: s.history := hhistory
    obtain ⟨u, hrun, hcyc, huarch, huhistory⟩ := ih (s := t.counted)
      (fun v hvf hvp hva => hstay v (hvf.trans (htf.trans hf.symm)) (hvp.trans hparams) (hcountedArch.trans hva)) htf
      (by rw [hcountedParams]; omega) (by rw [hcountedParams, hcountedNum, hcountedArch.pc]; exact hpc)
      (by rw [hcountedParams]; omega)
    refine ⟨u, (run_of_ok hdone ht hr).trans hrun, by rw [hcyc, hcountedParams], hcountedArch.trans huarch, ?_⟩
    rw [huhistory, hcountedHistory, List.replicate_succ', List.append_assoc, List.singleton_append]

theorem SameArch.fetchWord {s u : State} (h : SameArch s u) : u.fetchWord = s.fetchWord := by
  rw [State.fetchWord_eq, State.fetchWord_eq, h.mem, h.pc]

theorem signExt_zero (n : Nat) : signExt (0 : BitVec n) = 0#32 := by
  rw [signExt_eq_ofInt]
  exact congrArg (BitVec.ofInt 32) BitVec.toInt_zero

/-- `jal x0, 0` jumps to itself, and its link goes to x0. -/
theorem exec_jal_self (u : State) : exec (.jal 0 0) u = .next (regStep u 0 (u.pc + 4) u.pc) := by
  refine (linkAndJump_eq 0 (u.getPC + signExt 0) u).trans ?_
  rw [signExt_zero, State.getPC_eq, BitVec.add_zero]

/-- A `beq` of a register with itself and offset 0 is taken, to itself. -/
theorem exec_beq_self (u : State) (r : Reg) : exec (.beq r r 0) u = .next (pcStep u u.pc) := by
  refine (branchIf_eq (u.getReg r == u.getReg r) 0 u).trans ?_
  rw [beq_self_eq_true, if_pos rfl, signExt_zero, BitVec.add_zero]

theorem staysInPlace_jal {s u : State} (hd : decode s.fetchWord = .handler (.jal 0 0)) (hf : u.faulted = none)
    (h : SameArch s u) : StaysInPlace [.reg 0 0, .pc s.pc] u := by
  have hstep := step_of_handler hf (h.fetchWord ▸ hd)
  refine ⟨_, _, hstep.trans (exec_jal_self u), regStep_result u 0 _ _, (regStep_faulted u 0 _ _).trans hf, ?_, ?_⟩
  · exact ⟨by rw [regStep_regs, State.putReg_zero], regStep_pc u 0 _ _, regStep_mem u 0 _ _⟩
  · rw [regStep_history, State.getReg_zero, h.pc]

theorem staysInPlace_beq {s u : State} {r : Reg} (hd : decode s.fetchWord = .handler (.beq r r 0))
    (hf : u.faulted = none) (h : SameArch s u) : StaysInPlace [.pc s.pc] u := by
  have hstep := step_of_handler hf (h.fetchWord ▸ hd)
  refine ⟨_, _, hstep.trans (exec_beq_self u r), pcStep_result u _, (pcStep_faulted u _).trans hf, ?_, ?_⟩
  · exact ⟨pcStep_regs u _, pcStep_pc u _, pcStep_mem u _⟩
  · rw [pcStep_history, h.pc]

theorem staysInPlace_skip {s u : State} {w : Word} (hd : decode s.fetchWord = .noHandler w) (hf : u.faulted = none)
    (hp : u.params.invalidPolicy = .skip) (h : SameArch s u) : StaysInPlace [] u := by
  have hstep := step_of_noHandler hf (h.fetchWord ▸ hd)
  rw [noHandler_skip hp] at hstep
  exact ⟨_, [], hstep, rfl, hf, ⟨rfl, rfl, rfl⟩, rfl⟩

/-- Settles O41: both branches leave registers, pc and memory, and so meet themselves again. -/
theorem selfBranchRunsToCeiling : Obligations.SelfBranchRunsToCeiling := by
  intro s r hf hcycles hpc hd
  have hset : ∃ set, ∀ u, u.faulted = s.faulted → u.params = s.params → SameArch s u → StaysInPlace set u := by
    obtain hd | hd := hd
    · exact ⟨_, fun u huf _ h => staysInPlace_jal hd (huf.trans hf) h⟩
    · exact ⟨_, fun u huf _ h => staysInPlace_beq hd (huf.trans hf) h⟩
  obtain ⟨set, hstay⟩ := hset
  obtain ⟨t, hrun, hcyc, harch, hhistory⟩ := run_to_ceiling hstay hf (by omega) hpc
  refine ⟨t, hrun, hcyc, harch, ?_⟩
  rw [hhistory, List.length_append, List.length_replicate, Nat.add_comm]

/-- Settles O42: under Skip the machine stays in place at such a word. -/
theorem skipRunsToCeiling : Obligations.SkipRunsToCeiling := by
  intro s w hf hp hcycles hpc hd
  exact run_to_ceiling
    (fun u huf hup h => staysInPlace_skip hd (huf.trans hf) ((congrArg Params.invalidPolicy hup).trans hp) h) hf
    (by omega) hpc

/-! ### The fault record (R116, R334) -/

/-- Settles O35: the failing step leaves the trace of the state before it, and neither `run` nor `undo` clears the record. -/
theorem invalidUnderFailIsPreciseAndSticky : Obligations.InvalidUnderFailIsPreciseAndSticky := by
  intro s w hf hp hd t
  have htrace : SameTrace s t := ⟨⟨rfl, rfl, rfl⟩, rfl⟩
  have hfault : step t = .fault (.invalidInstruction s.pc w) := Tests.step_faulted rfl
  refine ⟨decode_noHandler hd, ?_, hfault, fun hdone => run_of_fault hdone hfault, fun k => ?_⟩
  · rw [step_of_noHandler hf hd, noHandler_fail hp]
  · have hk := htrace.undoN k
    exact ⟨hk.arch, hk.history, Tests.step_faulted (State.undoN_keeps State.undo_faulted t k)⟩

end Sys2Proof.Machine
end

section
/-! The configurations that `load` admits (`70_reset_and_hazards.md` R355). -/

namespace Sys2Proof.Machine

theorem admits_iff (p : Params) (prog : Program) :
    admits p prog = true ↔
      p.textBase.toNat + 4 * prog.instructions.length ≤ 2 ^ 32 ∧
      p.staticBase.toNat + prog.dataSegment.length ≤ 2 ^ 32 ∧
      disjointRanges p.textBase.toNat (p.textBase.toNat + 4 * prog.instructions.length) p.staticBase.toNat
        (p.staticBase.toNat + prog.dataSegment.length) = true ∧
      ¬ (p.textBase.toNat ≤ p.stackBase.toNat ∧
        p.stackBase.toNat < p.textBase.toNat + 4 * prog.instructions.length) ∧
      ¬ (p.staticBase.toNat ≤ p.stackBase.toNat ∧
        p.stackBase.toNat < p.staticBase.toNat + prog.dataSegment.length) := by
  simp only [admits, Bool.and_eq_true, Bool.not_eq_true', ← Bool.not_eq_true, decide_eq_true_eq, and_assoc]
  rfl

/-- Settles O52: the check of `load` is those constraints, and two ranges are apart when no address lies in both. -/
theorem loadRefusesOtherConfigurations : Obligations.LoadRefusesOtherConfigurations := by
  intro p prog inText inData allowed
  have hadmits : admits p prog = true ↔ allowed := by
    rw [admits_iff, disjointRanges_iff]
  rw [← hadmits]
  exact ⟨fun h => if_pos h, fun h => if_neg h⟩

end Sys2Proof.Machine
end

section
/-! Operands of the text encoder (`45_encoder.md` R249 to R251, R256): register names, ranges, offsets and targets. -/

namespace Sys2Proof.Machine

/-! ### Tables keyed by name -/

section
variable {β : Type} {l : List (String × β)} {k : String} {b : β}

theorem mem_of_lookup (h : l.lookup k = some b) : (k, b) ∈ l := by
  obtain ⟨l₁, l₂, rfl, -⟩ := List.lookup_eq_some_iff.mp h
  simp

theorem lookup_of_mem (hkeys : (l.map Prod.fst).Nodup) (h : (k, b) ∈ l) : l.lookup k = some b := by
  obtain ⟨l₁, l₂, rfl⟩ := List.append_of_mem h
  refine List.lookup_eq_some_iff.mpr ⟨l₁, l₂, rfl, fun p hp => bne_iff_ne.mpr fun he => ?_⟩
  rw [List.map_append, List.nodup_append] at hkeys
  obtain ⟨-, -, hdisjoint⟩ := hkeys
  exact hdisjoint p.1 (List.mem_map_of_mem hp) k (by simp) he.symm

end

/-! ### Registers (R249) -/

theorem regNames_keys_nodup : (regNames.map Prod.fst).Nodup := by decide

theorem parseReg_eq_ok_iff {tok : String} {r : Reg} : parseReg tok = .ok r ↔ (tok, r) ∈ regNames := by
  have hlookup : parseReg tok = .ok r ↔ regNames.lookup tok = some r := by
    unfold parseReg
    cases regNames.lookup tok <;> simp
  exact hlookup.trans ⟨mem_of_lookup, lookup_of_mem regNames_keys_nodup⟩

/-- Settles O55: the name table has each key once, so the search finds exactly its entries. -/
theorem registerOperandsParse : Obligations.RegisterOperandsParse := by
  refine ⟨fun tok r => parseReg_eq_ok_iff, fun tok h => ?_, by decide⟩
  have hlookup : regNames.lookup tok = none := by
    cases hr : regNames.lookup tok with
    | none => rfl
    | some r => exact absurd (mem_of_lookup hr) (h r)
  rw [parseReg, hlookup]

/-! ### Ranges (R251) -/

section
variable {n : Nat} {lo hi : Int} {tok : String} {v : Int} {f : BitVec n}

theorem immField_in_range (h : lo ≤ v ∧ v ≤ hi) : immField n lo hi tok v = .ok (BitVec.ofInt n v) := if_pos h

theorem immField_out_of_range (h : ¬ (lo ≤ v ∧ v ≤ hi)) :
    immField n lo hi tok v = .error ⟨.immediateOutOfRange, tok⟩ := if_neg h

/-- A field takes the values of its range, each packed at its width, and no other. -/
theorem immField_spec {holds : BitVec n → Prop} (h : lo ≤ v ∧ v ≤ hi → holds (BitVec.ofInt n v)) :
    if lo ≤ v ∧ v ≤ hi then ∃ f, immField n lo hi tok v = .ok f ∧ holds f
    else immField n lo hi tok v = .error ⟨.immediateOutOfRange, tok⟩ := by
  split_ifs with hrange
  · exact ⟨_, immField_in_range hrange, h hrange⟩
  · exact immField_out_of_range hrange

theorem offsetField_even (h : lo ≤ v ∧ v ≤ hi) (heven : v % 2 = 0) :
    offsetField n lo hi tok v = .ok (BitVec.ofInt n v) := by
  rw [offsetField, immField_in_range h]
  exact if_pos heven

theorem offsetField_odd (h : lo ≤ v ∧ v ≤ hi) (hodd : ¬ v % 2 = 0) :
    offsetField n lo hi tok v = .error ⟨.misalignedOffset, tok⟩ := by
  rw [offsetField, immField_in_range h]
  exact if_neg hodd

theorem offsetField_out_of_range (h : ¬ (lo ≤ v ∧ v ≤ hi)) :
    offsetField n lo hi tok v = .error ⟨.immediateOutOfRange, tok⟩ := by
  rw [offsetField, immField_out_of_range h]

theorem offsetField_eq_ok (h : offsetField n lo hi tok v = .ok f) :
    (lo ≤ v ∧ v ≤ hi) ∧ v % 2 = 0 ∧ f = BitVec.ofInt n v := by
  by_cases hrange : lo ≤ v ∧ v ≤ hi
  · by_cases heven : v % 2 = 0
    · rw [offsetField_even hrange heven] at h
      cases h
      exact ⟨hrange, heven, rfl⟩
    · rw [offsetField_odd hrange heven] at h
      exact nomatch h
  · rw [offsetField_out_of_range hrange] at h
    exact nomatch h

/-- The range of an offset, then its evenness (R260). -/
theorem offsetField_spec {holds : BitVec n → Prop} (h : lo ≤ v ∧ v ≤ hi → v % 2 = 0 → holds (BitVec.ofInt n v)) :
    if lo ≤ v ∧ v ≤ hi then
      (if v % 2 = 0 then ∃ f, offsetField n lo hi tok v = .ok f ∧ holds f
       else offsetField n lo hi tok v = .error ⟨.misalignedOffset, tok⟩)
    else offsetField n lo hi tok v = .error ⟨.immediateOutOfRange, tok⟩ := by
  split_ifs with hrange heven
  · exact ⟨_, offsetField_even hrange heven, h hrange heven⟩
  · exact offsetField_odd hrange heven
  · exact offsetField_out_of_range hrange

end

theorem ofInt_toNat_of_range {n : Nat} {v : Int} (hlo : 0 ≤ v) (hhi : v < 2 ^ n) :
    ((BitVec.ofInt n v).toNat : Int) = v := by
  rw [BitVec.toNat_ofInt, Nat.cast_pow, Nat.cast_ofNat, Int.emod_eq_of_lt hlo hhi, Int.toNat_of_nonneg hlo]

/-- Bit 0 of a field is the parity of the value packed into it. -/
theorem evenOffset_ofInt {n : Nat} (hn : 0 < n) {v : Int} (h : v % 2 = 0) : evenOffset (BitVec.ofInt n v) = true := by
  obtain ⟨k, rfl⟩ : ∃ k, n = k + 1 := ⟨n - 1, by omega⟩
  have htoNat : (BitVec.ofInt (k + 1) v).toNat % 2 = 0 := by
    have hdvd : 2 ∣ 2 ^ (k + 1) := Dvd.intro_left (2 ^ k) rfl
    have hmod := Int.emod_emod_of_dvd v (Int.natCast_dvd_natCast.mpr hdvd)
    rw [BitVec.toNat_ofInt]
    omega
  rw [evenOffset_iff, BitVec.getLsbD, Nat.testBit_zero, htoNat]
  rfl

/-- Settles O54: each range lies within its field's width, so the packed value is the value. -/
theorem immediateRangesEnforced : Obligations.ImmediateRangesEnforced := by
  intro tok v
  refine ⟨immField_spec fun h => ?_, immField_spec fun h => ?_, immField_spec fun h => ?_,
    offsetField_spec fun h heven => ⟨?_, evenOffset_ofInt (by decide) heven⟩,
    offsetField_spec fun h heven => ⟨?_, evenOffset_ofInt (by decide) heven⟩⟩
  · exact BitVec.toInt_ofInt_eq_self (by decide) (by omega) (by omega)
  · exact ofInt_toNat_of_range h.1 (by omega)
  · exact ofInt_toNat_of_range h.1 (by omega)
  · exact BitVec.toInt_ofInt_eq_self (by decide) (by omega) (by omega)
  · exact BitVec.toInt_ofInt_eq_self (by decide) (by omega) (by omega)

end Sys2Proof.Machine
end

section
/-! Instructions of the text encoder (`45_encoder.md` R241, R253 to R260): what each operand form makes, the
real-instruction table by its keys, and the words that come out. -/

namespace Sys2Proof.Machine

/-! ### The operand forms -/

theorem bind_eq_ok {ε α β : Type} {x : Except ε α} {f : α → Except ε β} {b : β} :
    x >>= f = .ok b ↔ ∃ a, x = .ok a ∧ f a = .ok b := by
  cases x with
  | error e => exact ⟨fun h => (nomatch h), fun ⟨_, h, _⟩ => nomatch h⟩
  | ok a => exact ⟨fun h => ⟨a, rfl, h⟩, fun ⟨_, ha, h⟩ => by cases ha; exact h⟩

theorem return_eq_ok {ε α : Type} {a b : α} : (return a : Except ε α) = .ok b ↔ a = b :=
  ⟨fun h => Except.ok.inj h, fun h => congrArg Except.ok h⟩

/-- The instructions a form makes: its constructor on operands, an offset being even (R251). -/
def RealForm.Makes (i : Instr) : RealForm → Prop
  | .rdImm20 mk => ∃ d f, mk d f = i
  | .rdTarget mk => ∃ d f, evenOffset f = true ∧ mk d f = i
  | .rs1Rs2Target mk => ∃ a b f, evenOffset f = true ∧ mk a b f = i
  | .rdRs1Imm12 mk => ∃ d a f, mk d a f = i
  | .rdRs1Shamt mk => ∃ d a f, mk d a f = i
  | .rdImm12Rs1 mk => ∃ d a f, mk d a f = i
  | .rs2Imm12Rs1 mk => ∃ a b f, mk a b f = i
  | .rdRs1Rs2 mk => ∃ d a b, mk d a b = i

theorem evenOffset_of_offsetField {n : Nat} {lo hi : Int} {tok : String} {v : Int} {f : BitVec n} (hn : 0 < n)
    (h : offsetField n lo hi tok v = .ok f) : evenOffset f = true := by
  obtain ⟨-, heven, rfl⟩ := offsetField_eq_ok h
  exact evenOffset_ofInt hn heven

section
variable {m rd x y target : String} {ctx : EncodeCtx} {i : Instr}

theorem build_rdTarget_eq_ok {mk : Reg → BitVec 21 → Instr} (h : (RealForm.rdTarget mk).build m ctx [rd, target] = .ok i) :
    ∃ d v f, parseReg rd = .ok d ∧ resolveTarget target ctx = .ok v ∧
      offsetField 21 (-1048576) 1048574 target v = .ok f ∧ mk d f = i := by
  simp only [RealForm.build, bind_eq_ok, return_eq_ok] at h
  obtain ⟨d, hd, v, hv, f, hf, hi⟩ := h
  exact ⟨d, v, f, hd, hv, hf, hi⟩

theorem build_rs1Rs2Target_eq_ok {mk : Reg → Reg → BitVec 13 → Instr}
    (h : (RealForm.rs1Rs2Target mk).build m ctx [x, y, target] = .ok i) :
    ∃ a b v f, parseReg x = .ok a ∧ parseReg y = .ok b ∧ resolveTarget target ctx = .ok v ∧
      offsetField 13 (-4096) 4094 target v = .ok f ∧ mk a b f = i := by
  simp only [RealForm.build, bind_eq_ok, return_eq_ok] at h
  obtain ⟨a, ha, b, hb, v, hv, f, hf, hi⟩ := h
  exact ⟨a, b, v, f, ha, hb, hv, hf, hi⟩

/-- What `build` accepts, its form makes. -/
theorem makes_of_build {form : RealForm} {ops : List String} (h : form.build m ctx ops = .ok i) : form.Makes i := by
  unfold RealForm.build at h
  split at h
  case h_9 => exact nomatch h
  all_goals simp only [bind_eq_ok, return_eq_ok] at h
  case h_1 =>
    obtain ⟨d, -, v, -, f, -, hi⟩ := h
    exact ⟨d, f, hi⟩
  case h_2 =>
    obtain ⟨d, -, v, -, f, hf, hi⟩ := h
    exact ⟨d, f, evenOffset_of_offsetField (by decide) hf, hi⟩
  case h_3 =>
    obtain ⟨a, -, b, -, v, -, f, hf, hi⟩ := h
    exact ⟨a, b, f, evenOffset_of_offsetField (by decide) hf, hi⟩
  case h_4 | h_5 =>
    obtain ⟨d, -, a, -, v, -, f, -, hi⟩ := h
    exact ⟨d, a, f, hi⟩
  case h_6 =>
    obtain ⟨d, -, v, -, a, -, f, -, hi⟩ := h
    exact ⟨d, a, f, hi⟩
  case h_7 =>
    obtain ⟨b, -, v, -, a, -, f, -, hi⟩ := h
    exact ⟨a, b, f, hi⟩
  case h_8 =>
    obtain ⟨d, -, a, -, b, -, hi⟩ := h
    exact ⟨d, a, b, hi⟩

end

/-! ### The real-instruction table -/

theorem realTable_keys_nodup : (realTable.map Prod.fst).Nodup := by decide

theorem realTable_keys_lowerCase : ∀ k ∈ realTable.map Prod.fst, lowerCase k = k := by decide

/-- An instruction of this name that has an encoding. -/
def NamedWf (name : String) (i : Instr) : Prop := i.wf = true ∧ mnemonicName i.mnemonic = name

theorem realControl_makes {name : String} {form : RealForm} {i : Instr} (hmem : (name, form) ∈ realControl)
    (h : form.Makes i) : NamedWf name i := by
  simp only [realControl, List.mem_cons, Prod.mk.injEq, List.not_mem_nil, or_false] at hmem
  rcases hmem with ⟨rfl, rfl⟩ | ⟨rfl, rfl⟩ | ⟨rfl, rfl⟩ | ⟨rfl, rfl⟩ | hbranch
  · obtain ⟨d, f, rfl⟩ := h
    exact ⟨rfl, rfl⟩
  · obtain ⟨d, f, rfl⟩ := h
    exact ⟨rfl, rfl⟩
  · obtain ⟨d, f, heven, rfl⟩ := h
    exact ⟨heven, rfl⟩
  · obtain ⟨d, a, f, rfl⟩ := h
    exact ⟨rfl, rfl⟩
  · rcases hbranch with ⟨rfl, rfl⟩ | ⟨rfl, rfl⟩ | ⟨rfl, rfl⟩ | ⟨rfl, rfl⟩ | ⟨rfl, rfl⟩ | ⟨rfl, rfl⟩
    all_goals
      obtain ⟨a, b, f, heven, rfl⟩ := h
      exact ⟨heven, rfl⟩

theorem realMemory_makes {name : String} {form : RealForm} {i : Instr} (hmem : (name, form) ∈ realMemory)
    (h : form.Makes i) : NamedWf name i := by
  simp only [realMemory, List.mem_cons, Prod.mk.injEq, List.not_mem_nil, or_false] at hmem
  rcases hmem with ⟨rfl, rfl⟩ | ⟨rfl, rfl⟩ | ⟨rfl, rfl⟩ | ⟨rfl, rfl⟩ | ⟨rfl, rfl⟩ | ⟨rfl, rfl⟩ | ⟨rfl, rfl⟩ | ⟨rfl, rfl⟩
  all_goals
    obtain ⟨d, a, f, rfl⟩ := h
    exact ⟨rfl, rfl⟩

theorem realOpImm_makes {name : String} {form : RealForm} {i : Instr} (hmem : (name, form) ∈ realOpImm)
    (h : form.Makes i) : NamedWf name i := by
  simp only [realOpImm, List.mem_cons, Prod.mk.injEq, List.not_mem_nil, or_false] at hmem
  rcases hmem with ⟨rfl, rfl⟩ | ⟨rfl, rfl⟩ | ⟨rfl, rfl⟩ | ⟨rfl, rfl⟩ | ⟨rfl, rfl⟩ | ⟨rfl, rfl⟩ | ⟨rfl, rfl⟩ |
    ⟨rfl, rfl⟩ | ⟨rfl, rfl⟩
  all_goals
    obtain ⟨d, a, f, rfl⟩ := h
    exact ⟨rfl, rfl⟩

theorem realOp_makes {name : String} {form : RealForm} {i : Instr} (hmem : (name, form) ∈ realOp)
    (h : form.Makes i) : NamedWf name i := by
  simp only [realOp, List.mem_cons, Prod.mk.injEq, List.not_mem_nil, or_false] at hmem
  rcases hmem with ⟨rfl, rfl⟩ | ⟨rfl, rfl⟩ | ⟨rfl, rfl⟩ | ⟨rfl, rfl⟩ | ⟨rfl, rfl⟩ | ⟨rfl, rfl⟩ | ⟨rfl, rfl⟩ |
    ⟨rfl, rfl⟩ | ⟨rfl, rfl⟩ | ⟨rfl, rfl⟩
  all_goals
    obtain ⟨d, a, b, rfl⟩ := h
    exact ⟨rfl, rfl⟩

/-- A row's form makes instructions of the row's name, each with an encoding. -/
theorem realTable_makes {name : String} {form : RealForm} {i : Instr} (hmem : (name, form) ∈ realTable)
    (h : form.Makes i) : NamedWf name i := by
  simp only [realTable, List.mem_append] at hmem
  obtain ((hmem | hmem) | hmem) | hmem := hmem
  · exact realControl_makes hmem h
  · exact realMemory_makes hmem h
  · exact realOpImm_makes hmem h
  · exact realOp_makes hmem h

/-! ### The encoder -/

section
variable {m : String} {ops : List String} {ctx : EncodeCtx} {i : Instr} {w : Word}

theorem assembleInstr_of_row {form : RealForm} (h : (m, form) ∈ realTable) :
    assembleInstr m ops ctx = form.build m ctx ops := by
  rw [assembleInstr, realTable_keys_lowerCase m (List.mem_map_of_mem h), lookup_of_mem realTable_keys_nodup h]

theorem namedWf_of_assembleInstr (h : assembleInstr m ops ctx = .ok i) : NamedWf (lowerCase m) i := by
  unfold assembleInstr at h
  split at h
  case h_1 form hform => exact realTable_makes (mem_of_lookup hform) (makes_of_build h)
  case h_2 => exact nomatch h

theorem encodeLine_eq_ok : encodeLine m ops ctx = .ok w ↔ ∃ i, assembleInstr m ops ctx = .ok i ∧ encode i = w := by
  unfold encodeLine
  cases assembleInstr m ops ctx <;> simp

theorem decode_of_assembleInstr (h : assembleInstr m ops ctx = .ok i) : decode (encode i) = .handler i := by
  obtain ⟨hwf, -⟩ := namedWf_of_assembleInstr h
  exact decode_encode hwf

end

/-- Settles O53: each row makes well-formed instructions of its own name, and these read back from their words. -/
theorem encoderWordsDecode : Obligations.EncoderWordsDecode := by
  intro m ops ctx w h
  obtain ⟨i, hi, rfl⟩ := encodeLine_eq_ok.mp h
  obtain ⟨-, hname⟩ := namedWf_of_assembleInstr hi
  exact ⟨i, decode_of_assembleInstr hi, hname, hi⟩

/-! ### Label targets (R256) -/

theorem resolveTarget_of_label {ctx : EncodeCtx} {l : String} {a : Word} (h : ctx.symbols l = some a) :
    resolveTarget l ctx = .ok ((a.toNat : Int) - (ctx.addr.toNat : Int)) := by
  rw [resolveTarget, h]

/-- The offset of a label leads from the instruction's own address to the label. -/
theorem add_offset_of_label {n : Nat} {addr a : Word} {f : BitVec n}
    (h : f.toInt = (a.toNat : Int) - (addr.toNat : Int)) : addr + signExt f = a := by
  rw [add_signExt_eq_ofInt, h, add_sub_cancel, BitVec.ofInt_natCast, BitVec.ofNat_toNat, BitVec.setWidth_eq]

section
variable {ctx : EncodeCtx} {l : String} {a w : Word}

theorem jal_to_label (hl : ctx.symbols l = some a) {rd : String} (h : encodeLine "jal" [rd, l] ctx = .ok w) :
    ∃ d off, parseReg rd = .ok d ∧ decode w = .handler (.jal d off) ∧ ctx.addr + signExt off = a := by
  obtain ⟨i, hi, rfl⟩ := encodeLine_eq_ok.mp h
  have hdecode := decode_of_assembleInstr hi
  have hrow : ("jal", RealForm.rdTarget .jal) ∈ realTable := by simp [realTable, realControl]
  rw [assembleInstr_of_row hrow] at hi
  obtain ⟨d, v, f, hd, hv, hf, rfl⟩ := build_rdTarget_eq_ok hi
  cases (resolveTarget_of_label hl).symm.trans hv
  obtain ⟨hrange, -, rfl⟩ := offsetField_eq_ok hf
  exact ⟨d, _, hd, hdecode, add_offset_of_label (BitVec.toInt_ofInt_eq_self (by decide) (by omega) (by omega))⟩

theorem branch_to_label (hl : ctx.symbols l = some a) {m x y : String} {mk : Reg → Reg → BitVec 13 → Instr}
    (hrow : (m, RealForm.rs1Rs2Target mk) ∈ realTable) (h : encodeLine m [x, y, l] ctx = .ok w) :
    ∃ r1 r2 off, parseReg x = .ok r1 ∧ parseReg y = .ok r2 ∧ decode w = .handler (mk r1 r2 off) ∧
      ctx.addr + signExt off = a := by
  obtain ⟨i, hi, rfl⟩ := encodeLine_eq_ok.mp h
  have hdecode := decode_of_assembleInstr hi
  rw [assembleInstr_of_row hrow] at hi
  obtain ⟨r1, r2, v, f, h1, h2, hv, hf, rfl⟩ := build_rs1Rs2Target_eq_ok hi
  cases (resolveTarget_of_label hl).symm.trans hv
  obtain ⟨hrange, -, rfl⟩ := offsetField_eq_ok hf
  exact ⟨r1, r2, _, h1, h2, hdecode,
    add_offset_of_label (BitVec.toInt_ofInt_eq_self (by decide) (by omega) (by omega))⟩

end

/-- Settles O56: the offset is the label's address less the instruction's own, and executing adds it back. -/
theorem labelTargetsAreReached : Obligations.LabelTargetsAreReached := by
  intro ctx l a w hl
  refine ⟨fun rd h => ?_, fun x y h => ?_, fun m x y mk => branch_to_label hl⟩
  · obtain ⟨d, off, hd, hdecode, htarget⟩ := jal_to_label hl h
    refine ⟨d, off, hd, hdecode, fun s hs => ?_⟩
    obtain ⟨t, ht, heff⟩ := completes_of_linkAndJump (i := .jal d off) (s := s) rfl rfl
    exact ⟨t, ht, heff.pc.trans (by rw [State.getPC_eq, hs, htarget])⟩
  · have hrow : ("beq", RealForm.rs1Rs2Target .beq) ∈ realTable := by simp [realTable, realControl]
    obtain ⟨r1, r2, off, h1, h2, hdecode, htarget⟩ := branch_to_label hl hrow h
    refine ⟨r1, r2, off, h1, h2, hdecode, fun s hs heq => ?_⟩
    obtain ⟨t, ht, heff⟩ := completes_of_branchIf (i := .beq r1 r2 off) (s := s) (off := off) rfl beq_iff_eq
    exact ⟨t, ht, heff.pc.trans (by rw [if_pos heq, ← add_signExt_eq_ofInt, hs, htarget])⟩

end Sys2Proof.Machine
end

section
/-! The pseudo-instruction `li` (`46_assembler_interface.md` R303): the decimal literals of its expansion read back, and
its two words leave the value in the register. -/

namespace Sys2Proof.Machine

/-! ### Decimal literals -/

/-- The characters that have a meaning of their own in a literal (R250): signs, and the marks of a base. -/
def literalMarks : List Char := ['-', '+', 'x', 'X', 'b', 'B']

/-- The character of a decimal digit. -/
def digitChar (d : Nat) : Char := Char.ofNat ('0'.toNat + d)

theorem digitValue_digitChar : ∀ d < 10, digitValue (digitChar d) = some d := by decide

theorem digitChar_not_mark : ∀ d < 10, digitChar d ∉ literalMarks := by decide

theorem decDigits_succ (fuel n : Nat) :
    decDigits (fuel + 1) n = if n < 10 then [digitChar n] else decDigits fuel (n / 10) ++ [digitChar (n % 10)] := rfl

theorem readDigits_append (base : Nat) (cs ds : List Char) (n : Nat) :
    readDigits base (cs ++ ds) n = (readDigits base cs n).bind (readDigits base ds) := by
  induction cs generalizing n with
  | nil => rfl
  | cons c cs ih =>
    rw [List.cons_append, readDigits, readDigits]
    cases digitValue c with
    | none => rfl
    | some d =>
      by_cases hd : d < base
      · simp only [hd, if_true, ih]
      · simp only [hd, if_false, Option.bind_none]

theorem readDigits_digitChar {d : Nat} (hd : d < 10) (n : Nat) : readDigits 10 [digitChar d] n = some (10 * n + d) := by
  simp only [readDigits, digitValue_digitChar d hd, hd, if_true]

/-- The digits written for a number are read as that number. -/
theorem readDigits_decDigits {fuel n : Nat} (hfuel : 0 < fuel) (hn : n < 10 ^ fuel) :
    readDigits 10 (decDigits fuel n) 0 = some n := by
  induction fuel generalizing n with
  | zero => omega
  | succ fuel ih =>
    rw [decDigits_succ]
    split_ifs with hsmall
    · rw [readDigits_digitChar hsmall, Nat.mul_zero, Nat.zero_add]
    · have hpos : 0 < fuel := by
        refine Nat.pos_of_ne_zero fun h => ?_
        subst h
        omega
      have hquot : n / 10 < 10 ^ fuel := Nat.div_lt_of_lt_mul (by rwa [Nat.mul_comm, ← Nat.pow_succ])
      rw [readDigits_append, ih hpos hquot, Option.bind_some, readDigits_digitChar (Nat.mod_lt n (by decide)),
        Nat.div_add_mod]

theorem decDigits_not_mark (fuel n : Nat) : ∀ c ∈ decDigits fuel n, c ∉ literalMarks := by
  induction fuel generalizing n with
  | zero => exact fun c hc => absurd hc List.not_mem_nil
  | succ fuel ih =>
    rw [decDigits_succ]
    split_ifs with hsmall
    · exact List.forall_mem_singleton.mpr (digitChar_not_mark n hsmall)
    · exact List.forall_mem_append.mpr
        ⟨ih (n / 10), List.forall_mem_singleton.mpr (digitChar_not_mark (n % 10) (Nat.mod_lt n (by decide)))⟩

/-- Without a mark of a base, a literal is decimal. -/
theorem readUnsigned_of_no_marks {cs : List Char} (h : ∀ c ∈ cs, c ∉ literalMarks) :
    readUnsigned cs = readNumber 10 cs := by
  unfold readUnsigned
  split
  case h_5 => rfl
  all_goals exact absurd (by decide) (h _ (List.mem_cons_of_mem _ List.mem_cons_self))

/-- Without a sign, a literal is not negative. -/
theorem readLiteral_of_no_marks {cs : List Char} {n : Nat} (h : ∀ c ∈ cs, c ∉ literalMarks)
    (hn : readUnsigned cs = some n) : readLiteral cs = some (n : Int) := by
  unfold readLiteral
  split
  case h_3 =>
    rw [hn]
    rfl
  all_goals exact absurd (by decide) (h _ List.mem_cons_self)

theorem readNumber_eq_readDigits {base : Nat} {cs : List Char} (h : cs ≠ []) :
    readNumber base cs = readDigits base cs 0 := by
  cases cs with
  | nil => exact absurd rfl h
  | cons c cs => rfl

theorem readUnsigned_decDigits {n : Nat} (hn : n < 10 ^ 10) : readUnsigned (decDigits 10 n) = some n := by
  have hne : decDigits 10 n ≠ [] := by
    rw [decDigits_succ]
    split_ifs <;> simp
  rw [readUnsigned_of_no_marks (decDigits_not_mark 10 n), readNumber_eq_readDigits hne,
    readDigits_decDigits (by decide) hn]

/-- `dec` writes a literal of the number it is given (R303). -/
theorem parseImm_dec {v : Int} (h : v.natAbs < 10 ^ 10) : parseImm (dec v) = .ok v := by
  have hdigits := readUnsigned_decDigits h
  have hliteral : literal (dec v) = some v := by
    unfold dec
    split_ifs with hneg
    · rw [literal, String.toList_ofList, readLiteral, hdigits]
      exact congrArg some (show -(v.natAbs : Int) = v by omega)
    · rw [literal, String.toList_ofList, readLiteral_of_no_marks (decDigits_not_mark 10 _) hdigits]
      exact congrArg some (by omega)
  rw [parseImm, hliteral]

/-! ### The two halves of the value (R303) -/

theorem liLo_range (u : Word) : -2048 ≤ liLo u ∧ liLo u ≤ 2047 := by
  have hlo := BitVec.le_toInt (u.extractLsb' 0 12)
  have hhi := BitVec.toInt_lt (x := u.extractLsb' 0 12)
  rw [liLo]
  omega

theorem liHi_lt (u : Word) : liHi u < 2 ^ 20 := by
  have hlt := (u - BitVec.ofInt 32 (liLo u)).isLt
  rw [liHi, Nat.shiftRight_eq_div_pow]
  omega

/-- Less its low part, the value is a multiple of 4096. -/
theorem sub_liLo_mod (u : Word) : (u - BitVec.ofInt 32 (liLo u)).toNat % 4096 = 0 := by
  have hextract : (u.extractLsb' 0 12).toNat = u.toNat % 4096 := BitVec.extractLsb'_toNat ..
  have hu := u.isLt
  rw [BitVec.toNat_sub, BitVec.toNat_ofInt, liLo, BitVec.toInt_eq_toNat_cond, hextract]
  split_ifs <;> omega

/-- The field of `lui` and the field of `addi` add up to the value. -/
theorem upper_liHi_add_liLo (u : Word) :
    upper (BitVec.ofInt 20 (liHi u)) + signExt (BitVec.ofInt 12 (liLo u)) = u := by
  have hhi := liHi_lt u
  have hmod := sub_liLo_mod u
  have hupper : upper (BitVec.ofInt 20 (liHi u)) = u - BitVec.ofInt 32 (liLo u) := by
    apply BitVec.eq_of_toNat_eq
    have hlt := (u - BitVec.ofInt 32 (liLo u)).isLt
    rw [upper_eq_ofNat, BitVec.toNat_ofNat, BitVec.ofInt_natCast, BitVec.toNat_ofNat, Nat.mod_eq_of_lt hhi, liHi,
      Nat.shiftRight_eq_div_pow]
    omega
  have hlower : signExt (BitVec.ofInt 12 (liLo u)) = BitVec.ofInt 32 (liLo u) := by
    rw [liLo, BitVec.ofInt_toInt, signExt_eq_ofInt]
  rw [hupper, hlower, BitVec.sub_add_cancel]

/-! ### The expansion and its words -/

theorem pseudoTable_keys_nodup : (pseudoTable.map Prod.fst).Nodup := by decide

theorem expandLine_li {rd tok : String} {v : Int} (hlit : literal tok = some v) (h : -(2 ^ 31) ≤ v ∧ v ≤ 2 ^ 32 - 1) :
    expandLine "li" [rd, tok] =
      [["lui", rd, dec (liHi (BitVec.ofInt 32 v))], ["addi", rd, rd, dec (liLo (BitVec.ofInt 32 v))]] := by
  have hrow : ("li", expandLi) ∈ pseudoTable := by simp [pseudoTable, pseudoInteger]
  have hname : lowerCase "li" = "li" := by decide
  rw [expandLine, hname, lookup_of_mem pseudoTable_keys_nodup hrow]
  simp only [expandLi, hlit, h, and_self, if_true, Option.getD_some]

section
variable {rd : String} {d : Reg} {ctx : EncodeCtx}

theorem encodeLine_lui (hd : parseReg rd = .ok d) {v : Int} (h : 0 ≤ v ∧ v ≤ 1048575) :
    encodeLine "lui" [rd, dec v] ctx = .ok (encode (.lui d (BitVec.ofInt 20 v))) := by
  have hrow : ("lui", RealForm.rdImm20 .lui) ∈ realTable := by simp [realTable, realControl]
  refine encodeLine_eq_ok.mpr ⟨_, ?_, rfl⟩
  rw [assembleInstr_of_row hrow, RealForm.build]
  exact bind_eq_ok.mpr ⟨d, hd, bind_eq_ok.mpr ⟨v, parseImm_dec (by omega),
    bind_eq_ok.mpr ⟨_, immField_in_range h, rfl⟩⟩⟩

theorem encodeLine_addi (hd : parseReg rd = .ok d) {v : Int} (h : -2048 ≤ v ∧ v ≤ 2047) :
    encodeLine "addi" [rd, rd, dec v] ctx = .ok (encode (.addi d d (BitVec.ofInt 12 v))) := by
  have hrow : ("addi", RealForm.rdRs1Imm12 .addi) ∈ realTable := by simp [realTable, realOpImm]
  refine encodeLine_eq_ok.mpr ⟨_, ?_, rfl⟩
  rw [assembleInstr_of_row hrow, RealForm.build]
  exact bind_eq_ok.mpr ⟨d, hd, bind_eq_ok.mpr ⟨d, hd, bind_eq_ok.mpr ⟨v, parseImm_dec (by omega),
    bind_eq_ok.mpr ⟨_, immField_in_range h, rfl⟩⟩⟩⟩

end

theorem SameRegsBut.trans {rd : Reg} {s t u : State} (h : SameRegsBut rd s t) (h' : SameRegsBut rd t u) :
    SameRegsBut rd s u := fun r hr => (h' r hr).trans (h r hr)

/-- LUI and then ADDI of one register add their fields in it. -/
theorem lui_addi (d : Reg) (imm20 : BitVec 20) (imm12 : BitVec 12) (s : State) :
    Completes (.lui d imm20) s fun t => Completes (.addi d d imm12) t fun u =>
      u.getReg d = (if d = 0 then 0 else upper imm20 + signExt imm12) ∧ SameRegsBut d s u ∧ u.pc = s.pc + 8 := by
  obtain ⟨t, ht, hlui⟩ := completes_of_writeResult (i := .lui d imm20) (s := s) rfl rfl
  obtain ⟨u, hu, haddi⟩ := completes_of_writeResult (i := .addi d d imm12) (s := t) rfl rfl
  refine ⟨t, ht, u, hu, ?_, hlui.others.trans haddi.others, ?_⟩
  · rw [haddi.dest, hlui.dest]
    split_ifs <;> rfl
  · rw [haddi.pc, hlui.pc, BitVec.add_assoc]
    rfl

/-- Settles O57: the fields are in range, their literals read back, and the two words add them in the register. -/
theorem loadImmediateLoadsItsValue : Obligations.LoadImmediateLoadsItsValue := by
  intro rd tok d v ctx1 ctx2 hd hlit hlo hhi
  have hhigh := liHi_lt (BitVec.ofInt 32 v)
  refine ⟨_, _, _, _, .lui d (BitVec.ofInt 20 (liHi (BitVec.ofInt 32 v))),
    .addi d d (BitVec.ofInt 12 (liLo (BitVec.ofInt 32 v))), expandLine_li hlit ⟨hlo, hhi⟩,
    encodeLine_lui hd (by omega), decode_encode rfl, encodeLine_addi hd (liLo_range _), decode_encode rfl, fun s => ?_⟩
  have hexec := lui_addi d (BitVec.ofInt 20 (liHi (BitVec.ofInt 32 v))) (BitVec.ofInt 12 (liLo (BitVec.ofInt 32 v))) s
  rwa [upper_liHi_add_liLo] at hexec

end Sys2Proof.Machine
end

section
/-! The assembler (`46_assembler_interface.md` R291 to R298): what pass 1 keeps of its cursors and labels, what pass 2
makes of the queue, the symbol table, and the first error. -/

namespace Sys2Proof.Machine

/-! ### The symbol table (R291) -/

theorem lookup_cons_eq (k other : String) (b : Word) (rest : List (String × Word)) :
    ((k, b) :: rest).lookup other = if other = k then some b else rest.lookup other := by
  rw [List.lookup_cons]
  by_cases h : other = k
  · rw [if_pos h, beq_iff_eq.mpr h]
  · rw [if_neg h, beq_eq_false_iff_ne.mpr h]

theorem lookup_insertLabel (table : List (String × Word)) (name other : String) (a : Word) :
    (insertLabel table name a).lookup other = if other = name then some a else table.lookup other := by
  induction table with
  | nil => exact lookup_cons_eq name other a []
  | cons entry rest ih =>
    obtain ⟨k, b⟩ := entry
    by_cases hk : k = name
    · rw [insertLabel, if_pos hk, lookup_cons_eq, lookup_cons_eq, hk]
      split_ifs <;> rfl
    · rw [insertLabel, if_neg hk, lookup_cons_eq, lookup_cons_eq, ih]
      by_cases h : other = k
      · rw [if_pos h, if_pos h, if_neg (h ▸ hk)]
      · rw [if_neg h, if_neg h]

theorem mem_keys_insertLabel {table : List (String × Word)} {name k : String} {a : Word} :
    k ∈ (insertLabel table name a).map Prod.fst ↔ k = name ∨ k ∈ table.map Prod.fst := by
  induction table with
  | nil => simp [insertLabel]
  | cons entry rest ih =>
    obtain ⟨l, b⟩ := entry
    by_cases hl : l = name
    · simp [insertLabel, hl]
    · rw [insertLabel, if_neg hl, List.map_cons, List.mem_cons, ih, List.map_cons, List.mem_cons]
      exact or_left_comm

theorem nodup_keys_insertLabel {table : List (String × Word)} (h : (table.map Prod.fst).Nodup) (name : String)
    (a : Word) : ((insertLabel table name a).map Prod.fst).Nodup := by
  induction table with
  | nil => exact List.nodup_singleton name
  | cons entry rest ih =>
    obtain ⟨l, b⟩ := entry
    obtain ⟨hl, hrest⟩ := List.nodup_cons.mp h
    by_cases hname : l = name
    · rw [insertLabel, if_pos hname]
      exact h
    · rw [insertLabel, if_neg hname, List.map_cons, List.nodup_cons]
      exact ⟨fun hmem => (mem_keys_insertLabel.mp hmem).elim hname hl, ih hrest⟩

theorem mem_insertLabel {table : List (String × Word)} {name : String} {a : Word} {entry : String × Word}
    (h : entry ∈ insertLabel table name a) : entry = (name, a) ∨ entry ∈ table := by
  induction table with
  | nil => exact .inl (List.mem_singleton.mp h)
  | cons head rest ih =>
    obtain ⟨k, b⟩ := head
    rw [insertLabel] at h
    split_ifs at h with hk
    · subst hk
      exact (List.mem_cons.mp h).imp_right (List.mem_cons_of_mem _)
    · obtain rfl | h := List.mem_cons.mp h
      · exact .inr List.mem_cons_self
      · exact (ih h).imp_right (List.mem_cons_of_mem _)

/-- The table that writes of labels, in order, leave. -/
def insertLabels (table labels : List (String × Word)) : List (String × Word) :=
  labels.foldl (fun table l => insertLabel table l.1 l.2) table

theorem nodup_keys_insertLabels {table : List (String × Word)} (h : (table.map Prod.fst).Nodup)
    (labels : List (String × Word)) : ((insertLabels table labels).map Prod.fst).Nodup := by
  induction labels generalizing table with
  | nil => exact h
  | cons l labels ih => exact ih (nodup_keys_insertLabel h l.1 l.2)

theorem mem_insertLabels {table labels : List (String × Word)} {entry : String × Word}
    (h : entry ∈ insertLabels table labels) : entry ∈ labels ∨ entry ∈ table := by
  induction labels generalizing table with
  | nil => exact .inr h
  | cons l labels ih =>
    obtain h | h := ih h
    · exact .inl (List.mem_cons_of_mem l h)
    · refine (mem_insertLabel h).imp_left fun he => ?_
      rw [he]
      exact List.mem_cons_self

/-! ### The Program that the passes make -/

theorem foldl_addLabel (labels : List (String × Word)) (prog : Program) :
    labels.foldl (fun prog l => prog.addLabel l.1 l.2) prog =
      { prog with symbolTable := insertLabels prog.symbolTable labels } := by
  induction labels generalizing prog with
  | nil => rfl
  | cons l labels ih => exact ih (prog.addLabel l.1 l.2)

theorem foldl_addInstruction (ws : List Word) (prog : Program) :
    ws.foldl Program.addInstruction prog = { prog with instructions := prog.instructions ++ ws } := by
  induction ws generalizing prog with
  | nil => simp
  | cons w ws ih => simp [ih, Program.addInstruction]

theorem Asm.flush_eq (c : Asm) : c.flush = ⟨[], c.data, insertLabels [] c.labels, c.relocations⟩ :=
  foldl_addLabel c.labels _

theorem assemble_eq_ok {p : Params} {lines : List Line} {prog : Program} (h : assemble p lines = .ok prog) :
    ∃ c ws, pass1 p 1 lines (Asm.start p) = .ok c ∧ pass2 c.flush.symbols p.textBase c.queue = .ok ws ∧
      prog = ⟨ws, c.data, insertLabels [] c.labels, c.relocations⟩ := by
  unfold assemble at h
  split at h
  · exact nomatch h
  · next c hc =>
    split at h
    · exact nomatch h
    · next ws hws =>
      cases h
      exact ⟨c, ws, hc, hws, by rw [foldl_addInstruction, Asm.flush_eq, List.nil_append]⟩

/-! ### Pass 1: cursors and labels (R293 to R295) -/

/-- `a` is the base of a segment plus an offset up to the segment's length: `n` instructions of text, `m` bytes of data. -/
def InSegments (p : Params) (n m : Nat) (a : Word) : Prop :=
  (∃ k ≤ n, a = p.textBase + BitVec.ofNat 32 (4 * k)) ∨ (∃ k ≤ m, a = p.staticBase + BitVec.ofNat 32 k)

theorem InSegments.mono {p : Params} {n n' m m' : Nat} {a : Word} (h : InSegments p n m a) (hn : n ≤ n')
    (hm : m ≤ m') : InSegments p n' m' a := by
  obtain ⟨k, hk, ha⟩ | ⟨k, hk, ha⟩ := h
  · exact .inl ⟨k, hk.trans hn, ha⟩
  · exact .inr ⟨k, hk.trans hm, ha⟩

/-- What pass 1 keeps: each cursor stands past its segment, labels lie in the segments, and nothing is relocated. -/
structure Asm.Placed (p : Params) (c : Asm) : Prop where
  textCursor : c.textCursor = p.textBase + BitVec.ofNat 32 (4 * c.queue.length)
  dataCursor : c.dataCursor = p.staticBase + BitVec.ofNat 32 c.data.length
  labels : ∀ l ∈ c.labels, InSegments p c.queue.length c.data.length l.2
  relocations : c.relocations = []

theorem Asm.Placed.start (p : Params) : (Asm.start p).Placed p where
  textCursor := (BitVec.add_zero _).symm
  dataCursor := (BitVec.add_zero _).symm
  labels := fun _ h => absurd h List.not_mem_nil
  relocations := rfl

section
variable {p : Params} {c c' : Asm}

theorem Asm.Placed.recordLabel (h : c.Placed p) (label : Option String) : (c.recordLabel p label).Placed p := by
  rcases label with - | name
  · exact h
  · rw [Asm.recordLabel]
    split_ifs
    · exact h
    · refine { h with labels := List.forall_mem_append.mpr ⟨h.labels, List.forall_mem_singleton.mpr ?_⟩ }
      cases c.mode with
      | text => exact .inl ⟨_, le_rfl, h.textCursor⟩
      | data => exact .inr ⟨_, le_rfl, h.dataCursor⟩

theorem Asm.Placed.addData (h : c.Placed p) (bs : List Byte) : (c.addData bs).Placed p where
  textCursor := h.textCursor
  dataCursor := by simp only [Asm.addData, h.dataCursor, List.length_append, BitVec.ofNat_add, BitVec.add_assoc]
  labels := fun l hl => (h.labels l hl).mono le_rfl (by simp [Asm.addData])
  relocations := h.relocations

theorem ofNat_four_mul_succ (k : Nat) : BitVec.ofNat 32 (4 * (k + 1)) = BitVec.ofNat 32 (4 * k) + ilen := by
  rw [Nat.mul_succ, BitVec.ofNat_add]

theorem Asm.Placed.enqueue (h : c.Placed p) (n : Nat) (lists : List (List String)) : (c.enqueue n lists).Placed p := by
  induction lists generalizing c with
  | nil => exact h
  | cons t ts ih =>
    refine ih
      { h with
        textCursor := ?_
        labels := fun l hl => (h.labels l hl).mono (by simp) le_rfl }
    rw [h.textCursor, List.length_append, List.length_singleton, ofNat_four_mul_succ, BitVec.add_assoc]

theorem map_eq_ok {ε α β : Type} {x : Except ε α} {f : α → β} {b : β} (h : x.map f = .ok b) : ∃ a, f a = b := by
  cases x with
  | error e => exact nomatch h
  | ok a => exact ⟨a, Except.ok.inj h⟩

theorem Asm.Placed.directive (h : c.Placed p) {tok : String} {args : List String} {quoted : Option (List Nat)}
    (hc : c.directive tok args quoted = .ok c') : c'.Placed p := by
  unfold Asm.directive at hc
  split_ifs at hc
  · cases hc
    exact { h with }
  · cases hc
    exact { h with }
  · obtain ⟨bs, rfl⟩ := map_eq_ok hc
    exact h.addData bs
  · obtain ⟨bs, rfl⟩ := map_eq_ok hc
    exact h.addData bs

theorem Asm.Placed.line (h : c.Placed p) {n : Nat} {l : Line} (hc : c.line p n l = .ok c') : c'.Placed p := by
  have hlabel := h.recordLabel l.label
  unfold Asm.line at hc
  split at hc
  · cases hc
    exact hlabel
  · split_ifs at hc
    · exact hlabel.directive hc
    · cases hc
      exact hlabel.enqueue n _

theorem Asm.Placed.pass1 {n : Nat} {lines : List Line} (h : c.Placed p) (hc : pass1 p n lines c = .ok c') :
    c'.Placed p := by
  induction lines generalizing n c with
  | nil =>
    cases hc
    exact h
  | cons l ls ih =>
    rw [Machine.pass1] at hc
    split at hc
    · next hline => exact ih (h.line hline) hc
    · exact nomatch hc

end

/-! ### Pass 2: one word for each list (R296) -/

theorem addr_zero (addr : Word) : addr + BitVec.ofNat 32 (4 * 0) = addr := BitVec.add_zero addr

/-- The address of the k-th list, counted from the second. -/
theorem addr_succ (addr : Word) (k : Nat) :
    addr + ilen + BitVec.ofNat 32 (4 * k) = addr + BitVec.ofNat 32 (4 * (k + 1)) := by
  rw [ofNat_four_mul_succ, BitVec.add_assoc, BitVec.add_comm ilen]

section
variable {symbols : String → Option Word} {addr : Word} {queue : List (List String × Nat)}

theorem pass2_eq_ok {ws : List Word} (h : pass2 symbols addr queue = .ok ws) :
    ws.length = queue.length ∧ ∀ k toks n, queue[k]? = some (toks, n) →
      ∃ w, ws[k]? = some w ∧ encodeTokens (addr + BitVec.ofNat 32 (4 * k)) symbols toks = .ok w := by
  induction queue generalizing addr ws with
  | nil =>
    cases h
    exact ⟨rfl, fun k toks n hk => by simp at hk⟩
  | cons entry queue ih =>
    obtain ⟨toks, n⟩ := entry
    rw [pass2] at h
    split at h
    · exact nomatch h
    · next w hw =>
      split at h
      · exact nomatch h
      · next ws' hws =>
        cases h
        obtain ⟨hlength, hwords⟩ := ih hws
        refine ⟨congrArg (· + 1) hlength, fun k toks' n' hk => ?_⟩
        cases k with
        | zero =>
          cases hk
          exact ⟨w, rfl, by rwa [addr_zero]⟩
        | succ k =>
          obtain ⟨w', hget, henc⟩ := hwords k toks' n' hk
          exact ⟨w', hget, addr_succ addr k ▸ henc⟩

/-- The first list that fails to encode ends pass 2 with its failure and its line (R297). -/
theorem pass2_eq_error {k n : Nat} {toks : List String} {e : AsmFailure} (hk : queue[k]? = some (toks, n))
    (hbefore : ∀ j < k, ∀ toks' n', queue[j]? = some (toks', n') →
      ∃ w, encodeTokens (addr + BitVec.ofNat 32 (4 * j)) symbols toks' = .ok w)
    (he : encodeTokens (addr + BitVec.ofNat 32 (4 * k)) symbols toks = .error e) :
    pass2 symbols addr queue = .error (e.atLine n) := by
  induction queue generalizing addr k with
  | nil => simp at hk
  | cons entry queue ih =>
    cases k with
    | zero =>
      cases hk
      rw [addr_zero] at he
      rw [pass2, he]
    | succ k =>
      obtain ⟨toks₀, n₀⟩ := entry
      obtain ⟨w, hw⟩ := hbefore 0 (Nat.succ_pos k) toks₀ n₀ rfl
      rw [addr_zero] at hw
      have hrest := ih (addr := addr + ilen) hk
        (fun j hj toks' n' hget => addr_succ addr j ▸ hbefore (j + 1) (Nat.succ_lt_succ hj) toks' n' hget)
        (addr_succ addr k ▸ he)
      rw [pass2, hw, hrest]

end

/-- Settles O58: pass 1 counts each list it queues, and pass 2 encodes them in order. -/
theorem assemblyIsAddressNeutral : Obligations.AssemblyIsAddressNeutral := by
  intro p lines prog h
  obtain ⟨c, ws, hc, hws, rfl⟩ := assemble_eq_ok h
  obtain ⟨hlength, hwords⟩ := pass2_eq_ok hws
  refine ⟨c, hc, hlength, ?_, ?_⟩
  · rw [hlength]
    exact ((Asm.Placed.start p).pass1 hc).textCursor
  · rw [Asm.flush_eq] at hwords
    exact hwords

/-- Settles O59: a label is written at a cursor of pass 1, and the table keeps one write for each key. -/
theorem assembledSymbolTable : Obligations.AssembledSymbolTable := by
  refine ⟨fun prog name other a => lookup_insertLabel prog.symbolTable name other a, fun p lines prog h => ?_⟩
  obtain ⟨c, ws, hc, hws, rfl⟩ := assemble_eq_ok h
  have hplaced := (Asm.Placed.start p).pass1 hc
  obtain ⟨hlength, -⟩ := pass2_eq_ok hws
  refine ⟨nodup_keys_insertLabels (table := []) List.nodup_nil c.labels, hplaced.relocations, fun name a hmem => ?_⟩
  obtain hlabel | hnil := mem_insertLabels hmem
  · have hseg := hplaced.labels _ hlabel
    rwa [← hlength] at hseg
  · exact absurd hnil List.not_mem_nil

/-! ### The first error (R297, `60_exceptions.md` R333) -/

/-- The first line that fails ends pass 1 with its failure and its line. -/
theorem pass1_eq_error {p : Params} {n : Nat} {before after : List Line} {l : Line} {c c' : Asm} {e : AsmFailure}
    (hc : pass1 p n before c = .ok c') (he : c'.line p (n + before.length) l = .error e) :
    pass1 p n (before ++ l :: after) c = .error (e.atLine (n + before.length)) := by
  induction before generalizing n c with
  | nil =>
    cases hc
    rw [List.length_nil, Nat.add_zero] at he ⊢
    rw [List.nil_append, pass1, he]
  | cons first before ih =>
    rw [pass1] at hc
    split at hc
    · next hline =>
      rw [List.length_cons, Nat.add_comm before.length, ← Nat.add_assoc] at he ⊢
      rw [List.cons_append, pass1, hline]
      exact ih hc he
    · exact nomatch hc

/-- Settles O60: each pass stops at its first failure, and pass 2 begins only after pass 1 has succeeded. -/
theorem assemblyStopsAtFirstError : Obligations.AssemblyStopsAtFirstError := by
  refine ⟨fun p before after l c e hc he => ?_, fun p lines c k toks n e hc hk hbefore he => ?_⟩
  · rw [Nat.add_comm] at he
    rw [assemble, pass1_eq_error hc he, Nat.add_comm]
    rfl
  · rw [assemble, hc]
    simp only [pass2_eq_error hk hbefore he]
    rfl

end Sys2Proof.Machine
end
